-- ==== Sys2Proof/Word.lean ====
section
/-! DEFINITION. The word types of the block (00_scope.md R8, R9): bytes, the u16 and u32 registers. Only bits that the
spec slices or that are registers of a stated width are bit vectors; counts and offsets are computed as naturals (R149). -/

namespace Sys2Proof

/-- One byte (u8). -/
abbrev Byte := BitVec 8

/-- A u16: the input word, the request key, the 16-bit SETUP fields. -/
abbrev Half := BitVec 16

/-- A u32 register. -/
abbrev Word := BitVec 32

/-- A natural stored in a u32 register. Every rule bounds the natural first (R149), so nothing wraps. -/
def u32 (n : Nat) : Word := BitVec.ofNat 32 n

/-- A u32 register holds a natural below 2^32 exactly. -/
theorem u32_toNat {n : Nat} (h : n < 4294967296) : (u32 n).toNat = n := by
  simp only [u32, BitVec.toNat_ofNat]
  exact Nat.mod_eq_of_lt h

/-- Storing what a u32 register holds gives it back. -/
theorem u32_of_toNat (w : Word) : u32 w.toNat = w := by
  simp [u32]

end Sys2Proof
end

