-- ==== Sys2Proof/Syntax.lean ====
section
/-! DEFINITION. What the block is given: endpoint addresses, the arguments carried beside an input word, events, commands
and requests as ONE inductive `Instr` (one constructor per row of spec/opcode_table.json), the in-flight request, and the
answers of callbacks (30_encoding.md, 10_state.md R31, R41, R42). -/

namespace Sys2Proof

/-- Data direction (30_encoding.md R81, R94): `out` = host-to-device (bit 0), `inn` = device-to-host, "IN" (bit 1). -/
inductive Dir where
  | out
  | inn
deriving DecidableEq, Repr, Inhabited

/-- An endpoint address (R94): the direction is bit 7, the endpoint number bits 3:0; bits 6:4 are zero. -/
structure EpAddr where
  dir : Dir
  num : BitVec 4
deriving DecidableEq, Repr, Inhabited

/-- DeviceEvent (R91). -/
inductive DeviceEvent where
  | reset
  | suspend
  | resume
deriving DecidableEq, Repr, Inhabited

/-- EpType, the transfer type of an endpoint (R92). The block passes it on without reading it. -/
inductive EpType where
  | control
  | isochronous
  | bulk
  | interrupt
deriving DecidableEq, Repr, Inhabited

/-- An application callback's identifier, opaque to the block (R36). -/
abbrev HandlerId := Nat

/-- A completion token, "an opaque identifier the application chooses" (10_state.md R34). -/
abbrev Token := Nat

/-- One event of a poll batch: its 16-bit word and the payload the CTE will read (R95, R97). Not yet decoded. -/
structure EventInput where
  word : Half
  payload : List Byte := []
deriving DecidableEq, Repr, Inhabited

/-- The arguments that travel beside an input word (R93, R100). Each word uses those the table names for it. -/
structure Beside where
  cap : Word := 0
  ep0 : Half := 0
  handler : Option HandlerId := none
  epType : EpType := .control
  mps : Half := 0
  bytes : List Byte := []
  batch : List EventInput := []
deriving DecidableEq, Repr, Inhabited

/-- An input to the block: a 16-bit word with its arguments beside it (R93). -/
structure Input where
  word : Half
  beside : Beside := {}
deriving DecidableEq, Repr, Inhabited

/-- ControlRequest, the 8-byte SETUP register (10_state.md R31, 30_encoding.md R80). -/
structure ControlRequest where
  requestType : Byte
  request : Byte
  value : Half
  index : Half
  length : Half
deriving DecidableEq, Repr, Inhabited

/-- Respond, the return value of a request callback (R89, 10_state.md R41). -/
inductive Respond where
  | fail
  | ack
  | nak
deriving DecidableEq, Repr, Inhabited

/-- What a callback answers (10_state.md R41). A notification's answer (R42) is one of which only `calls` is read.
`data = none` is "no data", `data = some []` an empty response (90_conflicts.md C4). -/
structure HandlerAnswer where
  respond : Respond := .ack
  data : Option (List Byte) := none
  completion : Option Token := none
  calls : List Input := []
deriving DecidableEq, Repr, Inhabited

/-- Every input of the block, decoded: one constructor per row of spec/opcode_table.json. -/
inductive Instr where
  -- format "event" (30_encoding.md R95)
  | evtReset
  | evtSuspend
  | evtResume
  | evtSetup (payload : List Byte)
  | evtEp0Rx (payload : List Byte)
  | evtEpnRx (n : BitVec 4)
  | evtEp0Tx
  | evtEpnTx (n : BitVec 4)
  -- format "command" (30_encoding.md R100)
  | init (cap : Word) (ep0 : Half)
  | poll (batch : List EventInput)
  | regControl (h : Option HandlerId)
  | regConfig (h : Option HandlerId)
  | regDescriptor (h : Option HandlerId)
  | regEndpoint (n : BitVec 4) (h : Option HandlerId)
  | regEvent (e : DeviceEvent) (h : Option HandlerId)
  | epConfig (ep : EpAddr) (ty : EpType) (mps : Half)
  | epDeconfig (ep : EpAddr)
  | epWrite (ep : EpAddr) (bytes : List Byte)
  | epRead (ep : EpAddr)
  | epStall (ep : EpAddr)
  | epUnstall (ep : EpAddr)
  | enable (b : Bool)
  | connect (b : Bool)
  | getInfo
  -- format "request" (30_encoding.md R102): the key's direction and recipient bits select no row and are operands
  | getStatus (dir : Dir) (rcpt : BitVec 5)
  | clearFeature (dir : Dir) (rcpt : BitVec 5)
  | setFeature (dir : Dir) (rcpt : BitVec 5)
  | setAddress (dir : Dir) (rcpt : BitVec 5)
  | getDescriptor (dir : Dir) (rcpt : BitVec 5)
  | setDescriptor (dir : Dir) (rcpt : BitVec 5)
  | getConfiguration (dir : Dir) (rcpt : BitVec 5)
  | setConfiguration (dir : Dir) (rcpt : BitVec 5)
  | getInterface (dir : Dir) (rcpt : BitVec 5)
  | setInterface (dir : Dir) (rcpt : BitVec 5)
  | stdOther (code : Byte) (dir : Dir) (rcpt : BitVec 5)
  | classRequest (code : Byte) (dir : Dir) (rcpt : BitVec 5)
  | vendorRequest (code : Byte) (dir : Dir) (rcpt : BitVec 5)
  | reservedType (code : Byte) (dir : Dir) (rcpt : BitVec 5)
deriving DecidableEq, Repr, Inhabited

end Sys2Proof
end

