-- ==== Sys2Proof/Config.lean ====
section
/-! DEFINITION. What an implementation fixes (00_scope.md R7: P_NUM_EP and P_DEVICE_STATUS, carried in State as data so that
every statement about all states holds for every configuration) and the FREE VALUES: opaque constants with no body, applied to
the State's counter of draws, so that no proof can see a value of theirs (93_implementation_defined.md U2, U5, U6). -/

namespace Sys2Proof

/-- The configuration parameters (R7). `numEp` is P_NUM_EP, `deviceStatus` is P_DEVICE_STATUS. -/
structure Config where
  numEp : Nat
  deviceStatus : Half
deriving DecidableEq, Repr, Inhabited

/-- P_NUM_EP is 1..16 (R7). -/
def Config.wf (c : Config) : Bool := decide (1 ≤ c.numEp) && decide (c.numEp ≤ 16)

/-- The configuration of the spec's test vectors (95_test_vectors.md, Conventions): P_NUM_EP = 4, P_DEVICE_STATUS = 0.
DESIGN CHOICE (log 2): the spec leaves both OPEN; only State.reset uses this one. -/
def Config.vectors : Config := { numEp := 4, deviceStatus := 0 }

/-- FREE VALUE (log 5): what a callback answers when State scripts no answer (U5). -/
opaque Config.freeAnswer : Nat → HandlerAnswer

/-- FREE VALUE (log 5): the `bytesWritten` of an EP_WRITE (U6). -/
opaque Config.freeWritten : Nat → Word

/-- FREE VALUE (log 5): the bytes an EP_READ returns (U6). -/
opaque Config.freeRead : Nat → List Byte

/-- FREE VALUE (log 5): the capabilities GET_INFO returns (U6). -/
opaque Config.freeInfo : Nat → Nat

/-- FREE VALUE (log 7): the content of the SETUP register after INIT (U2). -/
opaque Config.freeSetup : Nat → ControlRequest

end Sys2Proof
end

