-- ==== Sys2Proof/WellFormed.lean ====
section
/-! DEFINITION. Which decoded inputs are legal: the endpoint-number and payload bounds of 30_encoding.md R94 to R96 and R101,
and which request codes belong to STD_OTHER (R84, R102). What no check names is legal by its type. -/

namespace Sys2Proof

/-- What legality depends on: P_NUM_EP (00_scope.md R7) and the EP0 packet size, the bound of an EP0 OUT payload (R95). -/
structure Limits where
  numEp : Nat
  ep0Size : Nat
deriving DecidableEq, Repr, Inhabited

/-- A valid endpoint address has a number below P_NUM_EP (R94); bits 6:4 are zero by the type. -/
def EpAddr.valid (lim : Limits) (ep : EpAddr) : Bool := decide (ep.num.toNat < lim.numEp)

/-- A SETUP payload is at most 64 bytes long (R95). -/
def maxSetupPayload : Nat := 64

/-- The standard request codes with a row of their own (R84, R102). -/
def stdHandled (code : Byte) : Bool :=
  [0x00#8, 0x01#8, 0x03#8, 0x05#8, 0x06#8, 0x07#8, 0x08#8, 0x09#8, 0x0A#8, 0x0B#8].contains code

/-- Legal as an input: events by R95 and R96, commands by R101, requests by R102 (STD_OTHER is "any request not above"). -/
def Instr.wf (lim : Limits) : Instr → Bool
  | .evtReset => true
  | .evtSuspend => true
  | .evtResume => true
  | .evtSetup p => decide (p.length ≤ maxSetupPayload)
  | .evtEp0Rx p => decide (0 < lim.numEp) && decide (p.length ≤ lim.ep0Size)
  | .evtEpnRx n => decide (n ≠ 0) && decide (n.toNat < lim.numEp)
  | .evtEp0Tx => decide (0 < lim.numEp)
  | .evtEpnTx n => decide (n ≠ 0) && decide (n.toNat < lim.numEp)
  | .init _ _ => true
  | .poll _ => true
  | .regControl _ => true
  | .regConfig _ => true
  | .regDescriptor _ => true
  | .regEndpoint n _ => decide (n.toNat < lim.numEp)
  | .regEvent _ _ => true
  | .epConfig ep _ _ => ep.valid lim
  | .epDeconfig ep => ep.valid lim
  | .epWrite ep _ => ep.valid lim
  | .epRead ep => ep.valid lim
  | .epStall ep => ep.valid lim
  | .epUnstall ep => ep.valid lim
  | .enable _ => true
  | .connect _ => true
  | .getInfo => true
  | .getStatus _ _ => true
  | .clearFeature _ _ => true
  | .setFeature _ _ => true
  | .setAddress _ _ => true
  | .getDescriptor _ _ => true
  | .setDescriptor _ _ => true
  | .getConfiguration _ _ => true
  | .setConfiguration _ _ => true
  | .getInterface _ _ => true
  | .setInterface _ _ => true
  | .stdOther code _ _ => !stdHandled code
  | .classRequest _ _ _ => true
  | .vendorRequest _ _ _ => true
  | .reservedType _ _ _ => true

end Sys2Proof
end

