-- ==== Sys2Proof/Decode.lean ====
section
/-! DEFINITION. The decoders, total on every word and rejecting by name (30_encoding.md): the SETUP packet (R80), endpoint
addresses (R94), event words (R94 to R99), command words (R100, R101) and the request key (R102); AFTER them the encoders of
the same tables, the numeric codes of DeviceEvent and EpType (R91, R92) and the pseudo-events (R105). -/

namespace Sys2Proof

/-! ## Fields -/

/-- `le16(b0, b1) = zext_16(b0) | (zext_16(b1) << 8)` (00_scope.md R9). -/
def le16 (b0 b1 : Byte) : Half := b0.setWidth 16 ||| (b1.setWidth 16 <<< 8)

/-- The low byte of a u16, the first on the wire (20_memory.md R64). -/
def lowByte (h : Half) : Byte := h.extractLsb' 0 8

/-- The high byte of a u16. -/
def highByte (h : Half) : Byte := h.extractLsb' 8 8

/-- `word[15:12]`, the class of an input word (R93). -/
def wordClass (w : Half) : BitVec 4 := w.extractLsb' 12 4

/-- `word[11:8]`, the kind of an event or the code of a command (R94, R100). -/
def wordCode (w : Half) : BitVec 4 := w.extractLsb' 8 4

/-- The direction of a direction bit: 1 = IN (R81, R94). -/
def dirOfBit (b : Bool) : Dir := if b then .inn else .out

/-- The direction bit of a direction (R81, R94). -/
def dirBit (d : Dir) : Bool := decide (d = .inn)

/-! ## Codes -/

/-- DeviceEvent codes (R91): RESET = 0, SUSPEND = 1, RESUME = 2. -/
def deviceEventCode : DeviceEvent → Byte
  | .reset => 0
  | .suspend => 1
  | .resume => 2

/-- The DeviceEvent of a code; codes above 2 are none (R91, R101). -/
def deviceEventOfCode (b : Byte) : Option DeviceEvent :=
  if b = 0 then some .reset else if b = 1 then some .suspend else if b = 2 then some .resume else none

/-- EpType codes (R92): CONTROL = 0, ISOCHRONOUS = 1, BULK = 2, INTERRUPT = 3. -/
def epTypeCode : EpType → BitVec 2
  | .control => 0
  | .isochronous => 1
  | .bulk => 2
  | .interrupt => 3

/-- The EpType of a code (R92): every 2-bit code is one. -/
def epTypeOfCode (c : BitVec 2) : EpType :=
  if c = 0 then .control else if c = 1 then .isochronous else if c = 2 then .bulk else .interrupt

/-! ## Endpoint addresses -/

/-- An endpoint address byte (R94): bit 7 the direction, bits 6:4 zero, bits 3:0 the number. -/
def decodeEp (b : Byte) : Option EpAddr :=
  if b.extractLsb' 4 3 = 0 then some { dir := dirOfBit (b.getLsbD 7), num := b.extractLsb' 0 4 } else none

/-- The byte of an endpoint address (R94). -/
def encodeEp (ep : EpAddr) : Byte := (if ep.dir = .inn then 0x80#8 else 0x00#8) ||| ep.num.setWidth 8

/-- The control endpoint's OUT address, 0x00 (R94). -/
def ep0Out : EpAddr := { dir := .out, num := 0 }

/-- The control endpoint's IN address, 0x80 (R94). -/
def ep0In : EpAddr := { dir := .inn, num := 0 }

/-! ## The SETUP packet -/

/-- The SETUP packet's layout (R80, R122): eight bytes in field order, 16-bit fields low byte first. Any other length fails. -/
def parseSetup (p : List Byte) : Option ControlRequest :=
  match p with
  | [b0, b1, b2, b3, b4, b5, b6, b7] =>
    some { requestType := b0, request := b1, value := le16 b2 b3, index := le16 b4 b5, length := le16 b6 b7 }
  | _ => none

/-- The eight bytes of a SETUP packet (R80), the content of the SETUP register by byte index (20_memory.md R60). -/
def setupBytes (r : ControlRequest) : List Byte :=
  [r.requestType, r.request, lowByte r.value, highByte r.value, lowByte r.index, highByte r.index,
    lowByte r.length, highByte r.length]

/-- The request key (R102): `requestType | (request << 8)`. -/
def requestKey (r : ControlRequest) : Half := le16 r.requestType r.request

/-- The request whose first two SETUP bytes are those of a key, the others kept. -/
def withKey (r : ControlRequest) (k : Half) : ControlRequest :=
  { r with requestType := lowByte k, request := highByte k }

/-! ## Decoders -/

/-- Why a word spells no input. All of them refuse RESERVED_INPUT (R99). -/
inductive Reject where
  | reservedClass    -- class 0x2..0xF (R93)
  | reservedKind     -- event kinds 6..15 (R95)
  | badEndpoint      -- an `ep` field that R96 or R101 does not allow
  | badArgument      -- an `arg8` that R101 does not allow
  | payloadTooLong   -- a payload over its bound (R95, R96)
  | notAnEvent       -- a command word where an event is read (R210)
  | notACommand      -- an event word where a command is read (R256)
deriving DecidableEq, Repr

/-- The events whose `ep` field must be 0x00 and that have no payload: RESET, SUSPEND, RESUME (R95, R96). -/
def decodeDeviceEvent (i : Instr) (arg : Byte) (payload : List Byte) : Except Reject Instr :=
  if arg ≠ 0 then .error .badEndpoint
  else if payload ≠ [] then .error .payloadTooLong
  else .ok i

/-- SETUP: `ep` must be 0x00, the payload 0..64 bytes (R95, R96). -/
def decodeSetupEvent (arg : Byte) (payload : List Byte) : Except Reject Instr :=
  if arg ≠ 0 then .error .badEndpoint
  else if maxSetupPayload < payload.length then .error .payloadTooLong
  else .ok (.evtSetup payload)

/-- RX: an OUT address that is valid; number 0 is EVT_EP0_RX with its payload bound, any other EVT_EPN_RX without payload
(R95, R96). -/
def decodeRxEvent (lim : Limits) (arg : Byte) (payload : List Byte) : Except Reject Instr :=
  match decodeEp arg with
  | none => .error .badEndpoint
  | some ep =>
    if ep.dir ≠ .out ∨ ep.valid lim = false then .error .badEndpoint
    else if ep.num = 0 then
      if lim.ep0Size < payload.length then .error .payloadTooLong else .ok (.evtEp0Rx payload)
    else if payload ≠ [] then .error .payloadTooLong
    else .ok (.evtEpnRx ep.num)

/-- TX: an IN address that is valid, no payload; number 0 is EVT_EP0_TX, any other EVT_EPN_TX (R95, R96). -/
def decodeTxEvent (lim : Limits) (arg : Byte) (payload : List Byte) : Except Reject Instr :=
  match decodeEp arg with
  | none => .error .badEndpoint
  | some ep =>
    if ep.dir ≠ .inn ∨ ep.valid lim = false then .error .badEndpoint
    else if payload ≠ [] then .error .payloadTooLong
    else if ep.num = 0 then .ok .evtEp0Tx
    else .ok (.evtEpnTx ep.num)

/-- An event word (R94 to R99). A command word is no event. -/
def decodeEvent (lim : Limits) (w : Half) (payload : List Byte) : Except Reject Instr :=
  if wordClass w = 0 then
    match (wordCode w).toNat with
    | 0 => decodeDeviceEvent .evtReset (lowByte w) payload
    | 1 => decodeDeviceEvent .evtSuspend (lowByte w) payload
    | 2 => decodeDeviceEvent .evtResume (lowByte w) payload
    | 3 => decodeSetupEvent (lowByte w) payload
    | 4 => decodeRxEvent lim (lowByte w) payload
    | 5 => decodeTxEvent lim (lowByte w) payload
    | _ => .error .reservedKind
  else if wordClass w = 1 then .error .notAnEvent
  else .error .reservedClass

/-- A command whose `arg8` must be 0 (R101). -/
def decodePlain (i : Instr) (arg : Byte) : Except Reject Instr :=
  if arg = 0 then .ok i else .error .badArgument

/-- A command whose `arg8` is a valid endpoint address (R101). -/
def decodeEpCommand (lim : Limits) (f : EpAddr → Instr) (arg : Byte) : Except Reject Instr :=
  match decodeEp arg with
  | none => .error .badEndpoint
  | some ep => if ep.valid lim then .ok (f ep) else .error .badEndpoint

/-- A command whose `arg8` is one bit, bits 7:1 zero (R101). -/
def decodeFlagCommand (f : Bool → Instr) (arg : Byte) : Except Reject Instr :=
  if arg.extractLsb' 1 7 = 0 then .ok (f (arg.getLsbD 0)) else .error .badArgument

/-- REG_ENDPOINT: bits 7:4 zero and a number below P_NUM_EP (R101). -/
def decodeRegEndpoint (lim : Limits) (arg : Byte) (h : Option HandlerId) : Except Reject Instr :=
  if arg.extractLsb' 4 4 = 0 ∧ (arg.extractLsb' 0 4).toNat < lim.numEp then
    .ok (.regEndpoint (arg.extractLsb' 0 4) h)
  else .error .badArgument

/-- REG_EVENT: a DeviceEvent code 0..2 (R101). -/
def decodeRegEvent (arg : Byte) (h : Option HandlerId) : Except Reject Instr :=
  match deviceEventOfCode arg with
  | some e => .ok (.regEvent e h)
  | none => .error .badArgument

/-- A command word and what is beside it (R100, R101). Every code is used. An event word is no command. -/
def decodeCommand (lim : Limits) (w : Half) (b : Beside) : Except Reject Instr :=
  if wordClass w = 1 then
    match (wordCode w).toNat with
    | 0 => decodePlain (.init b.cap b.ep0) (lowByte w)
    | 1 => decodePlain (.poll b.batch) (lowByte w)
    | 2 => decodePlain (.regControl b.handler) (lowByte w)
    | 3 => decodePlain (.regConfig b.handler) (lowByte w)
    | 4 => decodePlain (.regDescriptor b.handler) (lowByte w)
    | 5 => decodeRegEndpoint lim (lowByte w) b.handler
    | 6 => decodeRegEvent (lowByte w) b.handler
    | 7 => decodeEpCommand lim (.epConfig · b.epType b.mps) (lowByte w)
    | 8 => decodeEpCommand lim .epDeconfig (lowByte w)
    | 9 => decodeEpCommand lim (.epWrite · b.bytes) (lowByte w)
    | 10 => decodeEpCommand lim .epRead (lowByte w)
    | 11 => decodeEpCommand lim .epStall (lowByte w)
    | 12 => decodeEpCommand lim .epUnstall (lowByte w)
    | 13 => decodeFlagCommand .enable (lowByte w)
    | 14 => decodeFlagCommand .connect (lowByte w)
    | _ => decodePlain .getInfo (lowByte w)
  else if wordClass w = 0 then .error .notACommand
  else .error .reservedClass

/-- Any input word (R93): class 0 is an event (its payload is `bytes`), class 1 a command, every other class reserved. -/
def decodeInput (lim : Limits) (w : Half) (b : Beside) : Except Reject Instr :=
  if wordClass w = 0 then decodeEvent lim w b.bytes else decodeCommand lim w b

/-- A standard request by its code (R84, R102). -/
def decodeStdRequest (code : Byte) (d : Dir) (r : BitVec 5) : Instr :=
  match code.toNat with
  | 0 => .getStatus d r
  | 1 => .clearFeature d r
  | 3 => .setFeature d r
  | 5 => .setAddress d r
  | 6 => .getDescriptor d r
  | 7 => .setDescriptor d r
  | 8 => .getConfiguration d r
  | 9 => .setConfiguration d r
  | 10 => .getInterface d r
  | 11 => .setInterface d r
  | _ => .stdOther code d r

/-- The request key (R102): the type, bits 6:5, then for type 0 the request code; bits 7 and 4:0 are operands. Total. -/
def decodeKey (k : Half) : Instr :=
  let d := dirOfBit (k.getLsbD 7)
  let r := k.extractLsb' 0 5
  match (k.extractLsb' 5 2).toNat with
  | 0 => decodeStdRequest (highByte k) d r
  | 1 => .classRequest (highByte k) d r
  | 2 => .vendorRequest (highByte k) d r
  | _ => .reservedType (highByte k) d r

/-! ## Encoders -/

/-- An event or command word: class, code, low byte (R93, R94, R100). -/
def inputWord (cls code : BitVec 4) (arg : Byte) : Half := (cls ++ code) ++ arg

/-- A request key: the code, then direction, type and recipient (R81, R102). -/
def keyWord (code : Byte) (d : Dir) (ty : BitVec 2) (r : BitVec 5) : Half :=
  code ++ (BitVec.ofBool (dirBit d) ++ (ty ++ r))

/-- The low byte of a one-bit command (R100). -/
def flagByte (b : Bool) : Byte := if b then 1 else 0

/-- The 16-bit word of an instruction, from the tables of R95, R100 and R102. -/
def encodeWord : Instr → Half
  | .evtReset => inputWord 0 0 0
  | .evtSuspend => inputWord 0 1 0
  | .evtResume => inputWord 0 2 0
  | .evtSetup _ => inputWord 0 3 0
  | .evtEp0Rx _ => inputWord 0 4 (encodeEp ep0Out)
  | .evtEpnRx n => inputWord 0 4 (encodeEp { dir := .out, num := n })
  | .evtEp0Tx => inputWord 0 5 (encodeEp ep0In)
  | .evtEpnTx n => inputWord 0 5 (encodeEp { dir := .inn, num := n })
  | .init _ _ => inputWord 1 0 0
  | .poll _ => inputWord 1 1 0
  | .regControl _ => inputWord 1 2 0
  | .regConfig _ => inputWord 1 3 0
  | .regDescriptor _ => inputWord 1 4 0
  | .regEndpoint n _ => inputWord 1 5 (n.setWidth 8)
  | .regEvent e _ => inputWord 1 6 (deviceEventCode e)
  | .epConfig ep _ _ => inputWord 1 7 (encodeEp ep)
  | .epDeconfig ep => inputWord 1 8 (encodeEp ep)
  | .epWrite ep _ => inputWord 1 9 (encodeEp ep)
  | .epRead ep => inputWord 1 10 (encodeEp ep)
  | .epStall ep => inputWord 1 11 (encodeEp ep)
  | .epUnstall ep => inputWord 1 12 (encodeEp ep)
  | .enable b => inputWord 1 13 (flagByte b)
  | .connect b => inputWord 1 14 (flagByte b)
  | .getInfo => inputWord 1 15 0
  | .getStatus d r => keyWord 0x00 d 0 r
  | .clearFeature d r => keyWord 0x01 d 0 r
  | .setFeature d r => keyWord 0x03 d 0 r
  | .setAddress d r => keyWord 0x05 d 0 r
  | .getDescriptor d r => keyWord 0x06 d 0 r
  | .setDescriptor d r => keyWord 0x07 d 0 r
  | .getConfiguration d r => keyWord 0x08 d 0 r
  | .setConfiguration d r => keyWord 0x09 d 0 r
  | .getInterface d r => keyWord 0x0A d 0 r
  | .setInterface d r => keyWord 0x0B d 0 r
  | .stdOther c d r => keyWord c d 0 r
  | .classRequest c d r => keyWord c d 1 r
  | .vendorRequest c d r => keyWord c d 2 r
  | .reservedType c d r => keyWord c d 3 r

/-- What travels beside the word of an instruction (R95, R100). -/
def encodeBeside : Instr → Beside
  | .evtSetup p => { bytes := p }
  | .evtEp0Rx p => { bytes := p }
  | .init cap ep0 => { cap := cap, ep0 := ep0 }
  | .poll batch => { batch := batch }
  | .regControl h => { handler := h }
  | .regConfig h => { handler := h }
  | .regDescriptor h => { handler := h }
  | .regEndpoint _ h => { handler := h }
  | .regEvent _ h => { handler := h }
  | .epConfig _ ty mps => { epType := ty, mps := mps }
  | .epWrite _ bs => { bytes := bs }
  | .evtReset => {}
  | .evtSuspend => {}
  | .evtResume => {}
  | .evtEpnRx _ => {}
  | .evtEp0Tx => {}
  | .evtEpnTx _ => {}
  | .epDeconfig _ => {}
  | .epRead _ => {}
  | .epStall _ => {}
  | .epUnstall _ => {}
  | .enable _ => {}
  | .connect _ => {}
  | .getInfo => {}
  | .getStatus _ _ => {}
  | .clearFeature _ _ => {}
  | .setFeature _ _ => {}
  | .setAddress _ _ => {}
  | .getDescriptor _ _ => {}
  | .setDescriptor _ _ => {}
  | .getConfiguration _ _ => {}
  | .setConfiguration _ _ => {}
  | .getInterface _ _ => {}
  | .setInterface _ _ => {}
  | .stdOther _ _ _ => {}
  | .classRequest _ _ _ => {}
  | .vendorRequest _ _ _ => {}
  | .reservedType _ _ _ => {}

/-- An instruction as an input: its word and what is beside it. -/
def encode (i : Instr) : Input := { word := encodeWord i, beside := encodeBeside i }

/-! ## Pseudo-events -/

/-- The SETUP bytes of a pseudo-event (R105): `rt` is direction, type and recipient. `STD` has type 0, `CLS` 1, `VND` 2. -/
def pseudoSetup (ty : BitVec 2) (code : Byte) (d : Dir) (r : BitVec 5) (value index length : Half) : List Byte :=
  setupBytes (withKey { requestType := 0, request := 0, value := value, index := index, length := length } (keyWord code d ty r))

/-! ## The rows of the opcode table -/

/-- What the host's table word travels with (log 3): a SETUP event gets eight zero bytes, INIT the arguments of R240's example
(`INIT cap=64 ep0=8`: an EP0 size of 0 would be illegal), every other word nothing. -/
def tableBeside (w : Half) : Beside :=
  if w = 0x0300 then { bytes := List.replicate 8 0 }
  else if w = 0x1000 then { cap := 64, ep0 := 8 }
  else {}

/-- The instruction of a table row's word (log 13): an input word where it spells one, else the request key. The three formats
share one 16-bit space (R93, R102), so a key that is also a legal event word is read as the event. -/
def decodeRow (lim : Limits) (w : Half) : Instr :=
  match decodeInput lim w (tableBeside w) with
  | .ok i => i
  | .error _ => decodeKey w

/-- The host's numbering: a row's 16 bits as one number, in the configuration of State.reset. -/
def decodeTableWord (nbits w : Nat) : Option Instr :=
  if nbits = 16 ∧ w < 65536 then
    some (decodeRow { numEp := Config.vectors.numEp, ep0Size := 0 } (BitVec.ofNat 16 w))
  else none

end Sys2Proof
end

