-- ==== Sys2Proof/Machine/State.lean ====
section
/-! DEFINITION. The state of the block as plain data (10_state.md): the DeviceStatus, the hidden registers, the registry, the
context and the refused mark; beside them the observation (the action trace) and the free inputs of the three outside agents. -/

namespace Sys2Proof.Machine

/-- ControlState (R22, R87). -/
inductive ControlState where
  | idle
  | rxData
  | txData
  | zeroTxData
  | lastData
  | statusIn
  | statusOut
deriving DecidableEq, Repr, Inhabited

/-- MachineState (R23, R88). -/
inductive MachineState where
  | default
  | addressed
  | configured
deriving DecidableEq, Repr, Inhabited

/-- PendingState (R32, R90). -/
inductive PendingState where
  | none
  | fresh
  | armed
deriving DecidableEq, Repr, Inhabited

/-- Context (R40, R314): the block's only mode. -/
inductive Context where
  | normal
  | inCallback
deriving DecidableEq, Repr, Inhabited

/-- The causes of a recovery: ProtocolViolation (60_exceptions.md R301) and HandlerRejection (R302). -/
inductive ErrCode where
  | pvSetupLength
  | pvOutTooLong
  | pvOutOverflow
  | pvOutShort
  | pvStatusNonzero
  | pvInOverflow
  | pvUnexpectedRx
  | pvUnexpectedTx
  | hrHandlerFail
  | hrAckNoData
  | hrNoHandler
  | hrStdRefused
  | hrUnsupported
deriving DecidableEq, Repr, Inhabited

/-- The refusal reasons (60_exceptions.md R313). -/
inductive RefuseReason where
  | notInitialised
  | reentrant
  | reservedInput
  | ep0Reserved
  | direction
  | badArgument
  | bufferBounds
deriving DecidableEq, Repr, Inhabited

/-- RX or TX, the first argument of an endpoint callback (43_public_api.md R263). -/
inductive Transfer where
  | rx
  | tx
deriving DecidableEq, Repr, Inhabited

/-- One invocation of a callback: its slot, the registered handler, its arguments (R263). -/
inductive Call where
  | control (h : HandlerId) (req : ControlRequest) (outData : List Byte)
  | descriptor (h : HandlerId) (req : ControlRequest) (outData : List Byte)
  | config (h : HandlerId) (cfg : Byte)
  | complete (tok : Token) (req : ControlRequest)
  | endpoint (h : HandlerId) (kind : Transfer) (ep : EpAddr)
  | event (h : HandlerId) (e : DeviceEvent)
deriving DecidableEq, Repr, Inhabited

/-- One entry of the action trace (R262): a HAL action (R260) with its result where the emitting rule draws one, a callback
invocation, or the annotation of the recovery path. `writeEndpoint` has a result when the application wrote (R249) and none
when the block wrote EP0, whose `bytesWritten` the block ignores (R261, log 14). -/
inductive Action where
  | configureEndpoint (ep : EpAddr) (ty : EpType) (mps : Half)
  | deconfigureEndpoint (ep : EpAddr)
  | writeEndpoint (ep : EpAddr) (bytes : List Byte) (written : Option Word)
  | readEndpoint (ep : EpAddr) (bytes : List Byte)
  | stallEndpoint (ep : EpAddr)
  | unstallEndpoint (ep : EpAddr)
  | setAddress (a : BitVec 7)
  | enable (b : Bool)
  | connect (b : Bool)
  | getInfo (caps : Nat)
  | call (c : Call)
  | note (code : Byte)
deriving DecidableEq, Repr, Inhabited

/-- What a command returned to the application (R221, R249, R250, R255). -/
inductive Returned where
  | nothing
  | events (n : Nat)
  | written (w : Word)
  | bytes (bs : List Byte)
  | caps (c : Nat)
deriving DecidableEq, Repr, Inhabited

/-- The event callback slots, one per DeviceEvent (R38). -/
structure EvtHandlers where
  reset : Option HandlerId
  suspend : Option HandlerId
  resume : Option HandlerId
deriving DecidableEq, Repr, Inhabited

/-- The outside agents' future as data (log 3, 4, 5): the inputs still to come, the events that wait for a POLL, the answers
callbacks will give, the HAL results to come, and how many free values have been drawn. -/
structure Env where
  inputs : List Input
  eventQueue : List EventInput
  answers : List HandlerAnswer
  writeResults : List Word
  readResults : List (List Byte)
  infoResults : List Nat
  draws : Nat
deriving DecidableEq, Repr, Inhabited

/-- Why the machine stops. -/
inductive Fault where
  /-- Raised by a step or an instruction in a state whose refused mark is set: "the block has no step" (R312, R43, U12).
  Safe: the spec gives the machine nothing to do there. -/
  | stuck
deriving DecidableEq, Repr, Inhabited

/-- Why an input has no meaning. The spec's own refusals (R313) are NOT these: they set the refused mark, a next state. -/
inductive Refusal where
  /-- Raised by an arm of `exec` whose instruction is not modelled yet; no arm does. Safe: nothing is claimed of it. -/
  | notModelled (mnemonic : String)
deriving DecidableEq, Repr, Inhabited

/-- The state `S` of the block (10_state.md R20 to R43), its parameters, its observation and the outside agents' future. -/
structure State where
  -- DeviceStatus (R22 to R29)
  controlState : ControlState
  deviceState : MachineState
  activeConfig : Byte
  ep0PacketSize : Half
  maxDataSize : Word
  /-- Bytes by offset, in canonical form: offsets strictly rising, no entry equal to what an unlisted byte reads as (log 6). -/
  dataBuffer : List Host.Cell
  dataCursor : Word
  transferredCount : Word
  -- hidden registers (R30 to R35)
  totalLen : Word
  setup : ControlRequest
  pending : PendingState
  pendingAddress : Option (BitVec 7)
  completion : Option Token
  /-- Entry 16·direction + number of each endpoint address (R35). -/
  halted : Vector Bool 32
  -- registry (R36 to R38)
  controlCb : Option HandlerId
  configCb : Option HandlerId
  descriptorCb : Option HandlerId
  epHandler : Vector (Option HandlerId) 16
  evtHandler : EvtHandlers
  -- modes (R39, R40, R43)
  initialised : Bool
  ctx : Context
  /-- The refused mark (R43): none is the spec's `refused = false`, a reason its `true` (log 8). -/
  refusedFor : Option RefuseReason
  -- observation (R14, R262)
  trace : List Action
  returned : Returned
  -- parameters (R7) and the outside agents
  cfg : Config
  env : Env
deriving DecidableEq, Repr, Inhabited

/-- The spec's `refused` (R43). -/
def State.refused (s : State) : Bool := s.refusedFor.isSome

/-- Power-on (70_reset_and_hazards.md R340, 10_state.md R47): `refused` and `initialised` are false by the spec; every other
value is a DESIGN CHOICE (log 1), the parameters too (log 2). -/
def State.reset : State where
  controlState := .idle
  deviceState := .default
  activeConfig := 0
  ep0PacketSize := 0
  maxDataSize := 0
  dataBuffer := []
  dataCursor := 0
  transferredCount := 0
  totalLen := 0
  setup := { requestType := 0, request := 0, value := 0, index := 0, length := 0 }
  pending := .none
  pendingAddress := none
  completion := none
  halted := Vector.replicate 32 false
  controlCb := none
  configCb := none
  descriptorCb := none
  epHandler := Vector.replicate 16 none
  evtHandler := { reset := none, suspend := none, resume := none }
  initialised := false
  ctx := .normal
  refusedFor := none
  trace := []
  returned := .nothing
  cfg := Config.vectors
  env := { inputs := [], eventQueue := [], answers := [], writeResults := [], readResults := [], infoResults := [], draws := 0 }

end Sys2Proof.Machine
end

