-- ==== Sys2Proof/Machine/Ops.lean ====
section
/-! DEFINITION. The named operations every meaning is built from: the flow of a procedure (goes on, raises, refuses), the data
buffer, the trace, the draws of free inputs, CancelTransfer, StallControl, and the recovery path: the block's one way of TAKING
AN EXCEPTION (60_exceptions.md R303). There is no return from it but the next SETUP or bus reset (R308). -/

namespace Sys2Proof.Machine

/-! ## How a procedure ends -/

/-- A procedure of the spec ends in a value, in a `raise` (R303) or in a `refuse` (R312), the last two with the state so far. -/
inductive Flow (α : Type) where
  | ok (a : α)
  | raised (e : ErrCode) (s : State)
  | refused (r : RefuseReason) (s : State)

/-- Sequencing: nothing after a raise or a refusal runs (00_scope.md R10). -/
def Flow.bind {α β : Type} (x : Flow α) (f : α → Flow β) : Flow β :=
  match x with
  | .ok a => f a
  | .raised e s => .raised e s
  | .refused r s => .refused r s

/-- `emit` (R10, R262): append to the trace. -/
def State.emit (s : State) (a : Action) : State := { s with trace := s.trace ++ [a] }

/-- `refuse <reason>` (R312): the refused mark is set for good. -/
def State.refuse (s : State) (r : RefuseReason) : State := { s with refusedFor := some r }

/-- Enter or leave a callback's context (R314). -/
def State.setCtx (s : State) (c : Context) : State := { s with ctx := c }

/-! ## Recovery: taking an exception -/

/-- The numeric codes of ProtocolViolation (R301) and HandlerRejection (R302). -/
def errNumber : ErrCode → Byte
  | .pvSetupLength => 0x01
  | .pvOutTooLong => 0x02
  | .pvOutOverflow => 0x03
  | .pvOutShort => 0x04
  | .pvStatusNonzero => 0x05
  | .pvInOverflow => 0x06
  | .pvUnexpectedRx => 0x07
  | .pvUnexpectedTx => 0x08
  | .hrHandlerFail => 0x11
  | .hrAckNoData => 0x12
  | .hrNoHandler => 0x13
  | .hrStdRefused => 0x14
  | .hrUnsupported => 0x15

/-- CancelTransfer (R120). -/
def cancelTransfer (s : State) : State :=
  { s with
    controlState := .idle
    pending := .none
    completion := none
    pendingAddress := none
    dataCursor := 0
    transferredCount := 0
    totalLen := 0 }

/-- StallControl (R141): stall OUT, stall IN, annotate, cancel. `halted` is not written (R310). -/
def stallControl (e : ErrCode) (s : State) : State :=
  cancelTransfer (((s.emit (.stallEndpoint ep0Out)).emit (.stallEndpoint ep0In)).emit (.note (errNumber e)))

/-- The recovery path (R303): the one operation by which a raise ends the event being processed. -/
def recover (e : ErrCode) (s : State) : State := stallControl e s

/-- The end of an event or of a retry (R303): a raise is recovered and the caller goes on; a refusal is not. -/
def caught (x : Flow State) : Flow State :=
  match x with
  | .ok s => .ok s
  | .raised e s => .ok (recover e s)
  | .refused r s => .refused r s

/-- The end of a whole step: every ending is a next state; a refusal is the state with its mark (R312). -/
def finish (x : Flow State) : Host.Outcome State Fault Refusal :=
  match x with
  | .ok s => .next s
  | .raised e s => .next (recover e s)
  | .refused r s => .next (s.refuse r)

/-! ## The data buffer -/

/-- What an unlisted byte of the data buffer reads as. DESIGN CHOICE (log 6): the spec leaves it unspecified (U1). -/
def fillByte : Byte := 0

/-- One byte of the buffer. -/
def memGet : List Host.Cell → Nat → Byte
  | [], _ => fillByte
  | (k, v) :: rest, a => if k = a then v else memGet rest a

/-- Write one byte, keeping the canonical form. -/
def memPut : List Host.Cell → Nat → Byte → List Host.Cell
  | [], a, b => if b = fillByte then [] else [(a, b)]
  | (k, v) :: rest, a, b =>
    if a < k then
      if b = fillByte then (k, v) :: rest else (a, b) :: (k, v) :: rest
    else if a = k then
      if b = fillByte then rest else (a, b) :: rest
    else (k, v) :: memPut rest a b

/-- `n` bytes from `a` on. -/
def memGetAll (m : List Host.Cell) (a : Nat) : Nat → List Byte
  | 0 => []
  | n + 1 => memGet m a :: memGetAll m (a + 1) n

/-- Write a byte sequence from `a` on. -/
def memPutAll (m : List Host.Cell) (a : Nat) : List Byte → List Host.Cell
  | [] => m
  | b :: bs => memPutAll (memPut m a b) (a + 1) bs

/-- Offsets strictly rising from `lo` on, no entry equal to the fill byte. -/
def memWfFrom : Nat → List Host.Cell → Bool
  | _, [] => true
  | lo, (k, v) :: rest => decide (lo ≤ k) && (decide (v ≠ fillByte) && memWfFrom (k + 1) rest)

/-- The canonical form of the data buffer: equal buffers are equal lists. -/
def memWf (m : List Host.Cell) : Bool := memWfFrom 0 m

/-- `MemRead(addr, n)` (20_memory.md R61); outside the buffer it refuses BUFFER_BOUNDS. -/
def bufRead (addr n : Nat) (s : State) : Flow (List Byte) :=
  if addr + n ≤ s.maxDataSize.toNat then .ok (memGetAll s.dataBuffer addr n) else .refused .bufferBounds s

/-- `MemWrite(addr, len(bs), bs)` (R62); outside the buffer it refuses BUFFER_BOUNDS (R313). -/
def bufWrite (addr : Nat) (bs : List Byte) (s : State) : Flow State :=
  if addr + bs.length ≤ s.maxDataSize.toNat then .ok { s with dataBuffer := memPutAll s.dataBuffer addr bs }
  else .refused .bufferBounds s

/-! ## Draws of free inputs -/

/-- The next callback answer (R264 `draw()`): the next scripted one, else a free value (log 5). -/
def drawAnswer (s : State) : HandlerAnswer × State :=
  match s.env.answers with
  | a :: rest => (a, { s with env := { s.env with answers := rest } })
  | [] => (Config.freeAnswer s.env.draws, { s with env := { s.env with draws := s.env.draws + 1 } })

/-- The `bytesWritten` of an EP_WRITE (R249). -/
def drawWritten (s : State) : Word × State :=
  match s.env.writeResults with
  | w :: rest => (w, { s with env := { s.env with writeResults := rest } })
  | [] => (Config.freeWritten s.env.draws, { s with env := { s.env with draws := s.env.draws + 1 } })

/-- The bytes an EP_READ returns (R250). -/
def drawRead (s : State) : List Byte × State :=
  match s.env.readResults with
  | bs :: rest => (bs, { s with env := { s.env with readResults := rest } })
  | [] => (Config.freeRead s.env.draws, { s with env := { s.env with draws := s.env.draws + 1 } })

/-- The capabilities GET_INFO returns (R255). -/
def drawInfo (s : State) : Nat × State :=
  match s.env.infoResults with
  | c :: rest => (c, { s with env := { s.env with infoResults := rest } })
  | [] => (Config.freeInfo s.env.draws, { s with env := { s.env with draws := s.env.draws + 1 } })

/-! ## Bus reset -/

/-- BusReset (R214): the transfer and device state, every halt, then EP0 re-armed. Sizes, buffer, `setup`, registry and
`initialised` are kept. -/
def busReset (s : State) : State :=
  State.emit
    { s with
      controlState := .idle
      deviceState := .default
      activeConfig := 0
      pending := .none
      pendingAddress := none
      completion := none
      dataCursor := 0
      transferredCount := 0
      totalLen := 0
      halted := Vector.replicate 32 false }
    (.configureEndpoint ep0Out .control s.ep0PacketSize)

end Sys2Proof.Machine
end

