-- ==== Sys2Proof/Machine/Operands.lean ====
section
/-! DEFINITION. The operand forms: the bounds a state sets on its inputs, the subfields of the SETUP register (30_encoding.md
R81 to R86), the halt bit and the callback slots an operand names, and the trace codes of the enumerations (R87 to R90). -/

namespace Sys2Proof.Machine

/-- The bounds on inputs in a state (R94, R95). -/
def State.limits (s : State) : Limits := { numEp := s.cfg.numEp, ep0Size := s.ep0PacketSize.toNat }

/-! ## Subfields of the request -/

/-- `requestType[7]` (R81). -/
def reqDir (r : ControlRequest) : Dir := dirOfBit (r.requestType.getLsbD 7)

/-- `requestType[6:5]` (R82): 0 Standard, 1 Class, 2 Vendor, 3 Reserved. -/
def reqType (r : ControlRequest) : BitVec 2 := r.requestType.extractLsb' 5 2

/-- `requestType[4:0]` (R83): 0 Device, 1 Interface, 2 Endpoint, 3 Other, the rest reserved. -/
def reqRecipient (r : ControlRequest) : BitVec 5 := r.requestType.extractLsb' 0 5

/-- Recipient Device (R83). -/
def rcptDevice : BitVec 5 := 0

/-- Recipient Interface (R83). -/
def rcptInterface : BitVec 5 := 1

/-- Recipient Endpoint (R83). -/
def rcptEndpoint : BitVec 5 := 2

/-- Feature selector ENDPOINT_HALT (R86). -/
def endpointHalt : Half := 0

/-- The endpoint a request names, `index[7:0]` (R85), if it is a valid endpoint address (`validEp`, R94). -/
def reqEndpoint (s : State) (r : ControlRequest) : Option EpAddr :=
  match decodeEp (lowByte r.index) with
  | none => none
  | some ep => if ep.valid s.limits then some ep else none

/-! ## Halt bits -/

/-- The entry of an endpoint address in `halted` (R35). -/
def haltIndex (ep : EpAddr) : Fin 32 :=
  ⟨(if ep.dir = .inn then 16 else 0) + ep.num.toNat, by have := ep.num.isLt; split <;> omega⟩

/-- `halted[ep]` (R35). -/
def State.halt (s : State) (ep : EpAddr) : Bool := s.halted.get (haltIndex ep)

/-- `halted[ep] <- b` (R35). -/
def State.setHalt (s : State) (ep : EpAddr) (b : Bool) : State :=
  { s with halted := s.halted.set (haltIndex ep).val b (haltIndex ep).isLt }

/-! ## Callback slots -/

/-- The entry of an endpoint number in `epHandler` (R37). -/
def epSlot (n : BitVec 4) : Fin 16 := ⟨n.toNat, n.isLt⟩

/-- `epHandler[n]` (R37). -/
def State.epCb (s : State) (n : BitVec 4) : Option HandlerId := s.epHandler.get (epSlot n)

/-- `epHandler[n] <- h` (R245). -/
def State.setEpCb (s : State) (n : BitVec 4) (h : Option HandlerId) : State :=
  { s with epHandler := s.epHandler.set (epSlot n).val h (epSlot n).isLt }

/-- `evtHandler[e]` (R38). -/
def State.evtCb (s : State) (e : DeviceEvent) : Option HandlerId :=
  match e with
  | .reset => s.evtHandler.reset
  | .suspend => s.evtHandler.suspend
  | .resume => s.evtHandler.resume

/-- `evtHandler[e] <- h` (R246). -/
def State.setEvtCb (s : State) (e : DeviceEvent) (h : Option HandlerId) : State :=
  match e with
  | .reset => { s with evtHandler := { s.evtHandler with reset := h } }
  | .suspend => { s with evtHandler := { s.evtHandler with suspend := h } }
  | .resume => { s with evtHandler := { s.evtHandler with resume := h } }

/-! ## Trace codes -/

/-- ControlState codes (R87). -/
def controlStateCode : ControlState → BitVec 3
  | .idle => 0
  | .rxData => 1
  | .txData => 2
  | .zeroTxData => 3
  | .lastData => 4
  | .statusIn => 5
  | .statusOut => 6

/-- The ControlState of a code; code 7 represents none (R87). -/
def controlStateOfCode (c : BitVec 3) : Option ControlState :=
  match c.toNat with
  | 0 => some .idle
  | 1 => some .rxData
  | 2 => some .txData
  | 3 => some .zeroTxData
  | 4 => some .lastData
  | 5 => some .statusIn
  | 6 => some .statusOut
  | _ => none

/-- MachineState codes (R88). -/
def machineStateCode : MachineState → BitVec 2
  | .default => 0
  | .addressed => 1
  | .configured => 2

/-- The MachineState of a code; code 3 represents none (R88). -/
def machineStateOfCode (c : BitVec 2) : Option MachineState :=
  match c.toNat with
  | 0 => some .default
  | 1 => some .addressed
  | 2 => some .configured
  | _ => none

/-- Respond codes (R89). -/
def respondCode : Respond → BitVec 2
  | .fail => 0
  | .ack => 1
  | .nak => 2

/-- The Respond of a code; code 3 represents none (R89). -/
def respondOfCode (c : BitVec 2) : Option Respond :=
  match c.toNat with
  | 0 => some .fail
  | 1 => some .ack
  | 2 => some .nak
  | _ => none

/-- PendingState codes (R90). -/
def pendingStateCode : PendingState → BitVec 2
  | .none => 0
  | .fresh => 1
  | .armed => 2

/-- The PendingState of a code (R90). -/
def pendingStateOfCode (c : BitVec 2) : Option PendingState :=
  match c.toNat with
  | 0 => some .none
  | 1 => some .fresh
  | 2 => some .armed
  | _ => none

end Sys2Proof.Machine
end

