-- ==== Sys2Proof/Machine/Flags.lean ====
section
/-! DEFINITION. The condition codes of the block (10_state.md R44): it has no arithmetic flags; these predicates and the choices
made from them select every transition. -/

namespace Sys2Proof.Machine

/-- `isIN` (R44): the request's data go device-to-host. -/
def isIn (r : ControlRequest) : Bool := decide (reqDir r = .inn)

/-- `hasData` (R44): the request has a data stage. -/
def hasData (r : ControlRequest) : Bool := decide (0 < r.length.toNat)

/-- An OUT request with a data stage (R121, R124). -/
def hasOutData (r : ControlRequest) : Bool := !isIn r && hasData r

/-- An IN request with a data stage (R124, R127). -/
def hasInData (r : ControlRequest) : Bool := isIn r && hasData r

/-- The size of the next IN packet (R130). -/
def nextPacket (s : State) : Nat := min (s.totalLen.toNat - s.transferredCount.toNat) s.ep0PacketSize.toNat

/-- Choice of the IN data state (R129): a response shorter than the host asked for may need a ZLP. -/
def inDataState (responseLen requested : Nat) : ControlState :=
  if responseLen < requested then .zeroTxData else .txData

/-- The state after an IN packet of `n` bytes when `sent` bytes have gone (R130). -/
def afterPacket (c : ControlState) (n sent total packetSize : Nat) : ControlState :=
  if sent = total ∧ (c = .txData ∨ n ≠ packetSize) then .lastData else c

/-- The legal EP0 packet sizes (R240). -/
def ep0SizeLegal (n : Half) : Bool := [8#16, 16#16, 32#16, 64#16].contains n

end Sys2Proof.Machine
end

