-- ==== Sys2Proof/Machine/Application.lean ====
section
/-! DEFINITION. The application commands (43_public_api.md): the admission check R256 and every command but POLL (R240 to R255).
Each command has a body, which a callback's nested call runs too (R264), and a meaning: admission, then the body. -/

namespace Sys2Proof.Machine

/-! ## Admission -/

/-- The checks of R256 made before the word is decoded: NOT_INITIALISED for any command but INIT, REENTRANT for INIT and POLL in
a callback. The command a word names is its class and code (log 9). -/
def earlyRefusal (w : Half) (s : State) : Option RefuseReason :=
  let cls := wordClass w
  let code := wordCode w
  if s.initialised = false ∧ ¬ (cls = 1 ∧ code = 0) then some .notInitialised
  else if s.ctx = .inCallback ∧ cls = 1 ∧ (code = 0 ∨ code = 1) then some .reentrant
  else none

/-- The endpoint of the endpoint commands (R256). -/
def commandEndpoint : Instr → Option EpAddr
  | .epConfig ep _ _ | .epDeconfig ep | .epWrite ep _ | .epRead ep | .epStall ep | .epUnstall ep => some ep
  | .evtReset | .evtSuspend | .evtResume | .evtSetup _ | .evtEp0Rx _ | .evtEpnRx _ | .evtEp0Tx | .evtEpnTx _ => none
  | .init _ _ | .poll _ | .regControl _ | .regConfig _ | .regDescriptor _ | .regEndpoint _ _ | .regEvent _ _ => none
  | .enable _ | .connect _ | .getInfo => none
  | .getStatus _ _ | .clearFeature _ _ | .setFeature _ _ | .setAddress _ _ | .getDescriptor _ _ | .setDescriptor _ _ => none
  | .getConfiguration _ _ | .setConfiguration _ _ | .getInterface _ _ | .setInterface _ _ => none
  | .stdOther _ _ _ | .classRequest _ _ _ | .vendorRequest _ _ _ | .reservedType _ _ _ => none

/-- The direction an endpoint command needs, for the two that need one (R256): EP_WRITE an IN address, EP_READ an OUT one. -/
def neededDir : Instr → Option Dir
  | .epWrite _ _ => some .inn
  | .epRead _ => some .out
  | .epConfig _ _ _ | .epDeconfig _ | .epStall _ | .epUnstall _ => none
  | .evtReset | .evtSuspend | .evtResume | .evtSetup _ | .evtEp0Rx _ | .evtEpnRx _ | .evtEp0Tx | .evtEpnTx _ => none
  | .init _ _ | .poll _ | .regControl _ | .regConfig _ | .regDescriptor _ | .regEndpoint _ _ | .regEvent _ _ => none
  | .enable _ | .connect _ | .getInfo => none
  | .getStatus _ _ | .clearFeature _ _ | .setFeature _ _ | .setAddress _ _ | .getDescriptor _ _ | .setDescriptor _ _ => none
  | .getConfiguration _ _ | .setConfiguration _ _ | .getInterface _ _ | .setInterface _ _ => none
  | .stdOther _ _ _ | .classRequest _ _ _ | .vendorRequest _ _ _ | .reservedType _ _ _ => none

/-- The last checks of R256: EP0_RESERVED, then DIRECTION. -/
def endpointRefusal (i : Instr) : Option RefuseReason :=
  match commandEndpoint i with
  | none => none
  | some ep =>
    if ep.num = 0 then some .ep0Reserved
    else if neededDir i = some .out ∧ ep.dir = .inn ∨ neededDir i = some .inn ∧ ep.dir = .out then some .direction
    else none

/-- The admission check (R256), in its order; the refused mark is checked before it. -/
def admission (i : Instr) (s : State) : Option RefuseReason :=
  match earlyRefusal (encodeWord i) s with
  | some r => some r
  | none => if i.wf s.limits then endpointRefusal i else some .reservedInput

/-- A command at top level: no step once refused (R312), admission (R256), then the command's body. -/
def runCommand (i : Instr) (body : State → Flow State) (s : State) : Host.Outcome State Fault Refusal :=
  if s.refused then .fault .stuck
  else
    match admission i s with
    | some r => .next (s.refuse r)
    | none => finish (body s)

/-! ## Bodies -/

/-- INIT (R240, R46, R341): the arguments into the sizes, every other field to its INIT value. The data buffer is the caller's
new one, of which nothing is written yet (log 6); `setup` is unspecified, a free value (log 7). -/
def bodyInit (cap : Word) (ep0 : Half) (s : State) : Flow State :=
  if ep0SizeLegal ep0 then
    .ok
      { s with
        controlState := .idle
        deviceState := .default
        activeConfig := 0
        ep0PacketSize := ep0
        maxDataSize := cap
        dataBuffer := []
        dataCursor := 0
        transferredCount := 0
        totalLen := 0
        setup := Config.freeSetup s.env.draws
        pending := .none
        pendingAddress := none
        completion := none
        halted := Vector.replicate 32 false
        controlCb := none
        configCb := none
        descriptorCb := none
        epHandler := Vector.replicate 16 none
        evtHandler := { reset := none, suspend := none, resume := none }
        initialised := true
        ctx := .normal
        env := { s.env with draws := s.env.draws + 1 } }
  else .refused .badArgument s

/-- REG_CONTROL (R242). -/
def bodyRegControl (h : Option HandlerId) (s : State) : Flow State := .ok { s with controlCb := h }

/-- REG_CONFIG (R243). -/
def bodyRegConfig (h : Option HandlerId) (s : State) : Flow State := .ok { s with configCb := h }

/-- REG_DESCRIPTOR (R244). -/
def bodyRegDescriptor (h : Option HandlerId) (s : State) : Flow State := .ok { s with descriptorCb := h }

/-- REG_ENDPOINT (R245). -/
def bodyRegEndpoint (n : BitVec 4) (h : Option HandlerId) (s : State) : Flow State := .ok (s.setEpCb n h)

/-- REG_EVENT (R246). -/
def bodyRegEvent (e : DeviceEvent) (h : Option HandlerId) (s : State) : Flow State := .ok (s.setEvtCb e h)

/-- EP_CONFIG (R247): passed through unchecked. -/
def bodyEpConfig (ep : EpAddr) (ty : EpType) (mps : Half) (s : State) : Flow State :=
  .ok (s.emit (.configureEndpoint ep ty mps))

/-- EP_DECONFIG (R248): `halted[ep]` is kept. -/
def bodyEpDeconfig (ep : EpAddr) (s : State) : Flow State := .ok (s.emit (.deconfigureEndpoint ep))

/-- EP_WRITE (R249): the result is the HAL's and is returned. -/
def bodyEpWrite (ep : EpAddr) (bytes : List Byte) (s : State) : Flow State :=
  let d := drawWritten s
  .ok { (d.2.emit (.writeEndpoint ep bytes (some d.1))) with returned := .written d.1 }

/-- EP_READ (R250): the bytes are the HAL's and are returned. -/
def bodyEpRead (ep : EpAddr) (s : State) : Flow State :=
  let d := drawRead s
  .ok { (d.2.emit (.readEndpoint ep d.1)) with returned := .bytes d.1 }

/-- EP_STALL (R251). -/
def bodyEpStall (ep : EpAddr) (s : State) : Flow State := .ok ((s.emit (.stallEndpoint ep)).setHalt ep true)

/-- EP_UNSTALL (R252). -/
def bodyEpUnstall (ep : EpAddr) (s : State) : Flow State := .ok ((s.emit (.unstallEndpoint ep)).setHalt ep false)

/-- ENABLE (R253). -/
def bodyEnable (b : Bool) (s : State) : Flow State := .ok (s.emit (.enable b))

/-- CONNECT (R254). -/
def bodyConnect (b : Bool) (s : State) : Flow State := .ok (s.emit (.connect b))

/-- GET_INFO (R255). -/
def bodyGetInfo (s : State) : Flow State :=
  let d := drawInfo s
  .ok { (d.2.emit (.getInfo d.1)) with returned := .caps d.1 }

/-! ## Meanings -/

/-- INIT. -/
def execInit (cap : Word) (ep0 : Half) (s : State) : Host.Outcome State Fault Refusal :=
  runCommand (.init cap ep0) (bodyInit cap ep0) s

/-- REG_CONTROL. -/
def execRegControl (h : Option HandlerId) (s : State) : Host.Outcome State Fault Refusal :=
  runCommand (.regControl h) (bodyRegControl h) s

/-- REG_CONFIG. -/
def execRegConfig (h : Option HandlerId) (s : State) : Host.Outcome State Fault Refusal :=
  runCommand (.regConfig h) (bodyRegConfig h) s

/-- REG_DESCRIPTOR. -/
def execRegDescriptor (h : Option HandlerId) (s : State) : Host.Outcome State Fault Refusal :=
  runCommand (.regDescriptor h) (bodyRegDescriptor h) s

/-- REG_ENDPOINT. -/
def execRegEndpoint (n : BitVec 4) (h : Option HandlerId) (s : State) : Host.Outcome State Fault Refusal :=
  runCommand (.regEndpoint n h) (bodyRegEndpoint n h) s

/-- REG_EVENT. -/
def execRegEvent (e : DeviceEvent) (h : Option HandlerId) (s : State) : Host.Outcome State Fault Refusal :=
  runCommand (.regEvent e h) (bodyRegEvent e h) s

/-- EP_CONFIG. -/
def execEpConfig (ep : EpAddr) (ty : EpType) (mps : Half) (s : State) : Host.Outcome State Fault Refusal :=
  runCommand (.epConfig ep ty mps) (bodyEpConfig ep ty mps) s

/-- EP_DECONFIG. -/
def execEpDeconfig (ep : EpAddr) (s : State) : Host.Outcome State Fault Refusal :=
  runCommand (.epDeconfig ep) (bodyEpDeconfig ep) s

/-- EP_WRITE. -/
def execEpWrite (ep : EpAddr) (bytes : List Byte) (s : State) : Host.Outcome State Fault Refusal :=
  runCommand (.epWrite ep bytes) (bodyEpWrite ep bytes) s

/-- EP_READ. -/
def execEpRead (ep : EpAddr) (s : State) : Host.Outcome State Fault Refusal :=
  runCommand (.epRead ep) (bodyEpRead ep) s

/-- EP_STALL. -/
def execEpStall (ep : EpAddr) (s : State) : Host.Outcome State Fault Refusal :=
  runCommand (.epStall ep) (bodyEpStall ep) s

/-- EP_UNSTALL. -/
def execEpUnstall (ep : EpAddr) (s : State) : Host.Outcome State Fault Refusal :=
  runCommand (.epUnstall ep) (bodyEpUnstall ep) s

/-- ENABLE. -/
def execEnable (b : Bool) (s : State) : Host.Outcome State Fault Refusal :=
  runCommand (.enable b) (bodyEnable b) s

/-- CONNECT. -/
def execConnect (b : Bool) (s : State) : Host.Outcome State Fault Refusal :=
  runCommand (.connect b) (bodyConnect b) s

/-- GET_INFO. -/
def execGetInfo (s : State) : Host.Outcome State Fault Refusal :=
  runCommand .getInfo bodyGetInfo s

end Sys2Proof.Machine
end

