-- ==== Sys2Proof/Machine/Callback.lean ====
section
/-! DEFINITION. Callbacks (43_public_api.md R263 to R266): the commands a callback issues before it returns, `ask`, and
notifications. A nested command passes the same admission check as any other (R264); INIT and POLL are refused (R265). -/

namespace Sys2Proof.Machine

/-- The body of a nested command. INIT and POLL are REENTRANT (R265); an event or a request is no command, RESERVED_INPUT. -/
def nestedBody (i : Instr) (s : State) : Flow State :=
  match i with
  | .regControl h => bodyRegControl h s
  | .regConfig h => bodyRegConfig h s
  | .regDescriptor h => bodyRegDescriptor h s
  | .regEndpoint n h => bodyRegEndpoint n h s
  | .regEvent e h => bodyRegEvent e h s
  | .epConfig ep ty mps => bodyEpConfig ep ty mps s
  | .epDeconfig ep => bodyEpDeconfig ep s
  | .epWrite ep bytes => bodyEpWrite ep bytes s
  | .epRead ep => bodyEpRead ep s
  | .epStall ep => bodyEpStall ep s
  | .epUnstall ep => bodyEpUnstall ep s
  | .enable b => bodyEnable b s
  | .connect b => bodyConnect b s
  | .getInfo => bodyGetInfo s
  | .init _ _ | .poll _ => .refused .reentrant s
  | .evtReset | .evtSuspend | .evtResume | .evtSetup _ | .evtEp0Rx _ | .evtEpnRx _ | .evtEp0Tx | .evtEpnTx _ =>
    .refused .reservedInput s
  | .getStatus _ _ | .clearFeature _ _ | .setFeature _ _ | .setAddress _ _ | .getDescriptor _ _ | .setDescriptor _ _ =>
    .refused .reservedInput s
  | .getConfiguration _ _ | .setConfiguration _ _ | .getInterface _ _ | .setInterface _ _ => .refused .reservedInput s
  | .stdOther _ _ _ | .classRequest _ _ _ | .vendorRequest _ _ _ | .reservedType _ _ _ => .refused .reservedInput s

/-- One command of a callback's answer (R264): admission (R256), then its body. A refusal ends everything (R312). -/
def runCall (c : Input) (s : State) : Flow State :=
  match earlyRefusal c.word s with
  | some r => .refused r s
  | none =>
    match decodeCommand s.limits c.word c.beside with
    | .error _ => .refused .reservedInput s
    | .ok i =>
      match admission i s with
      | some r => .refused r s
      | none => nestedBody i s

/-- The commands of an answer, in order (R264). -/
def runCalls : List Input → State → Flow State
  | [], s => .ok s
  | c :: cs, s => (runCall c s).bind (runCalls cs)

/-- `ask(slot, args)` (R264): trace the call, draw the answer, run its commands in the context InCallback, restore the context. -/
def ask (c : Call) (s : State) : Flow (HandlerAnswer × State) :=
  let d := drawAnswer (s.emit (.call c))
  (runCalls d.1.calls (d.2.setCtx .inCallback)).bind fun t => .ok (d.1, t.setCtx s.ctx)

/-- A notification (R266): only the nested commands of the answer have an effect. -/
def notify (c : Call) (s : State) : Flow State := (ask c s).bind fun r => .ok r.2

end Sys2Proof.Machine
end

