-- ==== Sys2Proof/Machine/Request.lean ====
section
/-! DEFINITION. The Request Dispatcher (41_request_dispatcher.md): the Outcome of a request (R171) and one rule per request row
of the table (R173 to R186). A rule reads the in-flight request, the OUT data and the state; the Control Transfer Engine
applies its Outcome. The direction bit is never compared (R187). -/

namespace Sys2Proof.Machine

/-- Outcome (R171). -/
inductive ReqOutcome where
  | fail (e : ErrCode)
  | nak
  | ack (data : Option (List Byte)) (completion : Option Token)
deriving DecidableEq, Repr

/-- A request rule: request, OUT data, state to Outcome and state. -/
abbrev Rule := ControlRequest → List Byte → State → Flow (ReqOutcome × State)

/-- A rule that answers without a callback. -/
def answered (o : ReqOutcome) (s : State) : Flow (ReqOutcome × State) := .ok (o, s)

/-- A callback's answer as an Outcome (R171). -/
def normalise (a : HandlerAnswer) : ReqOutcome :=
  match a.respond with
  | .fail => .fail .hrHandlerFail
  | .nak => .nak
  | .ack => .ack a.data a.completion

/-- AskSlot (R172): an empty slot fails HR_NO_HANDLER. -/
def askSlot (slot : Option HandlerId) (mk : HandlerId → Call) (s : State) : Flow (ReqOutcome × State) :=
  match slot with
  | none => answered (.fail .hrNoHandler) s
  | some h => (ask (mk h) s).bind fun r => .ok (normalise r.1, r.2)

/-- AskSlot of the control callback: every Class and Vendor request (R173). -/
def askControl : Rule := fun req outData s => askSlot s.controlCb (fun h => .control h req outData) s

/-- The two GET_STATUS bytes of a recipient, or none where the request is refused (R176). -/
def statusBytes (req : ControlRequest) (s : State) : Option (List Byte) :=
  if reqRecipient req = rcptDevice then some [lowByte s.cfg.deviceStatus, highByte s.cfg.deviceStatus]
  else if reqRecipient req = rcptInterface then some [0x00, 0x00]
  else if reqRecipient req = rcptEndpoint then
    match reqEndpoint s req with
    | none => none
    | some ep => some [if ep.num ≠ 0 ∧ s.halt ep = true then 0x01 else 0x00, 0x00]
  else none

/-- GET_STATUS (R176). -/
def ruleGetStatus : Rule := fun req _ s =>
  match statusBytes req s with
  | none => answered (.fail .hrStdRefused) s
  | some bs => answered (.ack (some bs) none) s

/-- The endpoint a feature request acts on: recipient Endpoint, ENDPOINT_HALT, a valid address not numbered 0 (R177, R178). -/
def featureEndpoint (req : ControlRequest) (s : State) : Option EpAddr :=
  if reqRecipient req ≠ rcptEndpoint ∨ req.value ≠ endpointHalt then none
  else
    match reqEndpoint s req with
    | none => none
    | some ep => if ep.num = 0 then none else some ep

/-- CLEAR_FEATURE (R177): the HAL action happens at dispatch. -/
def ruleClearFeature : Rule := fun req _ s =>
  match featureEndpoint req s with
  | none => answered (.fail .hrStdRefused) s
  | some ep => answered (.ack none none) ((s.emit (.unstallEndpoint ep)).setHalt ep false)

/-- SET_FEATURE (R178). -/
def ruleSetFeature : Rule := fun req _ s =>
  match featureEndpoint req s with
  | none => answered (.fail .hrStdRefused) s
  | some ep => answered (.ack none none) ((s.emit (.stallEndpoint ep)).setHalt ep true)

/-- SET_ADDRESS (R179): kept in `pendingAddress` until the status stage completes. -/
def ruleSetAddress : Rule := fun req _ s =>
  if 127 < req.value.toNat then answered (.fail .hrStdRefused) s
  else if s.deviceState = .configured then answered (.fail .hrStdRefused) s
  else answered (.ack none none) { s with pendingAddress := some (req.value.extractLsb' 0 7) }

/-- GET_DESCRIPTOR (R180). -/
def ruleGetDescriptor : Rule := fun req _ s => askSlot s.descriptorCb (fun h => .descriptor h req []) s

/-- SET_DESCRIPTOR (R181). -/
def ruleSetDescriptor : Rule := fun req outData s => askSlot s.descriptorCb (fun h => .descriptor h req outData) s

/-- GET_CONFIGURATION (R182). -/
def ruleGetConfiguration : Rule := fun _ _ s => answered (.ack (some [s.activeConfig]) none) s

/-- What an accepted SET_CONFIGURATION writes (R183). -/
def configure (cfg : Byte) (s : State) : State :=
  { s with
    activeConfig := cfg
    deviceState := if cfg = 0 then (if s.deviceState = .default then .default else .addressed) else .configured }

/-- SET_CONFIGURATION (R183). -/
def ruleSetConfiguration : Rule := fun req _ s =>
  if 255 < req.value.toNat then answered (.fail .hrStdRefused) s
  else if s.deviceState = .default ∧ lowByte req.value ≠ 0 then answered (.fail .hrStdRefused) s
  else
    match s.configCb with
    | none => answered (.fail .hrNoHandler) s
    | some h =>
      (ask (.config h (lowByte req.value)) s).bind fun r =>
        match r.1.respond with
        | .fail => answered (.fail .hrHandlerFail) r.2
        | .nak => answered .nak r.2
        | .ack => answered (.ack none none) (configure (lowByte req.value) r.2)

/-- GET_INTERFACE (R184). -/
def ruleGetInterface : Rule := fun _ _ s => answered (.ack (some [0x00]) none) s

/-- SET_INTERFACE (R185). -/
def ruleSetInterface : Rule := fun req _ s =>
  if req.value = 0 then answered (.ack none none) s else answered (.fail .hrStdRefused) s

/-- Every other standard code (R186). -/
def ruleStdOther : Rule := fun _ _ s => answered (.fail .hrUnsupported) s

/-- Class requests (R173). -/
def ruleClass : Rule := askControl

/-- Vendor requests (R173). -/
def ruleVendor : Rule := askControl

/-- The reserved type (R174). -/
def ruleReservedType : Rule := fun _ _ s => answered (.fail .hrUnsupported) s

/-- The rule a request row selects (R102, R170). A row that is no request has none; `decodeKey` never answers one. -/
def ruleOf (i : Instr) : Rule :=
  match i with
  | .getStatus _ _ => ruleGetStatus
  | .clearFeature _ _ => ruleClearFeature
  | .setFeature _ _ => ruleSetFeature
  | .setAddress _ _ => ruleSetAddress
  | .getDescriptor _ _ => ruleGetDescriptor
  | .setDescriptor _ _ => ruleSetDescriptor
  | .getConfiguration _ _ => ruleGetConfiguration
  | .setConfiguration _ _ => ruleSetConfiguration
  | .getInterface _ _ => ruleGetInterface
  | .setInterface _ _ => ruleSetInterface
  | .stdOther _ _ _ => ruleStdOther
  | .classRequest _ _ _ => ruleClass
  | .vendorRequest _ _ _ => ruleVendor
  | .reservedType _ _ _ => ruleReservedType
  | .evtReset | .evtSuspend | .evtResume | .evtSetup _ | .evtEp0Rx _ | .evtEpnRx _ | .evtEp0Tx | .evtEpnTx _ =>
    ruleReservedType
  | .init _ _ | .poll _ | .regControl _ | .regConfig _ | .regDescriptor _ | .regEndpoint _ _ | .regEvent _ _ =>
    ruleReservedType
  | .epConfig _ _ _ | .epDeconfig _ | .epWrite _ _ | .epRead _ | .epStall _ | .epUnstall _ => ruleReservedType
  | .enable _ | .connect _ | .getInfo => ruleReservedType

end Sys2Proof.Machine
end

