-- ==== Sys2Proof/Machine/Control.lean ====
section
/-! DEFINITION. The Control Transfer Engine (40_control_engine.md): Dispatch and its outcomes (R124 to R128), SendNext (R130),
CompleteTransfer (R140), the three EP0 events (R121 to R139), and the meanings of the request rows and of the EP0 events. -/

namespace Sys2Proof.Machine

/-! ## Shared procedures -/

/-- A packet the block writes to EP0 IN (R128, R130). -/
def State.writeEp0 (s : State) (bytes : List Byte) : State := s.emit (.writeEndpoint ep0In bytes none)

/-- SendNext (R130). -/
def sendNext (s : State) : Flow State :=
  let n := nextPacket s
  (bufRead s.dataCursor.toNat n s).bind fun bytes =>
    .ok
      { (s.writeEp0 bytes) with
        dataCursor := u32 (s.dataCursor.toNat + n)
        transferredCount := u32 (s.transferredCount.toNat + n)
        controlState :=
          afterPacket s.controlState n (s.transferredCount.toNat + n) s.totalLen.toNat s.ep0PacketSize.toNat }

/-- Outcome ACK of an IN request with data (R127): HR_ACK_NO_DATA, then PV_IN_OVERFLOW, then the first packet. -/
def ackIn (req : ControlRequest) (data : Option (List Byte)) (completion : Option Token) (s : State) : Flow State :=
  match data with
  | none => .raised .hrAckNoData s
  | some d =>
    let t := min d.length req.length.toNat
    if s.maxDataSize.toNat < t then .raised .pvInOverflow s
    else
      (bufWrite 0 (d.take t) { s with pending := .none, completion := completion }).bind fun s1 =>
        sendNext
          { s1 with
            totalLen := u32 t
            dataCursor := 0
            transferredCount := 0
            controlState := inDataState d.length req.length.toNat }

/-- Outcome ACK of any other request (R128): the status-stage ZLP. -/
def ackStatus (completion : Option Token) (s : State) : Flow State :=
  .ok { (State.writeEp0 { s with pending := .none, completion := completion } []) with controlState := .statusIn }

/-- Apply an Outcome (R124 to R128). -/
def applyOutcome (req : ControlRequest) (o : ReqOutcome) (s : State) : Flow State :=
  match o with
  | .fail e => .raised e s
  | .nak => .ok { s with pending := .fresh }
  | .ack data completion => if hasInData req then ackIn req data completion s else ackStatus completion s

/-- Dispatch with a request and the rule it selects (R124): the OUT data is read from the buffer for an OUT request. -/
def dispatchWith (req : ControlRequest) (rule : Rule) (s : State) : Flow State :=
  (if hasOutData req then bufRead 0 req.length.toNat s else .ok []).bind fun outData =>
    (rule req outData s).bind fun r => applyOutcome req r.1 r.2

/-- `Dispatch()` (R124, R170): the in-flight request by its key. -/
def dispatch (s : State) : Flow State := dispatchWith s.setup (ruleOf (decodeKey (requestKey s.setup))) s

/-- Apply the deferred device address (R140): the HAL's, then the device state. -/
def applyAddress (s : State) : State :=
  match s.pendingAddress with
  | none => s
  | some a =>
    { (s.emit (.setAddress a)) with
      deviceState := if a ≠ 0 then .addressed else .default
      pendingAddress := none }

/-- CompleteTransfer (R140): the deferred address, then the completion callback. -/
def completeTransfer (s : State) : Flow State :=
  let s1 := applyAddress s
  match s1.completion with
  | none => .ok s1
  | some tok => notify (.complete tok s1.setup) { s1 with completion := none }

/-! ## EVT_SETUP -/

/-- ParseSetup (R122). -/
def parseInto (p : List Byte) (s : State) : Flow State :=
  match parseSetup p with
  | none => .raised .pvSetupLength s
  | some r => .ok { s with setup := r }

/-- BeginOut (R123). -/
def beginOut (s : State) : Flow State :=
  if s.maxDataSize.toNat < s.setup.length.toNat then .raised .pvOutTooLong s
  else
    .ok { s with totalLen := u32 s.setup.length.toNat, dataCursor := 0, transferredCount := 0, controlState := .rxData }

/-- EVT_SETUP (R121). -/
def bodyEvtSetup (p : List Byte) (s : State) : Flow State :=
  (parseInto p ((cancelTransfer s).emit (.readEndpoint ep0Out p))).bind fun s1 =>
    if hasOutData s1.setup then beginOut s1 else dispatch s1

/-! ## EVT_EP0_RX -/

/-- RX in RxData (R132): overflow, then completion, then short packet. -/
def rxInData (p : List Byte) (s : State) : Flow State :=
  let n := p.length
  if s.totalLen.toNat < s.transferredCount.toNat + n then .raised .pvOutOverflow s
  else
    (bufWrite s.dataCursor.toNat p s).bind fun s1 =>
      let s2 :=
        { s1 with
          dataCursor := u32 (s.dataCursor.toNat + n)
          transferredCount := u32 (s.transferredCount.toNat + n) }
      if s.transferredCount.toNat + n = s.totalLen.toNat then dispatch s2
      else if n < s.ep0PacketSize.toNat then .raised .pvOutShort s2
      else .ok s2

/-- RX in StatusOut (R133). -/
def rxInStatus (p : List Byte) (s : State) : Flow State :=
  if p ≠ [] then .raised .pvStatusNonzero s else completeTransfer { s with controlState := .idle }

/-- EVT_EP0_RX (R131, R134). -/
def bodyEvtEp0Rx (p : List Byte) (s : State) : Flow State :=
  let s1 := s.emit (.readEndpoint ep0Out p)
  if s1.pending ≠ .none then .raised .pvUnexpectedRx s1
  else
    match s1.controlState with
    | .rxData => rxInData p s1
    | .statusOut => rxInStatus p s1
    | .idle | .txData | .zeroTxData | .lastData | .statusIn => .raised .pvUnexpectedRx s1

/-! ## EVT_EP0_TX -/

/-- EVT_EP0_TX (R135 to R139). -/
def bodyEvtEp0Tx (s : State) : Flow State :=
  if s.pending ≠ .none then .raised .pvUnexpectedTx s
  else
    match s.controlState with
    | .txData | .zeroTxData => sendNext s
    | .lastData => .ok { s with controlState := .statusOut }
    | .statusIn => completeTransfer { s with controlState := .idle }
    | .idle | .rxData | .statusOut => .raised .pvUnexpectedTx s

/-! ## Meanings -/

/-- An event by itself: no step once refused (R312), RESERVED_INPUT where it is not legal (R96), else its body; a raise ends
the event in recovery (R303). -/
def runEvent (i : Instr) (body : State → Flow State) (s : State) : Host.Outcome State Fault Refusal :=
  if s.refused then .fault .stuck
  else if i.wf s.limits = false then .next (s.refuse .reservedInput)
  else finish (body s)

/-- A request by itself: no step once refused (R312), else Dispatch of the request whose first two bytes are the row's key and
whose other fields the SETUP register holds (log 12). -/
def runRequest (i : Instr) (s : State) : Host.Outcome State Fault Refusal :=
  if s.refused then .fault .stuck
  else finish (dispatchWith (withKey s.setup (encodeWord i)) (ruleOf i) s)

/-- EVT_SETUP. -/
def execEvtSetup (p : List Byte) (s : State) : Host.Outcome State Fault Refusal :=
  runEvent (.evtSetup p) (bodyEvtSetup p) s

/-- EVT_EP0_RX. -/
def execEvtEp0Rx (p : List Byte) (s : State) : Host.Outcome State Fault Refusal :=
  runEvent (.evtEp0Rx p) (bodyEvtEp0Rx p) s

/-- EVT_EP0_TX. -/
def execEvtEp0Tx (s : State) : Host.Outcome State Fault Refusal :=
  runEvent .evtEp0Tx bodyEvtEp0Tx s

/-- GET_STATUS. -/
def execGetStatus (d : Dir) (r : BitVec 5) (s : State) : Host.Outcome State Fault Refusal := runRequest (.getStatus d r) s

/-- CLEAR_FEATURE. -/
def execClearFeature (d : Dir) (r : BitVec 5) (s : State) : Host.Outcome State Fault Refusal :=
  runRequest (.clearFeature d r) s

/-- SET_FEATURE. -/
def execSetFeature (d : Dir) (r : BitVec 5) (s : State) : Host.Outcome State Fault Refusal := runRequest (.setFeature d r) s

/-- SET_ADDRESS. -/
def execSetAddress (d : Dir) (r : BitVec 5) (s : State) : Host.Outcome State Fault Refusal := runRequest (.setAddress d r) s

/-- GET_DESCRIPTOR. -/
def execGetDescriptor (d : Dir) (r : BitVec 5) (s : State) : Host.Outcome State Fault Refusal :=
  runRequest (.getDescriptor d r) s

/-- SET_DESCRIPTOR. -/
def execSetDescriptor (d : Dir) (r : BitVec 5) (s : State) : Host.Outcome State Fault Refusal :=
  runRequest (.setDescriptor d r) s

/-- GET_CONFIGURATION. -/
def execGetConfiguration (d : Dir) (r : BitVec 5) (s : State) : Host.Outcome State Fault Refusal :=
  runRequest (.getConfiguration d r) s

/-- SET_CONFIGURATION. -/
def execSetConfiguration (d : Dir) (r : BitVec 5) (s : State) : Host.Outcome State Fault Refusal :=
  runRequest (.setConfiguration d r) s

/-- GET_INTERFACE. -/
def execGetInterface (d : Dir) (r : BitVec 5) (s : State) : Host.Outcome State Fault Refusal :=
  runRequest (.getInterface d r) s

/-- SET_INTERFACE. -/
def execSetInterface (d : Dir) (r : BitVec 5) (s : State) : Host.Outcome State Fault Refusal :=
  runRequest (.setInterface d r) s

/-- STD_OTHER. -/
def execStdOther (c : Byte) (d : Dir) (r : BitVec 5) (s : State) : Host.Outcome State Fault Refusal :=
  runRequest (.stdOther c d r) s

/-- CLASS_REQUEST. -/
def execClassRequest (c : Byte) (d : Dir) (r : BitVec 5) (s : State) : Host.Outcome State Fault Refusal :=
  runRequest (.classRequest c d r) s

/-- VENDOR_REQUEST. -/
def execVendorRequest (c : Byte) (d : Dir) (r : BitVec 5) (s : State) : Host.Outcome State Fault Refusal :=
  runRequest (.vendorRequest c d r) s

/-- RESERVED_TYPE. -/
def execReservedType (c : Byte) (d : Dir) (r : BitVec 5) (s : State) : Host.Outcome State Fault Refusal :=
  runRequest (.reservedType c d r) s

end Sys2Proof.Machine
end

