-- ==== Sys2Proof/Machine/Events.lean ====
section
/-! DEFINITION. The Event/Endpoint Dispatcher (42_event_dispatcher.md): device events, endpoint events, Process (R212), the
poll cycle (R210) with its retry (R220), and their meanings. -/

namespace Sys2Proof.Machine

/-! ## Device and endpoint events -/

/-- NotifyEvent (R223). -/
def notifyEvent (e : DeviceEvent) (s : State) : Flow State :=
  match s.evtCb e with
  | none => .ok s
  | some h => notify (.event h e) s

/-- EVT_RESET (R213): the reset, then the callback. -/
def bodyEvtReset (s : State) : Flow State := notifyEvent .reset (busReset s)

/-- EVT_SUSPEND (R215). -/
def bodyEvtSuspend (s : State) : Flow State := notifyEvent .suspend s

/-- EVT_RESUME (R216). -/
def bodyEvtResume (s : State) : Flow State := notifyEvent .resume s

/-- The endpoint callback of a transfer-complete event (R218, R219); without one the event is dropped. -/
def notifyEndpoint (kind : Transfer) (ep : EpAddr) (s : State) : Flow State :=
  match s.epCb ep.num with
  | none => .ok s
  | some h => notify (.endpoint h kind ep) s

/-- EVT_EPN_RX (R218). -/
def bodyEvtEpnRx (n : BitVec 4) (s : State) : Flow State := notifyEndpoint .rx { dir := .out, num := n } s

/-- EVT_EPN_TX (R219). -/
def bodyEvtEpnTx (n : BitVec 4) (s : State) : Flow State := notifyEndpoint .tx { dir := .inn, num := n } s

/-! ## The poll cycle -/

/-- `Process(e)` (R212, R217): the consumer of each event. What is no event is refused RESERVED_INPUT (R210, log 10). -/
def process (i : Instr) (s : State) : Flow State :=
  match i with
  | .evtReset => bodyEvtReset s
  | .evtSuspend => bodyEvtSuspend s
  | .evtResume => bodyEvtResume s
  | .evtSetup p => bodyEvtSetup p s
  | .evtEp0Rx p => bodyEvtEp0Rx p s
  | .evtEpnRx n => bodyEvtEpnRx n s
  | .evtEp0Tx => bodyEvtEp0Tx s
  | .evtEpnTx n => bodyEvtEpnTx n s
  | .init _ _ | .poll _ | .regControl _ | .regConfig _ | .regDescriptor _ | .regEndpoint _ _ | .regEvent _ _ =>
    .refused .reservedInput s
  | .epConfig _ _ _ | .epDeconfig _ | .epWrite _ _ | .epRead _ | .epStall _ | .epUnstall _ => .refused .reservedInput s
  | .enable _ | .connect _ | .getInfo => .refused .reservedInput s
  | .getStatus _ _ | .clearFeature _ _ | .setFeature _ _ | .setAddress _ _ | .getDescriptor _ _ | .setDescriptor _ _ =>
    .refused .reservedInput s
  | .getConfiguration _ _ | .setConfiguration _ _ | .getInterface _ _ | .setInterface _ _ => .refused .reservedInput s
  | .stdOther _ _ _ | .classRequest _ _ _ | .vendorRequest _ _ _ | .reservedType _ _ _ => .refused .reservedInput s

/-- One event of a batch (R210): an illegal one refuses, a raise ends only this event. -/
def takeEvent (e : EventInput) (s : State) : Flow State :=
  match decodeEvent s.limits e.word e.payload with
  | .error _ => .refused .reservedInput s
  | .ok i => caught (process i s)

/-- The batch, in list order (R210, R306). -/
def takeEvents : List EventInput → State → Flow State
  | [], s => .ok s
  | e :: es, s => (takeEvent e s).bind (takeEvents es)

/-- The end of Retry (R220): a Nak given in this cycle is armed for the next. -/
def armPending (s : State) : State := if s.pending = .fresh then { s with pending := .armed } else s

/-- Retry (R220): a pending request is dispatched again, a raise is recovered. -/
def retry (s : State) : Flow State :=
  (if s.pending = .armed then caught (dispatch s) else .ok s).bind fun s1 => .ok (armPending s1)

/-- POLL (R210): the events that wait (R222, log 4) and the batch read now, one at a time; the retry; the count (R221). -/
def bodyPoll (batch : List EventInput) (s : State) : Flow State :=
  let b := s.env.eventQueue ++ batch
  (takeEvents b { s with env := { s.env with eventQueue := [] } }).bind fun s1 =>
    (retry s1).bind fun s2 => .ok { s2 with returned := .events b.length }

/-! ## Meanings -/

/-- EVT_RESET. -/
def execEvtReset (s : State) : Host.Outcome State Fault Refusal := runEvent .evtReset bodyEvtReset s

/-- EVT_SUSPEND. -/
def execEvtSuspend (s : State) : Host.Outcome State Fault Refusal := runEvent .evtSuspend bodyEvtSuspend s

/-- EVT_RESUME. -/
def execEvtResume (s : State) : Host.Outcome State Fault Refusal := runEvent .evtResume bodyEvtResume s

/-- EVT_EPN_RX. -/
def execEvtEpnRx (n : BitVec 4) (s : State) : Host.Outcome State Fault Refusal := runEvent (.evtEpnRx n) (bodyEvtEpnRx n) s

/-- EVT_EPN_TX. -/
def execEvtEpnTx (n : BitVec 4) (s : State) : Host.Outcome State Fault Refusal := runEvent (.evtEpnTx n) (bodyEvtEpnTx n) s

/-- POLL. -/
def execPoll (batch : List EventInput) (s : State) : Host.Outcome State Fault Refusal :=
  runCommand (.poll batch) (bodyPoll batch) s

end Sys2Proof.Machine
end

