-- ==== Sys2Proof/Machine/Dispatch.lean ====
section
/-! DEFINITION. The meaning of every instruction: one arm per constructor of `Instr`, each one direct call. -/

namespace Sys2Proof.Machine

def exec (i : Instr) (s : State) : Host.Outcome State Fault Refusal :=
  match i with
  -- events (42_event_dispatcher.md, 40_control_engine.md)
  | .evtReset => Sys2Proof.Machine.execEvtReset s
  | .evtSuspend => Sys2Proof.Machine.execEvtSuspend s
  | .evtResume => Sys2Proof.Machine.execEvtResume s
  | .evtSetup p => Sys2Proof.Machine.execEvtSetup p s
  | .evtEp0Rx p => Sys2Proof.Machine.execEvtEp0Rx p s
  | .evtEpnRx n => Sys2Proof.Machine.execEvtEpnRx n s
  | .evtEp0Tx => Sys2Proof.Machine.execEvtEp0Tx s
  | .evtEpnTx n => Sys2Proof.Machine.execEvtEpnTx n s
  -- commands (43_public_api.md; POLL 42_event_dispatcher.md)
  | .init cap ep0 => Sys2Proof.Machine.execInit cap ep0 s
  | .poll batch => Sys2Proof.Machine.execPoll batch s
  | .regControl h => Sys2Proof.Machine.execRegControl h s
  | .regConfig h => Sys2Proof.Machine.execRegConfig h s
  | .regDescriptor h => Sys2Proof.Machine.execRegDescriptor h s
  | .regEndpoint n h => Sys2Proof.Machine.execRegEndpoint n h s
  | .regEvent e h => Sys2Proof.Machine.execRegEvent e h s
  | .epConfig ep ty mps => Sys2Proof.Machine.execEpConfig ep ty mps s
  | .epDeconfig ep => Sys2Proof.Machine.execEpDeconfig ep s
  | .epWrite ep bytes => Sys2Proof.Machine.execEpWrite ep bytes s
  | .epRead ep => Sys2Proof.Machine.execEpRead ep s
  | .epStall ep => Sys2Proof.Machine.execEpStall ep s
  | .epUnstall ep => Sys2Proof.Machine.execEpUnstall ep s
  | .enable b => Sys2Proof.Machine.execEnable b s
  | .connect b => Sys2Proof.Machine.execConnect b s
  | .getInfo => Sys2Proof.Machine.execGetInfo s
  -- requests (41_request_dispatcher.md)
  | .getStatus d r => Sys2Proof.Machine.execGetStatus d r s
  | .clearFeature d r => Sys2Proof.Machine.execClearFeature d r s
  | .setFeature d r => Sys2Proof.Machine.execSetFeature d r s
  | .setAddress d r => Sys2Proof.Machine.execSetAddress d r s
  | .getDescriptor d r => Sys2Proof.Machine.execGetDescriptor d r s
  | .setDescriptor d r => Sys2Proof.Machine.execSetDescriptor d r s
  | .getConfiguration d r => Sys2Proof.Machine.execGetConfiguration d r s
  | .setConfiguration d r => Sys2Proof.Machine.execSetConfiguration d r s
  | .getInterface d r => Sys2Proof.Machine.execGetInterface d r s
  | .setInterface d r => Sys2Proof.Machine.execSetInterface d r s
  | .stdOther c d r => Sys2Proof.Machine.execStdOther c d r s
  | .classRequest c d r => Sys2Proof.Machine.execClassRequest c d r s
  | .vendorRequest c d r => Sys2Proof.Machine.execVendorRequest c d r s
  | .reservedType c d r => Sys2Proof.Machine.execReservedType c d r s

end Sys2Proof.Machine
end

