-- ==== Sys2Proof/Machine/Fetch.lean ====
section
/-! DEFINITION. Where the next instruction comes from. The block has no program counter and no instruction memory (10_state.md
R21): it executes the commands the application issues, one at a time, and an event that arrives waits for the next POLL
(60_exceptions.md R311, 42_event_dispatcher.md R222). Both come as input words (30_encoding.md R93) from `env.inputs`. -/

namespace Sys2Proof.Machine

/-- What the next input is. -/
inductive Fetched where
  /-- The refused mark is set: no step (R312). -/
  | stuck
  /-- No input: the block waits, "it moves only while it executes a command" (00_scope.md R13). -/
  | idle
  /-- An event arrived: it waits for the next POLL (R311, R348). -/
  | arrived (s : State)
  /-- The word is refused before it names an instruction (R256, R99). -/
  | refused (r : RefuseReason) (s : State)
  /-- A command. -/
  | run (i : Instr) (s : State)

/-- An event word that arrives joins the events that wait, after those already there (R70). -/
def arrive (inp : Input) (s : State) : State :=
  { s with
    env := { s.env with eventQueue := s.env.eventQueue ++ [{ word := inp.word, payload := inp.beside.bytes }] } }

/-- Take the next input (R93): class 0 is an event and waits, any other word is checked by R256 up to its decoding. -/
def fetch (s : State) : Fetched :=
  if s.refused then .stuck
  else
    match s.env.inputs with
    | [] => .idle
    | inp :: rest =>
      let s1 := { s with env := { s.env with inputs := rest } }
      if wordClass inp.word = 0 then .arrived (arrive inp s1)
      else
        match earlyRefusal inp.word s1 with
        | some r => .refused r s1
        | none =>
          match decodeCommand s1.limits inp.word inp.beside with
          | .error _ => .refused .reservedInput s1
          | .ok i => .run i s1

/-! ## Placing a table word -/

/-- The POLL command word with nothing beside it (R98, R100). -/
def pollInput : Input := { word := 0x1100 }

/-- Put an event first among those that wait, and a POLL next (log 3). -/
def placeEvent (e : EventInput) (s : State) : State :=
  { s with
    initialised := true
    env := { s.env with inputs := pollInput :: s.env.inputs, eventQueue := e :: s.env.eventQueue } }

/-- Put a command next; every command but INIT needs an initialised block (R256, log 3). -/
def placeCommand (w : Half) (s : State) : State :=
  { s with
    initialised := if w = 0x1000 then s.initialised else true
    env := { s.env with inputs := { word := w, beside := tableBeside w } :: s.env.inputs } }

/-- The SETUP event whose packet starts with a request key and is otherwise zero (R80, R102). -/
def keyEvent (k : Half) : EventInput :=
  { word := 0x0300, payload := [lowByte k, highByte k, 0, 0, 0, 0, 0, 0] }

/-- Place a table row's word so that the very next step runs its instruction: a command as the next input, an event as the
first of the next POLL, a request key in the SETUP packet of such an event (log 3, log 13). -/
def placeWord (w : Half) (s : State) : State :=
  match decodeInput s.limits w (tableBeside w) with
  | .ok _ =>
    if wordClass w = 0 then placeEvent { word := w, payload := (tableBeside w).bytes } s else placeCommand w s
  | .error _ => placeEvent (keyEvent w) s

end Sys2Proof.Machine
end

