-- ==== Sys2Proof/Machine/Step.lean ====
section
/-! DEFINITION. One step of the block: the next input, to its end (70_reset_and_hazards.md R351: each command completes
atomically), and where the host places a table word. -/

namespace Sys2Proof.Machine

/-- One step: the next command is executed; an arriving event waits; with no input the block waits; after a refusal there is no
step (R312). -/
def step (s : State) : Host.Outcome State Fault Refusal :=
  match fetch s with
  | .stuck => .fault .stuck
  | .idle => .next s
  | .arrived t => .next t
  | .refused r t => .next (t.refuse r)
  | .run i t => exec i t

/-- `s` with the instruction of a 16-bit table word placed where the next step takes it (log 3). -/
def State.withFetchWord (s : State) (nbits w : Nat) : State :=
  if nbits = 16 then placeWord (BitVec.ofNat 16 w) s else s

end Sys2Proof.Machine
end

