-- ==== Sys2Proof/Safety.lean ====
section
/-! DEFINITION. What counts as a safe state and the terms claims are stated in: the formats of the opcode table, the invariants
of 10_state.md R45, what a callback cannot write (43_public_api.md R265), and the end states that the rules name, written out
field by field from the spec's pseudocode and not from the model's operations. -/

namespace Sys2Proof.Machine

/-! ## Formats -/

/-- The three formats of spec/opcode_table.json. -/
inductive Format where
  | event
  | command
  | request
deriving DecidableEq, Repr

/-- The format of a row (30_encoding.md R95, R100, R102). -/
def format : Instr → Format
  | .evtReset | .evtSuspend | .evtResume | .evtSetup _ | .evtEp0Rx _ | .evtEpnRx _ | .evtEp0Tx | .evtEpnTx _ => .event
  | .init _ _ | .poll _ | .regControl _ | .regConfig _ | .regDescriptor _ | .regEndpoint _ _ | .regEvent _ _ => .command
  | .epConfig _ _ _ | .epDeconfig _ | .epWrite _ _ | .epRead _ | .epStall _ | .epUnstall _ => .command
  | .enable _ | .connect _ | .getInfo => .command
  | .getStatus _ _ | .clearFeature _ _ | .setFeature _ _ | .setAddress _ _ | .getDescriptor _ _ | .setDescriptor _ _ => .request
  | .getConfiguration _ _ | .setConfiguration _ _ | .getInterface _ _ | .setInterface _ _ => .request
  | .stdOther _ _ _ | .classRequest _ _ _ | .vendorRequest _ _ _ | .reservedType _ _ _ => .request

/-- (match, mask) of a row, copied from spec/opcode_table.json (30_encoding.md R98, R100, R102). -/
def tableRow : Instr → Half × Half
  | .evtReset => (0x0000, 0xFFFF)
  | .evtSuspend => (0x0100, 0xFFFF)
  | .evtResume => (0x0200, 0xFFFF)
  | .evtSetup _ => (0x0300, 0xFFFF)
  | .evtEp0Rx _ => (0x0400, 0xFFFF)
  | .evtEpnRx _ => (0x0400, 0xFFF0)
  | .evtEp0Tx => (0x0580, 0xFFFF)
  | .evtEpnTx _ => (0x0580, 0xFFF0)
  | .init _ _ => (0x1000, 0xFFFF)
  | .poll _ => (0x1100, 0xFFFF)
  | .regControl _ => (0x1200, 0xFFFF)
  | .regConfig _ => (0x1300, 0xFFFF)
  | .regDescriptor _ => (0x1400, 0xFFFF)
  | .regEndpoint _ _ => (0x1500, 0xFF00)
  | .regEvent _ _ => (0x1600, 0xFF00)
  | .epConfig _ _ _ => (0x1700, 0xFF00)
  | .epDeconfig _ => (0x1800, 0xFF00)
  | .epWrite _ _ => (0x1900, 0xFF00)
  | .epRead _ => (0x1A00, 0xFF00)
  | .epStall _ => (0x1B00, 0xFF00)
  | .epUnstall _ => (0x1C00, 0xFF00)
  | .enable _ => (0x1D00, 0xFFFE)
  | .connect _ => (0x1E00, 0xFFFE)
  | .getInfo => (0x1F00, 0xFFFF)
  | .getStatus _ _ => (0x0000, 0xFF60)
  | .clearFeature _ _ => (0x0100, 0xFF60)
  | .setFeature _ _ => (0x0300, 0xFF60)
  | .setAddress _ _ => (0x0500, 0xFF60)
  | .getDescriptor _ _ => (0x0600, 0xFF60)
  | .setDescriptor _ _ => (0x0700, 0xFF60)
  | .getConfiguration _ _ => (0x0800, 0xFF60)
  | .setConfiguration _ _ => (0x0900, 0xFF60)
  | .getInterface _ _ => (0x0A00, 0xFF60)
  | .setInterface _ _ => (0x0B00, 0xFF60)
  | .stdOther _ _ _ => (0x0000, 0x0060)
  | .classRequest _ _ _ => (0x0020, 0x0060)
  | .vendorRequest _ _ _ => (0x0040, 0x0060)
  | .reservedType _ _ _ => (0x0060, 0x0060)

/-- INIT. -/
def isInit : Instr → Bool
  | .init _ _ => true
  | _ => false

/-- POLL. -/
def isPoll : Instr → Bool
  | .poll _ => true
  | _ => false

/-! ## Legality by bit positions -/

/-- A valid endpoint address byte (R94). -/
abbrev validEpByte (lim : Limits) (b : Byte) : Prop := b.extractLsb' 4 3 = 0 ∧ (b.extractLsb' 0 4).toNat < lim.numEp

/-- A legal event word with its payload (R95, R96), by `kind` and `ep`. -/
def legalEvent (lim : Limits) (w : Half) (p : List Byte) : Prop :=
  w.extractLsb' 12 4 = 0 ∧
    (((w.extractLsb' 8 4).toNat ≤ 2 ∧ w.extractLsb' 0 8 = 0 ∧ p = []) ∨
      (w.extractLsb' 8 4 = 3 ∧ w.extractLsb' 0 8 = 0 ∧ p.length ≤ 64) ∨
      (w.extractLsb' 8 4 = 4 ∧ w.getLsbD 7 = false ∧ validEpByte lim (w.extractLsb' 0 8) ∧
        if w.extractLsb' 0 4 = 0 then p.length ≤ lim.ep0Size else p = []) ∨
      (w.extractLsb' 8 4 = 5 ∧ w.getLsbD 7 = true ∧ validEpByte lim (w.extractLsb' 0 8) ∧ p = []))

/-- A legal command word (R100, R101), by `code` and `arg8`. -/
def legalCommand (lim : Limits) (w : Half) : Prop :=
  w.extractLsb' 12 4 = 1 ∧
    if (w.extractLsb' 8 4).toNat ≤ 4 ∨ w.extractLsb' 8 4 = 15 then w.extractLsb' 0 8 = 0
    else if w.extractLsb' 8 4 = 5 then (w.extractLsb' 0 8).toNat < 16 ∧ (w.extractLsb' 0 8).toNat < lim.numEp
    else if w.extractLsb' 8 4 = 6 then (w.extractLsb' 0 8).toNat ≤ 2
    else if (w.extractLsb' 8 4).toNat ≤ 12 then validEpByte lim (w.extractLsb' 0 8)
    else (w.extractLsb' 0 8).toNat ≤ 1

/-! ## Invariants -/

/-- In the IN data stage (R45 item 4). -/
abbrev inDataStage (c : ControlState) : Prop := c = .txData ∨ c = .zeroTxData ∨ c = .lastData

/-- The data buffer is canonical and lies inside its capacity (R27, R60). -/
abbrev bufferInv (s : State) : Prop :=
  memWf s.dataBuffer = true ∧ ∀ c ∈ s.dataBuffer, c.1 < s.maxDataSize.toNat

/-- R45 item 3, with the total that BeginOut set (R123); bytes are missing unless a Nak is pending (R146). -/
abbrev rxInv (s : State) : Prop :=
  s.controlState = .rxData →
    hasOutData s.setup = true ∧ s.setup.length.toNat ≤ s.maxDataSize.toNat ∧ s.totalLen.toNat = s.setup.length.toNat ∧
      (s.pending = .none → s.transferredCount.toNat < s.totalLen.toNat)

/-- R45 item 4. -/
abbrev txInv (s : State) : Prop :=
  inDataStage s.controlState →
    hasInData s.setup = true ∧ s.totalLen.toNat ≤ s.setup.length.toNat ∧ s.totalLen.toNat ≤ s.maxDataSize.toNat

/-- R45 item 5. -/
abbrev countInv (s : State) : Prop :=
  (s.controlState = .rxData ∨ inDataStage s.controlState) →
    s.transferredCount.toNat ≤ s.totalLen.toNat ∧ s.dataCursor = s.transferredCount

/-- R45 item 2; a request that waits in Idle has no OUT data stage (R121, R126). -/
abbrev pendingInv (s : State) : Prop :=
  s.pending ≠ .none →
    (s.controlState = .idle ∧ hasOutData s.setup = false) ∨
      (s.controlState = .rxData ∧ s.transferredCount = s.totalLen)

/-- A deferred address waits for its status stage, and no Configured device holds one (R33, R179). -/
abbrev addressInv (s : State) : Prop :=
  s.pendingAddress ≠ none → s.controlState = .statusIn ∧ s.deviceState ≠ .configured

/-- The device is Configured exactly while a configuration is active (R183, R188, R214). -/
abbrev configInv (s : State) : Prop := s.deviceState = .configured ↔ s.activeConfig ≠ 0

/-- An initialised block has a legal EP0 packet size (R240). -/
abbrev sizeInv (s : State) : Prop := s.initialised = true → ep0SizeLegal s.ep0PacketSize = true

/-- The invariant of the states that are not refused (R45): all of the above, between steps in the Normal context (R40). -/
abbrev blockInv (s : State) : Prop :=
  bufferInv s ∧ rxInv s ∧ txInv s ∧ countInv s ∧ pendingInv s ∧ addressInv s ∧ configInv s ∧ sizeInv s ∧ s.ctx = .normal

/-- "in every reachable state that is not refused" (R45). -/
abbrev State.Inv (s : State) : Prop := s.refused = true ∨ blockInv s

/-! ## Rows without a response -/

/-- The request rows that never answer data (R174, R177 to R179, R183, R185, R186): they store nothing in the buffer. -/
def answersNoData : Instr → Bool
  | .clearFeature _ _ | .setFeature _ _ | .setAddress _ _ | .setConfiguration _ _ | .setInterface _ _ => true
  | .stdOther _ _ _ | .reservedType _ _ _ => true
  | .getStatus _ _ | .getDescriptor _ _ | .setDescriptor _ _ | .getConfiguration _ _ | .getInterface _ _ => false
  | .classRequest _ _ _ | .vendorRequest _ _ _ => false
  | .evtReset | .evtSuspend | .evtResume | .evtSetup _ | .evtEp0Rx _ | .evtEpnRx _ | .evtEp0Tx | .evtEpnTx _ => false
  | .init _ _ | .poll _ | .regControl _ | .regConfig _ | .regDescriptor _ | .regEndpoint _ _ | .regEvent _ _ => false
  | .epConfig _ _ _ | .epDeconfig _ | .epWrite _ _ | .epRead _ | .epStall _ | .epUnstall _ => false
  | .enable _ | .connect _ | .getInfo => false

/-! ## What a callback cannot write -/

/-- The fields of the Control Transfer Engine, the sizes, the context's companions and the parameters are the same (R265, R266). -/
structure EngineKept (s t : State) : Prop where
  controlState : t.controlState = s.controlState
  deviceState : t.deviceState = s.deviceState
  activeConfig : t.activeConfig = s.activeConfig
  ep0PacketSize : t.ep0PacketSize = s.ep0PacketSize
  maxDataSize : t.maxDataSize = s.maxDataSize
  dataBuffer : t.dataBuffer = s.dataBuffer
  dataCursor : t.dataCursor = s.dataCursor
  transferredCount : t.transferredCount = s.transferredCount
  totalLen : t.totalLen = s.totalLen
  setup : t.setup = s.setup
  pending : t.pending = s.pending
  pendingAddress : t.pendingAddress = s.pendingAddress
  completion : t.completion = s.completion
  initialised : t.initialised = s.initialised
  ctx : t.ctx = s.ctx
  cfg : t.cfg = s.cfg

/-- An entry that acts on endpoint number 0 at the HAL (R347). -/
def touchesEp0 : Action → Bool
  | .configureEndpoint ep _ _ => decide (ep.num = 0)
  | .deconfigureEndpoint ep => decide (ep.num = 0)
  | .writeEndpoint ep _ _ => decide (ep.num = 0)
  | .readEndpoint ep _ => decide (ep.num = 0)
  | .stallEndpoint ep => decide (ep.num = 0)
  | .unstallEndpoint ep => decide (ep.num = 0)
  | .setAddress _ => false
  | .enable _ => false
  | .connect _ => false
  | .getInfo _ => false
  | .call _ => false
  | .note _ => false

/-- The same but for bytes of the buffer that the transfer in flight has not written (20_memory.md R63): those received so far
in RxData and the whole response in the IN data stage are equal. -/
def sameButStale (s t : State) : Prop :=
  t = { s with dataBuffer := t.dataBuffer } ∧
    (s.controlState = .rxData → ∀ a, a < s.transferredCount.toNat → memGet t.dataBuffer a = memGet s.dataBuffer a) ∧
      (inDataStage s.controlState → ∀ a, a < s.totalLen.toNat → memGet t.dataBuffer a = memGet s.dataBuffer a)

/-! ## Premises -/

/-- An initialised block that was never refused: what every command but INIT needs (R256). -/
abbrev State.ready (s : State) : Prop := s.refused = false ∧ s.initialised = true

/-! ## Admission and the poll cycle, in the spec's words -/

/-- After `refuse` (R312). -/
def refusedState (r : RefuseReason) (s : State) : State := { s with refusedFor := some r }

/-- The refusal a command meets, in R256's order. -/
def admissionSpec (i : Instr) (s : State) : Option RefuseReason :=
  if s.initialised = false ∧ isInit i = false then some .notInitialised
  else if s.ctx = .inCallback ∧ (isInit i = true ∨ isPoll i = true) then some .reentrant
  else if i.wf s.limits = false then some .reservedInput
  else
    match i with
    | .epConfig ep _ _ | .epDeconfig ep | .epStall ep | .epUnstall ep => if ep.num = 0 then some .ep0Reserved else none
    | .epWrite ep _ => if ep.num = 0 then some .ep0Reserved else if ep.dir = .out then some .direction else none
    | .epRead ep => if ep.num = 0 then some .ep0Reserved else if ep.dir = .inn then some .direction else none
    | _ => none

/-- A batch taken in list order, each event by its own meaning (R210, R306); an illegal event and a refusal end it. -/
def eventsEnd : List EventInput → State → Host.Outcome State Fault Refusal
  | [], s => .next s
  | e :: es, s =>
    match decodeEvent s.limits e.word e.payload with
    | .error _ => .next (refusedState .reservedInput s)
    | .ok i =>
      match exec i s with
      | .next t => if t.refused = true then .next t else eventsEnd es t
      | .fault f => .fault f
      | .refused r => .refused r

/-- The retry (R220): an armed request is dispatched again by its own meaning, then a fresh Nak is armed. -/
def retryEnd (s : State) : Host.Outcome State Fault Refusal :=
  match if s.pending = .armed then exec (decodeKey (requestKey s.setup)) s else .next s with
  | .next t => if t.refused = true then .next t else .next { t with pending := if t.pending = .fresh then .armed else t.pending }
  | .fault f => .fault f
  | .refused r => .refused r

/-- POLL (R210): the waiting events and the batch, the retry, the count (R221). -/
def pollEnd (batch : List EventInput) (s : State) : Host.Outcome State Fault Refusal :=
  match eventsEnd (s.env.eventQueue ++ batch) { s with env := { s.env with eventQueue := [] } } with
  | .next t =>
    if t.refused = true then .next t
    else
      match retryEnd t with
      | .next u =>
        if u.refused = true then .next u
        else .next { u with returned := .events (s.env.eventQueue.length + batch.length) }
      | .fault f => .fault f
      | .refused r => .refused r
  | .fault f => .fault f
  | .refused r => .refused r

/-! ## End states the rules name -/

/-- After EVT_SETUP's cancel, read and parse (R120, R121, R122). -/
def setupState (p : List Byte) (r : ControlRequest) (s : State) : State :=
  { s with
    controlState := .idle
    pending := .none
    completion := none
    pendingAddress := none
    dataCursor := 0
    transferredCount := 0
    totalLen := 0
    trace := s.trace ++ [.readEndpoint ep0Out p]
    setup := r }

/-- After BusReset (R214, R342). -/
def busResetState (s : State) : State :=
  { s with
    controlState := .idle
    deviceState := .default
    activeConfig := 0
    pending := .none
    pendingAddress := none
    completion := none
    dataCursor := 0
    transferredCount := 0
    totalLen := 0
    halted := Vector.replicate 32 false
    trace := s.trace ++ [.configureEndpoint ep0Out .control s.ep0PacketSize] }

/-- After an OUT packet has been stored in RxData (R132). -/
def receivedState (p : List Byte) (s : State) : State :=
  { s with
    trace := s.trace ++ [.readEndpoint ep0Out p]
    dataBuffer := memPutAll s.dataBuffer s.dataCursor.toNat p
    dataCursor := u32 (s.dataCursor.toNat + p.length)
    transferredCount := u32 (s.transferredCount.toNat + p.length) }

/-- After SendNext (R130) of the packet of `n` bytes. -/
def sentState (n : Nat) (s : State) : State :=
  { s with
    trace := s.trace ++ [.writeEndpoint ep0In (memGetAll s.dataBuffer s.dataCursor.toNat n) none]
    dataCursor := u32 (s.dataCursor.toNat + n)
    transferredCount := u32 (s.transferredCount.toNat + n)
    controlState :=
      if s.transferredCount.toNat + n = s.totalLen.toNat ∧ (s.controlState = .txData ∨ n ≠ s.ep0PacketSize.toNat) then .lastData
      else s.controlState }

/-- `n` TX events, one after the other. -/
def txTimes : Nat → State → Host.Outcome State Fault Refusal
  | 0, s => .next s
  | n + 1, s =>
    match exec .evtEp0Tx s with
    | .next t => txTimes n t
    | .fault f => .fault f
    | .refused r => .refused r

/-- The packets of an IN data stage by the ZLP rule (R144): `L` asked for, the response `d`, `M` the packet size. -/
def inPackets (L M : Nat) (d : List Byte) : List (List Byte) :=
  let t := min d.length L
  (List.range (t / M)).map (fun k => (d.drop (k * M)).take M) ++
    (if t % M ≠ 0 then [(d.take t).drop (t / M * M)] else if d.length < L then [[]] else [])

/-- After the recovery path (R303, R141, R120). -/
def stalledState (code : Byte) (s : State) : State :=
  { s with
    trace := s.trace ++ [.stallEndpoint ep0Out, .stallEndpoint ep0In, .note code]
    controlState := .idle
    pending := .none
    completion := none
    pendingAddress := none
    dataCursor := 0
    transferredCount := 0
    totalLen := 0 }

/-- After Outcome ACK without IN data (R128): the status-stage ZLP, StatusIn. -/
def statusState (completion : Option Token) (s : State) : State :=
  { s with
    pending := .none
    completion := completion
    trace := s.trace ++ [.writeEndpoint ep0In [] none]
    controlState := .statusIn }

/-- After Outcome ACK of an IN request for `len > 0` bytes with the response `d` (R127, R129, R130): the response, truncated to
`len`, in the buffer, its first packet sent. -/
def responseState (len : Nat) (d : List Byte) (completion : Option Token) (s : State) : State :=
  let t := min d.length len
  let n := min t s.ep0PacketSize.toNat
  { s with
    pending := .none
    completion := completion
    dataBuffer := memPutAll s.dataBuffer 0 (d.take t)
    totalLen := u32 t
    dataCursor := u32 n
    transferredCount := u32 n
    controlState :=
      if n = t ∧ (len ≤ d.length ∨ n ≠ s.ep0PacketSize.toNat) then .lastData
      else if d.length < len then .zeroTxData
      else .txData
    trace := s.trace ++ [.writeEndpoint ep0In (d.take n) none] }

/-- After Outcome ACK(data, completion) of a request (R124, R127, R128). -/
def ackState (req : ControlRequest) (data : Option (List Byte)) (completion : Option Token) (s : State) : State :=
  if hasInData req = true then
    match data with
    | none => stalledState 0x12 s
    | some d =>
      if s.maxDataSize.toNat < min d.length req.length.toNat then stalledState 0x06 s
      else responseState req.length.toNat d completion s
  else statusState completion s

/-- After a callback's answer has become an Outcome (R171, R124 to R128). -/
def answeredState (req : ControlRequest) (a : HandlerAnswer) (s : State) : State :=
  match a.respond with
  | .fail => stalledState 0x11 s
  | .nak => { s with pending := .fresh }
  | .ack => ackState req a.data a.completion s

/-- The OUT data of a request in the buffer (R124): all `length` bytes of an OUT request, nothing of any other. -/
def outDataOf (req : ControlRequest) (s : State) : List Byte :=
  if hasOutData req = true then memGetAll s.dataBuffer 0 req.length.toNat else []

/-- A request's OUT data lie inside the buffer: BeginOut has checked it (R123) whenever the block dispatches one. -/
abbrev outDataFits (req : ControlRequest) (s : State) : Prop :=
  hasOutData req = true → req.length.toNat ≤ s.maxDataSize.toNat

/-- The request in flight is that of a row (R102, R170): its key is in the SETUP register, its OUT data inside the buffer. -/
abbrev inFlight (i : Instr) (s : State) : Prop := requestKey s.setup = encodeWord i ∧ outDataFits s.setup s

/-- The state in which the commands of a callback's answer run (R264): the call traced, the answer taken, InCallback. -/
def calledState (c : Call) (rest : List HandlerAnswer) (s : State) : State :=
  { s with trace := s.trace ++ [.call c], env := { s.env with answers := rest }, ctx := .inCallback }

/-- The commands of an answer run into a refusal (R264, R312): nothing after the refused one runs, and the context stays
InCallback (log 18). -/
abbrev callRefused (c : Call) (a : HandlerAnswer) (rest : List HandlerAnswer) (s : State) (r : RefuseReason) (u : State) : Prop :=
  runCalls a.calls (calledState c rest s) = .refused r u

/-- After a callback that issued no command (R264): the call traced, the answer taken, the context as before. -/
def askedState (c : Call) (rest : List HandlerAnswer) (s : State) : State :=
  { s with trace := s.trace ++ [.call c], env := { s.env with answers := rest } }

/-- After CompleteTransfer's deferred address (R140). -/
def addressedState (s : State) : State :=
  match s.pendingAddress with
  | none => s
  | some a =>
    { s with
      trace := s.trace ++ [.setAddress a]
      deviceState := if a = 0 then .default else .addressed
      pendingAddress := none }

end Sys2Proof.Machine
end

