-- ==== Sys2Proof/Certificates/Slice0/Obligations.lean ====
section
/-! DEFINITION. The statements for the provers. Every statement about an instruction gives the whole next state, so that what it
does not name is unchanged: every register, the registry, the buffer, the trace, the environment. -/

open Sys2Proof Sys2Proof.Machine

/-! ## Encoding -/

/-- 30_encoding.md R98: the event words, encoded and decoded. -/
def Obligations.EventWords : Prop :=
  (encodeWord .evtReset = 0x0000 ∧ encodeWord .evtSuspend = 0x0100 ∧ encodeWord .evtResume = 0x0200 ∧
      (∀ p, encodeWord (.evtSetup p) = 0x0300) ∧ (∀ p, encodeWord (.evtEp0Rx p) = 0x0400) ∧ encodeWord .evtEp0Tx = 0x0580 ∧
      ∀ n : BitVec 4, encodeWord (.evtEpnRx n) = 0x0400 + n.setWidth 16 ∧ encodeWord (.evtEpnTx n) = 0x0580 + n.setWidth 16) ∧
    ∀ lim : Limits, 1 ≤ lim.numEp →
      decodeEvent lim 0x0000 [] = .ok .evtReset ∧ decodeEvent lim 0x0100 [] = .ok .evtSuspend ∧
        decodeEvent lim 0x0200 [] = .ok .evtResume ∧ (∀ p : List Byte, p.length ≤ 64 → decodeEvent lim 0x0300 p = .ok (.evtSetup p)) ∧
        (∀ p : List Byte, p.length ≤ lim.ep0Size → decodeEvent lim 0x0400 p = .ok (.evtEp0Rx p)) ∧
        decodeEvent lim 0x0580 [] = .ok .evtEp0Tx ∧
        ∀ n : BitVec 4, 1 ≤ n.toNat → n.toNat < lim.numEp →
          decodeEvent lim (0x0400 + n.setWidth 16) [] = .ok (.evtEpnRx n) ∧
            decodeEvent lim (0x0580 + n.setWidth 16) [] = .ok (.evtEpnTx n)

/-- Words written out from R95, R100 and R102 decode to the instructions they stand for. -/
def Obligations.DecodedWords : Prop :=
  decodeEvent { numEp := 4, ep0Size := 8 } 0x0583 [] = .ok (.evtEpnTx 3) ∧
    decodeEvent { numEp := 4, ep0Size := 8 } 0x0400 [0xAA, 0xBB] = .ok (.evtEp0Rx [0xAA, 0xBB]) ∧
    decodeCommand { numEp := 4, ep0Size := 8 } 0x1000 { cap := 64, ep0 := 8 } = .ok (.init 64 8) ∧
    decodeCommand { numEp := 4, ep0Size := 8 } 0x1602 { handler := some 7 } = .ok (.regEvent .resume (some 7)) ∧
    decodeCommand { numEp := 4, ep0Size := 8 } 0x1781 { epType := .bulk, mps := 64 } =
      .ok (.epConfig { dir := .inn, num := 1 } .bulk 64) ∧
    decodeCommand { numEp := 4, ep0Size := 8 } 0x1A02 {} = .ok (.epRead { dir := .out, num := 2 }) ∧
    decodeCommand { numEp := 4, ep0Size := 8 } 0x1E01 {} = .ok (.connect true) ∧
    decodeKey 0x0680 = .getDescriptor .inn 0 ∧ decodeKey 0x0102 = .clearFeature .out 2 ∧
    decodeKey 0x2021 = .classRequest 0x20 .out 1 ∧ decodeKey 0x0C00 = .stdOther 0x0C .out 0 ∧
    decodeKey 0x00E0 = .reservedType 0x00 .inn 0

/-- R95, R96: decoding the word and payload of any legal event gives it back. -/
def Obligations.EventRoundTrip : Prop :=
  ∀ (lim : Limits) (i : Instr), format i = .event → i.wf lim = true →
    decodeEvent lim (encode i).word (encode i).beside.bytes = .ok i

/-- R100, R101: decoding the word of any legal command with what is beside it gives it back. -/
def Obligations.CommandRoundTrip : Prop :=
  ∀ (lim : Limits) (i : Instr), format i = .command → i.wf lim = true →
    decodeCommand lim (encode i).word (encode i).beside = .ok i

/-- R102: decoding the key of any request gives it back, direction and recipient included. -/
def Obligations.RequestRoundTrip : Prop :=
  ∀ (lim : Limits) (i : Instr), format i = .request → i.wf lim = true → decodeKey (encode i).word = i

/-- R102: the key is `requestType | (request << 8)`; every key decodes to a request of that very key; its row matches the key,
and any other request row that matches it is less specific. -/
def Obligations.KeySelectsOneRow : Prop :=
  (∀ r : ControlRequest, requestKey r = r.requestType.setWidth 16 ||| r.request.setWidth 16 <<< 8) ∧
    ∀ k : Half,
      format (decodeKey k) = .request ∧ (∀ lim : Limits, (decodeKey k).wf lim = true) ∧ encodeWord (decodeKey k) = k ∧
        k &&& (tableRow (decodeKey k)).2 = (tableRow (decodeKey k)).1 ∧
        ∀ j : Instr, format j = .request → k &&& (tableRow j).2 = (tableRow j).1 →
          tableRow j = tableRow (decodeKey k) ∨ ((tableRow j).2 = 0x0060 ∧ (tableRow (decodeKey k)).2 = 0xFF60)

/-- R95, R96, R99, R101: exactly the legal words with their payloads decode; what they decode to is legal and has that word. That
a payload beside an event that has none makes it undecodable is the model's reading of R97 (log 10). -/
def Obligations.LegalWords : Prop :=
  ∀ (lim : Limits) (w : Half) (b : Beside),
    ((∃ i, decodeInput lim w b = .ok i) ↔ (legalEvent lim w b.bytes ∨ legalCommand lim w)) ∧
      ∀ i, decodeInput lim w b = .ok i → i.wf lim = true ∧ encodeWord i = w ∧ format i ≠ .request

/-- R80, R81: the SETUP packet's layout and the subfields of `requestType`. -/
def Obligations.SetupLayout : Prop :=
  (∀ b0 b1 b2 b3 b4 b5 b6 b7 : Byte,
      ∃ r, parseSetup [b0, b1, b2, b3, b4, b5, b6, b7] = some r ∧ r.requestType = b0 ∧ r.request = b1 ∧
        r.value.toNat = b2.toNat + 256 * b3.toNat ∧ r.index.toNat = b4.toNat + 256 * b5.toNat ∧
        r.length.toNat = b6.toNat + 256 * b7.toNat ∧ setupBytes r = [b0, b1, b2, b3, b4, b5, b6, b7]) ∧
    (∀ p : List Byte, p.length ≠ 8 → parseSetup p = none) ∧ (∀ r, parseSetup (setupBytes r) = some r) ∧
      ∀ r : ControlRequest,
        r.requestType.toNat = (if reqDir r = .inn then 128 else 0) + 32 * (reqType r).toNat + (reqRecipient r).toNat

/-- R87 to R92: the codes of the enumerations, each read back. -/
def Obligations.EnumCodes : Prop :=
  ([ControlState.idle, .rxData, .txData, .zeroTxData, .lastData, .statusIn, .statusOut].map controlStateCode =
      [0, 1, 2, 3, 4, 5, 6] ∧ controlStateOfCode 7 = none ∧ ∀ c, controlStateOfCode (controlStateCode c) = some c) ∧
    ([MachineState.default, .addressed, .configured].map machineStateCode = [0, 1, 2] ∧ machineStateOfCode 3 = none ∧
      ∀ c, machineStateOfCode (machineStateCode c) = some c) ∧
    ([Respond.fail, .ack, .nak].map respondCode = [0, 1, 2] ∧ respondOfCode 3 = none ∧
      ∀ c, respondOfCode (respondCode c) = some c) ∧
    ([PendingState.none, .fresh, .armed].map pendingStateCode = [0, 1, 2] ∧
      ∀ c, pendingStateOfCode (pendingStateCode c) = some c) ∧
    ([DeviceEvent.reset, .suspend, .resume].map deviceEventCode = [0, 1, 2] ∧
      ∀ c, deviceEventOfCode (deviceEventCode c) = some c) ∧
    [EpType.control, .isochronous, .bulk, .interrupt].map epTypeCode = [0, 1, 2, 3] ∧ ∀ c, epTypeOfCode (epTypeCode c) = c

/-- R105, R84: the eight bytes of a pseudo-event, the request each name's code and each type select, and the three worked
expansions. -/
def Obligations.PseudoEvents : Prop :=
  (∀ (ty : BitVec 2) (code : Byte) (d : Dir) (rcpt : BitVec 5) (v i l : Half),
      (pseudoSetup ty code d rcpt v i l).map BitVec.toNat =
        [(if d = .inn then 128 else 0) + 32 * ty.toNat + rcpt.toNat, code.toNat, v.toNat % 256, v.toNat / 256, i.toNat % 256,
          i.toNat / 256, l.toNat % 256, l.toNat / 256]) ∧
    (∀ (d : Dir) (rcpt : BitVec 5) (v i l : Half),
      [0x00#8, 0x01#8, 0x03#8, 0x05#8, 0x06#8, 0x07#8, 0x08#8, 0x09#8, 0x0A#8, 0x0B#8, 0x0C#8].map
          (fun code => (parseSetup (pseudoSetup 0 code d rcpt v i l)).map (fun q => decodeKey (requestKey q))) =
        [some (.getStatus d rcpt), some (.clearFeature d rcpt), some (.setFeature d rcpt), some (.setAddress d rcpt),
          some (.getDescriptor d rcpt), some (.setDescriptor d rcpt), some (.getConfiguration d rcpt),
          some (.setConfiguration d rcpt), some (.getInterface d rcpt), some (.setInterface d rcpt),
          some (.stdOther 0x0C d rcpt)] ∧
        ∀ code : Byte,
          (parseSetup (pseudoSetup 1 code d rcpt v i l)).map (fun q => decodeKey (requestKey q)) = some (.classRequest code d rcpt) ∧
            (parseSetup (pseudoSetup 2 code d rcpt v i l)).map (fun q => decodeKey (requestKey q)) =
              some (.vendorRequest code d rcpt)) ∧
    pseudoSetup 0 0x06 .inn 0 0x0100 0 18 = [0x80, 0x06, 0x00, 0x01, 0x00, 0x00, 0x12, 0x00] ∧
    pseudoSetup 0 0x05 .out 0 5 0 0 = [0x00, 0x05, 0x05, 0x00, 0x00, 0x00, 0x00, 0x00] ∧
    pseudoSetup 0 0x09 .out 0 1 0 0 = [0x00, 0x09, 0x01, 0x00, 0x00, 0x00, 0x00, 0x00]

/-! ## The data buffer -/

/-- 20_memory.md R62 and R61: a write inside the capacity sets its bytes and no other, a read gives the bytes, and outside the
capacity both refuse BUFFER_BOUNDS. -/
def Obligations.BufferReadWrite : Prop :=
  ∀ (s : State) (addr : Nat),
    (∀ bs : List Byte,
      (memWf s.dataBuffer = true → addr + bs.length ≤ s.maxDataSize.toNat →
        ∃ m, bufWrite addr bs s = .ok { s with dataBuffer := m } ∧
          (∀ i, (h : i < bs.length) → memGet m (addr + i) = bs[i]) ∧
          ∀ a, a < addr ∨ addr + bs.length ≤ a → memGet m a = memGet s.dataBuffer a) ∧
        (s.maxDataSize.toNat < addr + bs.length → bufWrite addr bs s = .refused .bufferBounds s)) ∧
      ∀ n : Nat,
        (addr + n ≤ s.maxDataSize.toNat →
          ∃ bs, bufRead addr n s = .ok bs ∧ bs.length = n ∧
            ∀ i, (h : i < bs.length) → bs[i] = memGet s.dataBuffer (addr + i)) ∧
          (s.maxDataSize.toNat < addr + n → bufRead addr n s = .refused .bufferBounds s)

/-- The data buffer keeps its canonical form (log 6) in every step and in every instruction. -/
def Obligations.BufferStaysCanonical : Prop :=
  ∀ s t : State, memWf s.dataBuffer = true →
    (step s = .next t → memWf t.dataBuffer = true) ∧ ∀ i : Instr, exec i s = .next t → memWf t.dataBuffer = true

/-- Which bytes of the buffer an instruction can change. None: commands but INIT and POLL; every event but EVT_SETUP and
EVT_EP0_RX; an EVT_EP0_RX outside RxData or while a Nak is pending; a request or EVT_SETUP without an IN data stage; a request
whose row answers no data; an EVT_SETUP that does not parse. Else only the bytes of the packet (EVT_EP0_RX, R132), or bytes
below `setup.length` (a request, and EVT_SETUP with the length it brings, R127). -/
def Obligations.BufferFrame : Prop :=
  (∀ (i : Instr) (s t : State), exec i s = .next t →
      ((format i = .command ∧ isInit i = false ∧ isPoll i = false) ∨ i = .evtReset ∨ i = .evtSuspend ∨ i = .evtResume ∨
        i = .evtEp0Tx ∨ (∃ n, i = .evtEpnRx n) ∨ (∃ n, i = .evtEpnTx n) ∨
        ((∃ p, i = .evtEp0Rx p) ∧ (s.controlState ≠ .rxData ∨ s.pending ≠ .none)) ∨
        (format i = .request ∧ (hasInData (withKey s.setup (encodeWord i)) = false ∨ answersNoData i = true)) ∨
        ∃ p, i = .evtSetup p ∧ ∀ r, parseSetup p = some r → hasInData r = false) →
      ∀ a, memGet t.dataBuffer a = memGet s.dataBuffer a) ∧
    (∀ (p : List Byte) (s t : State), blockInv s → exec (.evtEp0Rx p) s = .next t →
      ∀ a, a < s.dataCursor.toNat ∨ s.dataCursor.toNat + p.length ≤ a → memGet t.dataBuffer a = memGet s.dataBuffer a) ∧
    (∀ (i : Instr) (s t : State), format i = .request → memWf s.dataBuffer = true → exec i s = .next t →
      ∀ a, s.setup.length.toNat ≤ a → memGet t.dataBuffer a = memGet s.dataBuffer a) ∧
    ∀ (p : List Byte) (r : ControlRequest) (s t : State), parseSetup p = some r → memWf s.dataBuffer = true →
      exec (.evtSetup p) s = .next t → ∀ a, r.length.toNat ≤ a → memGet t.dataBuffer a = memGet s.dataBuffer a

/-! ## Invariants -/

/-- The invariant holds at reset (what reset leaves beside `refused` and `initialised` is the model's choice, log 1). -/
def Obligations.ResetMeetsInvariant : Prop :=
  State.reset.Inv ∧ State.reset.refused = false ∧ State.reset.initialised = false

/-- 10_state.md R45: every step keeps the invariant. -/
def Obligations.StepKeepsInvariant : Prop := ∀ s t : State, s.Inv → step s = .next t → t.Inv

/-- R61, R313: from a state that meets the invariant no step refuses BUFFER_BOUNDS. -/
def Obligations.BufferBoundsUnreachable : Prop :=
  ∀ s t : State, s.Inv → step s = .next t → t.refusedFor ≠ some .bufferBounds

/-- R262, R69, R7: every instruction only appends to the trace, and no instruction writes the parameters. -/
def Obligations.TraceGrows : Prop :=
  ∀ (i : Instr) (s t : State), exec i s = .next t → (∃ u, t.trace = s.trace ++ u) ∧ t.cfg = s.cfg

/-! ## The step -/

/-- A step whose next input word decodes to a command runs that command, the input taken. -/
def Obligations.StepRunsDecodedCommand : Prop :=
  ∀ (s : State) (inp : Input) (rest : List Input) (i : Instr), s.refused = false → s.env.inputs = inp :: rest →
    decodeCommand s.limits inp.word inp.beside = .ok i → step s = exec i { s with env := { s.env with inputs := rest } }

/-- Every other step: no input, the block waits (log 3); an event word waits for the next POLL (R311, log 4); a word that is no
command is refused in R256's order (which command such a word names is the model's reading, log 9). -/
def Obligations.StepWithoutCommand : Prop :=
  ∀ s : State, s.refused = false →
    (s.env.inputs = [] → step s = .next s) ∧
      ∀ (inp : Input) (rest : List Input), s.env.inputs = inp :: rest →
        (wordClass inp.word = 0 →
          step s =
            .next
              { s with
                env :=
                  { s.env with
                    inputs := rest
                    eventQueue := s.env.eventQueue ++ [{ word := inp.word, payload := inp.beside.bytes }] } }) ∧
          (wordClass inp.word ≠ 0 → (∀ i, decodeCommand s.limits inp.word inp.beside ≠ .ok i) →
            step s =
              .next
                (refusedState
                  (if s.initialised = false ∧ inp.word.extractLsb' 8 8 ≠ 0x10 then .notInitialised
                  else if s.ctx = .inCallback ∧ (inp.word.extractLsb' 8 8 = 0x10 ∨ inp.word.extractLsb' 8 8 = 0x11) then .reentrant
                  else .reservedInput)
                  { s with env := { s.env with inputs := rest } }))

/-- R312, R43: after a refusal there is no step, INIT included (the fault's name is the model's, log 8). -/
def Obligations.StuckAfterRefusal : Prop :=
  ∀ (s : State) (i : Instr), s.refused = true → step s = .fault .stuck ∧ exec i s = .fault .stuck

/-! ## The poll cycle -/

/-- R210, R220, R221, R306: POLL is its events one at a time in order, each by its own meaning, then the retry, then the count.
That the events already waiting come ahead of the batch, leave the queue and are counted is the model's reading of R311 and R222
(log 4). -/
def Obligations.PollIsEventsThenRetry : Prop :=
  ∀ (batch : List EventInput) (s : State), s.ready → s.ctx = .normal → exec (.poll batch) s = pollEnd batch s

/-- R210, R220, R221: a POLL without events changes `pending` from FRESH to ARMED and returns 0; nothing else. -/
def Obligations.EmptyPoll : Prop :=
  ∀ s : State, s.ready → s.ctx = .normal → s.env.eventQueue = [] → s.pending ≠ .armed →
    exec (.poll []) s =
      .next { s with pending := if s.pending = .fresh then .armed else s.pending, returned := .events 0 }

/-- R220, R126: a class or vendor request answered Nak at its retry stays where it was, armed for the next cycle. -/
def Obligations.NakStaysPut : Prop :=
  ∀ (s : State) (h : HandlerId) (a : HandlerAnswer) (rest : List HandlerAnswer), s.ready → s.ctx = .normal →
    s.env.eventQueue = [] → s.pending = .armed → (reqType s.setup = 1 ∨ reqType s.setup = 2) → outDataFits s.setup s →
    s.controlCb = some h → s.env.answers = a :: rest → a.respond = .nak → a.calls = [] →
    exec (.poll []) s =
      .next
        { s with
          trace := s.trace ++ [.call (.control h s.setup (outDataOf s.setup s))]
          returned := .events 0
          env := { s.env with answers := rest } }

/-! ## EVT_SETUP -/

/-- 40_control_engine.md R121, R124: a SETUP without an OUT data stage is cancelled into, read, parsed and dispatched at once to
the request its first two bytes select. -/
def Obligations.SetupDispatches : Prop :=
  ∀ (p : List Byte) (r : ControlRequest) (s : State), s.refused = false → parseSetup p = some r → hasOutData r = false →
    exec (.evtSetup p) s = exec (decodeKey (requestKey r)) (setupState p r s)

/-- R123, R122: a SETUP with an OUT data stage that fits waits in RxData; one that does not fit, or is not 8 bytes long, stalls. -/
def Obligations.SetupBeginsOut : Prop :=
  ∀ (p : List Byte) (s : State), s.refused = false →
    (∀ r, parseSetup p = some r → hasOutData r = true →
      (r.length.toNat ≤ s.maxDataSize.toNat →
        exec (.evtSetup p) s =
          .next { (setupState p r s) with totalLen := r.length.setWidth 32, controlState := .rxData }) ∧
        (s.maxDataSize.toNat < r.length.toNat → exec (.evtSetup p) s = .next (stalledState 0x02 (setupState p r s)))) ∧
      (p.length ≠ 8 → p.length ≤ 64 → exec (.evtSetup p) s = .next (stalledState 0x01 (setupState p s.setup s)))

/-! ## EVT_EP0_RX -/

/-- R132: an OUT packet in RxData. One that would pass the total stalls with nothing stored; one that reaches it is stored and
the request dispatched; a short one that does not is stored and stalls; a full one is stored. -/
def Obligations.RxInRxData : Prop :=
  ∀ (p : List Byte) (s : State), s.refused = false → 0 < s.cfg.numEp → p.length ≤ s.ep0PacketSize.toNat →
    s.pending = .none → s.controlState = .rxData → s.dataCursor = s.transferredCount →
    s.totalLen.toNat ≤ s.maxDataSize.toNat →
    (s.totalLen.toNat < s.transferredCount.toNat + p.length →
      exec (.evtEp0Rx p) s = .next (stalledState 0x03 { s with trace := s.trace ++ [.readEndpoint ep0Out p] })) ∧
      (s.transferredCount.toNat + p.length = s.totalLen.toNat →
        exec (.evtEp0Rx p) s = exec (decodeKey (requestKey s.setup)) (receivedState p s)) ∧
      (s.transferredCount.toNat + p.length < s.totalLen.toNat → p.length < s.ep0PacketSize.toNat →
        exec (.evtEp0Rx p) s = .next (stalledState 0x04 (receivedState p s))) ∧
      (s.transferredCount.toNat + p.length < s.totalLen.toNat → p.length = s.ep0PacketSize.toNat →
        exec (.evtEp0Rx p) s = .next (receivedState p s))

/-- R133, R140: the status-stage ZLP of the host ends the transfer, the deferred address applied; a packet with data stalls. -/
def Obligations.RxInStatusOut : Prop :=
  ∀ (p : List Byte) (s : State), s.refused = false → 0 < s.cfg.numEp → p.length ≤ s.ep0PacketSize.toNat →
    s.pending = .none → s.controlState = .statusOut →
    (p = [] → s.completion = none →
      exec (.evtEp0Rx p) s =
        .next (addressedState { s with trace := s.trace ++ [.readEndpoint ep0Out p], controlState := .idle })) ∧
      (p ≠ [] → exec (.evtEp0Rx p) s = .next (stalledState 0x05 { s with trace := s.trace ++ [.readEndpoint ep0Out p] }))

/-- R131, R134: an OUT packet while a Nak is pending, or in any state but RxData and StatusOut, stalls after the read. -/
def Obligations.RxUnexpected : Prop :=
  ∀ (p : List Byte) (s : State), s.refused = false → 0 < s.cfg.numEp → p.length ≤ s.ep0PacketSize.toNat →
    (s.pending ≠ .none ∨ (s.controlState ≠ .rxData ∧ s.controlState ≠ .statusOut)) →
    exec (.evtEp0Rx p) s = .next (stalledState 0x07 { s with trace := s.trace ++ [.readEndpoint ep0Out p] })

/-! ## EVT_EP0_TX -/

/-- R130, R136: in TxData and ZeroTxData the next packet is sent, `min(totalLen - transferredCount, ep0PacketSize)` bytes. -/
def Obligations.TxSendsNext : Prop :=
  ∀ s : State, s.refused = false → 0 < s.cfg.numEp → s.pending = .none →
    (s.controlState = .txData ∨ s.controlState = .zeroTxData) → s.dataCursor = s.transferredCount →
    s.transferredCount.toNat ≤ s.totalLen.toNat → s.totalLen.toNat ≤ s.maxDataSize.toNat →
    exec .evtEp0Tx s =
      .next (sentState (min (s.totalLen.toNat - s.transferredCount.toNat) s.ep0PacketSize.toNat) s)

/-- R135, R137, R138, R139, R140: a TX in LastData goes to StatusOut; in StatusIn it ends the transfer, the deferred address
applied; while a Nak is pending, and in Idle, RxData and StatusOut, it stalls. -/
def Obligations.TxElsewhere : Prop :=
  ∀ s : State, s.refused = false → 0 < s.cfg.numEp →
    (s.pending = .none → s.controlState = .lastData → exec .evtEp0Tx s = .next { s with controlState := .statusOut }) ∧
      (s.pending = .none → s.controlState = .statusIn → s.completion = none →
        exec .evtEp0Tx s = .next (addressedState { s with controlState := .idle })) ∧
      ((s.pending ≠ .none ∨ s.controlState = .idle ∨ s.controlState = .rxData ∨ s.controlState = .statusOut) →
        exec .evtEp0Tx s = .next (stalledState 0x08 s))

/-- R140, R266: at the end of either status stage the completion token's callback runs after the deferred address, and the
token is cleared first. -/
def Obligations.CompletionCallback : Prop :=
  ∀ (s u : State) (tok : Token) (a : HandlerAnswer) (rest : List HandlerAnswer), s.refused = false → 0 < s.cfg.numEp →
    s.pending = .none → s.completion = some tok → s.env.answers = a :: rest →
    ((s.controlState = .statusIn →
        runCalls a.calls
            (calledState (.complete tok s.setup) rest
              { (addressedState { s with controlState := .idle }) with completion := none }) = .ok u →
        exec .evtEp0Tx s = .next { u with ctx := s.ctx }) ∧
      (s.controlState = .statusOut →
        runCalls a.calls
            (calledState (.complete tok s.setup) rest
              { (addressedState { s with trace := s.trace ++ [.readEndpoint ep0Out []], controlState := .idle }) with
                completion := none }) = .ok u →
        exec (.evtEp0Rx []) s = .next { u with ctx := s.ctx }))

/-- R147, R305, R141: an event or a request reports at most one error, and one that does ends in the recovery path: EP0 stalled
OUT then IN, the note last, Idle with nothing pending. -/
def Obligations.OneErrorPerEvent : Prop :=
  ∀ (i : Instr) (s t : State) (u : List Action) (c : Byte), format i ≠ .command → exec i s = .next t →
    t.trace = s.trace ++ u → Action.note c ∈ u →
    ∃ v, u = v ++ [.stallEndpoint ep0Out, .stallEndpoint ep0In, .note c] ∧ (∀ d, Action.note d ∉ v) ∧
      t.controlState = .idle ∧ t.pending = .none ∧ t.completion = none ∧ t.pendingAddress = none ∧ t.totalLen = 0

/-! ## Commands -/

/-- 43_public_api.md R256: a command is refused in this order (the recorded reason is the model's, log 8). -/
def Obligations.AdmissionOrder : Prop :=
  ∀ (i : Instr) (s : State) (r : RefuseReason), format i = .command → s.refused = false → admissionSpec i s = some r →
    exec i s = .next (refusedState r s)

/-- R240, R46: INIT gives every field its INIT value and emits nothing; an illegal EP0 size is a BAD_ARGUMENT, and inside a
callback INIT is REENTRANT. That it keeps the parameters, the trace, `returned`, the inputs and the waiting events is the model's
choice (log 20, log 4, log 14), and so is the recorded reason (log 8). -/
def Obligations.InitResult : Prop :=
  ∀ (cap : Word) (ep0 : Half) (s : State), s.refused = false →
    (s.ctx = .normal → (ep0 = 8 ∨ ep0 = 16 ∨ ep0 = 32 ∨ ep0 = 64) →
      ∃ (b : List Host.Cell) (q : ControlRequest) (n : Nat),
        exec (.init cap ep0) s =
          .next
            { controlState := .idle, deviceState := .default, activeConfig := 0, ep0PacketSize := ep0, maxDataSize := cap,
              dataBuffer := b, dataCursor := 0, transferredCount := 0, totalLen := 0, setup := q, pending := .none,
              pendingAddress := none, completion := none, halted := Vector.replicate 32 false, controlCb := none,
              configCb := none, descriptorCb := none, epHandler := Vector.replicate 16 none,
              evtHandler := { reset := none, suspend := none, resume := none }, initialised := true, ctx := .normal,
              refusedFor := s.refusedFor, trace := s.trace, returned := s.returned, cfg := s.cfg,
              env := { s.env with draws := n } }) ∧
      (s.ctx = .normal → ep0 ≠ 8 → ep0 ≠ 16 → ep0 ≠ 32 → ep0 ≠ 64 →
        exec (.init cap ep0) s = .next (refusedState .badArgument s)) ∧
      (s.ctx = .inCallback → exec (.init cap ep0) s = .next (refusedState .reentrant s))

/-- R242, R243, R244, R245, R246: each registration writes its own slot and nothing else, `none` unregisters; an endpoint number
the controller does not have is a reserved word. -/
def Obligations.Registering : Prop :=
  ∀ (s : State) (h : Option HandlerId), s.ready →
    exec (.regControl h) s = .next { s with controlCb := h } ∧ exec (.regConfig h) s = .next { s with configCb := h } ∧
      exec (.regDescriptor h) s = .next { s with descriptorCb := h } ∧
      exec (.regEvent .reset h) s = .next { s with evtHandler := { s.evtHandler with reset := h } } ∧
      exec (.regEvent .suspend h) s = .next { s with evtHandler := { s.evtHandler with suspend := h } } ∧
      exec (.regEvent .resume h) s = .next { s with evtHandler := { s.evtHandler with resume := h } } ∧
      ∀ n : BitVec 4,
        (n.toNat < s.cfg.numEp → exec (.regEndpoint n h) s = .next { s with epHandler := s.epHandler.set n.toNat h n.isLt }) ∧
          (s.cfg.numEp ≤ n.toNat → exec (.regEndpoint n h) s = .next (refusedState .reservedInput s))

/-- R247, R248, R251, R252: the endpoint commands on a valid endpoint other than number 0: one HAL action each; EP_STALL and
EP_UNSTALL also write that endpoint's halt bit and no other. On number 0 each is refused EP0_RESERVED. -/
def Obligations.EndpointCommands : Prop :=
  ∀ (s : State) (ep : EpAddr) (ty : EpType) (mps : Half), s.ready → ep.num.toNat < s.cfg.numEp →
    (ep.num ≠ 0 →
      exec (.epConfig ep ty mps) s = .next { s with trace := s.trace ++ [.configureEndpoint ep ty mps] } ∧
        exec (.epDeconfig ep) s = .next { s with trace := s.trace ++ [.deconfigureEndpoint ep] } ∧
        (∃ hv : Vector Bool 32,
          exec (.epStall ep) s = .next { s with trace := s.trace ++ [.stallEndpoint ep], halted := hv } ∧
            ∀ e : EpAddr, hv.get (haltIndex e) = if e = ep then true else s.halted.get (haltIndex e)) ∧
        ∃ hv : Vector Bool 32,
          exec (.epUnstall ep) s = .next { s with trace := s.trace ++ [.unstallEndpoint ep], halted := hv } ∧
            ∀ e : EpAddr, hv.get (haltIndex e) = if e = ep then false else s.halted.get (haltIndex e)) ∧
      (ep.num = 0 →
        exec (.epConfig ep ty mps) s = .next (refusedState .ep0Reserved s) ∧
          exec (.epDeconfig ep) s = .next (refusedState .ep0Reserved s) ∧
          exec (.epStall ep) s = .next (refusedState .ep0Reserved s) ∧
          exec (.epUnstall ep) s = .next (refusedState .ep0Reserved s))

/-- R249, R250, R255: EP_WRITE to an IN endpoint, EP_READ of an OUT endpoint and GET_INFO perform their HAL action and return
the HAL's result: the scripted one where there is one, else some value (log 5). -/
def Obligations.HalResults : Prop :=
  ∀ (s : State) (ep : EpAddr) (bs : List Byte), s.ready →
    (ep.num.toNat < s.cfg.numEp → ep.num ≠ 0 → ep.dir = .inn →
      ∃ (w : Word) (ws : List Word) (n : Nat),
        exec (.epWrite ep bs) s =
            .next
              { s with
                trace := s.trace ++ [.writeEndpoint ep bs (some w)]
                returned := .written w
                env := { s.env with writeResults := ws, draws := n } } ∧
          (s.env.writeResults ≠ [] → s.env.writeResults = w :: ws ∧ n = s.env.draws)) ∧
      (ep.num.toNat < s.cfg.numEp → ep.num ≠ 0 → ep.dir = .out →
        ∃ (r : List Byte) (rs : List (List Byte)) (n : Nat),
          exec (.epRead ep) s =
              .next
                { s with
                  trace := s.trace ++ [.readEndpoint ep r]
                  returned := .bytes r
                  env := { s.env with readResults := rs, draws := n } } ∧
            (s.env.readResults ≠ [] → s.env.readResults = r :: rs ∧ n = s.env.draws)) ∧
      ∃ (c : Nat) (cs : List Nat) (n : Nat),
        exec .getInfo s =
            .next
              { s with
                trace := s.trace ++ [.getInfo c]
                returned := .caps c
                env := { s.env with infoResults := cs, draws := n } } ∧
          (s.env.infoResults ≠ [] → s.env.infoResults = c :: cs ∧ n = s.env.draws)

/-- R253, R254: ENABLE and CONNECT emit their action and write no state. -/
def Obligations.EnableConnect : Prop :=
  ∀ (s : State) (b : Bool), s.ready →
    exec (.enable b) s = .next { s with trace := s.trace ++ [.enable b] } ∧
      exec (.connect b) s = .next { s with trace := s.trace ++ [.connect b] }

/-- 10_state.md R21: no command but INIT and POLL changes the engine, the sizes, the buffer or the modes. -/
def Obligations.CommandsKeepEngine : Prop :=
  ∀ (i : Instr) (s t : State), format i = .command → isInit i = false → isPoll i = false → exec i s = .next t → EngineKept s t

/-- 70_reset_and_hazards.md R347: no command but POLL, and no command of a callback, acts on endpoint number 0. -/
def Obligations.Ep0Ownership : Prop :=
  (∀ (i : Instr) (s t : State) (u : List Action), format i = .command → isPoll i = false → exec i s = .next t →
      t.trace = s.trace ++ u → ∀ a ∈ u, touchesEp0 a = false) ∧
    ∀ (cs : List Input) (s t : State) (u : List Action), runCalls cs s = .ok t → t.trace = s.trace ++ u →
      ∀ a ∈ u, touchesEp0 a = false

/-- R265: in a callback INIT and POLL are refused REENTRANT; a command that admission turns away outside, for EP0 or direction or
a reserved word, is turned away here with the same reason; every other command is allowed and is what it is outside; and no
command writes the engine. -/
def Obligations.CallbackCommands : Prop :=
  ∀ (s : State), s.refused = false → s.ctx = .inCallback →
    (∀ c : Input, s.initialised = true → (c.word = 0x1000 ∨ c.word = 0x1100) → runCall c s = .refused .reentrant s) ∧
      (∀ (c : Input) (i : Instr), decodeCommand s.limits c.word c.beside = .ok i →
        (∀ r, admissionSpec i s = some r → runCall c s = .refused r s) ∧
          (admissionSpec i s = none → ∃ t, exec i s = .next t ∧ t.refused = false ∧ runCall c s = .ok t)) ∧
      (∀ c : Input, s.initialised = true → wordClass c.word = 1 → 1 < (wordCode c.word).toNat →
        (∀ i, decodeCommand s.limits c.word c.beside ≠ .ok i) → runCall c s = .refused .reservedInput s) ∧
      ∀ (cs : List Input) (t : State), runCalls cs s = .ok t → EngineKept s t

/-! ## Device and endpoint events -/

/-- 42_event_dispatcher.md R213, 70_reset_and_hazards.md R342: what a bus reset leaves, the one HAL action, then the RESET
callback. -/
def Obligations.BusReset : Prop :=
  ∀ s : State, s.refused = false →
    (s.evtHandler.reset = none → exec .evtReset s = .next (busResetState s)) ∧
      ∀ (h : HandlerId) (a : HandlerAnswer) (rest : List HandlerAnswer) (u : State), s.evtHandler.reset = some h →
        s.env.answers = a :: rest → runCalls a.calls (calledState (.event h .reset) rest (busResetState s)) = .ok u →
        exec .evtReset s = .next { u with ctx := s.ctx }

/-- R215, R216, R223: SUSPEND and RESUME run their own callback where one is registered, and change nothing themselves. -/
def Obligations.SuspendResume : Prop :=
  ∀ s : State, s.refused = false →
    (s.evtHandler.suspend = none → exec .evtSuspend s = .next s) ∧ (s.evtHandler.resume = none → exec .evtResume s = .next s) ∧
      ∀ (h : HandlerId) (a : HandlerAnswer) (rest : List HandlerAnswer) (u : State), s.env.answers = a :: rest →
        (s.evtHandler.suspend = some h → runCalls a.calls (calledState (.event h .suspend) rest s) = .ok u →
          exec .evtSuspend s = .next { u with ctx := s.ctx }) ∧
          (s.evtHandler.resume = some h → runCalls a.calls (calledState (.event h .resume) rest s) = .ok u →
            exec .evtResume s = .next { u with ctx := s.ctx })

/-- R218, R219: a transfer-complete event of another endpoint runs the one handler of its number with RX or TX and the address;
without one it is dropped. -/
def Obligations.EndpointEvents : Prop :=
  ∀ (s : State) (n : BitVec 4), s.refused = false → n ≠ 0 → n.toNat < s.cfg.numEp →
    (s.epHandler[n.toNat]'n.isLt = none → exec (.evtEpnRx n) s = .next s ∧ exec (.evtEpnTx n) s = .next s) ∧
      ∀ (h : HandlerId) (a : HandlerAnswer) (rest : List HandlerAnswer) (u : State), s.epHandler[n.toNat]'n.isLt = some h →
        s.env.answers = a :: rest →
        (runCalls a.calls (calledState (.endpoint h .rx { dir := .out, num := n }) rest s) = .ok u →
          exec (.evtEpnRx n) s = .next { u with ctx := s.ctx }) ∧
          (runCalls a.calls (calledState (.endpoint h .tx { dir := .inn, num := n }) rest s) = .ok u →
            exec (.evtEpnTx n) s = .next { u with ctx := s.ctx })

/-- R217: no instruction ever invokes an endpoint callback for endpoint number 0. -/
def Obligations.Ep0HandlerNeverCalled : Prop :=
  ∀ (i : Instr) (s t : State) (u : List Action), exec i s = .next t → t.trace = s.trace ++ u →
    ∀ (h : HandlerId) (k : Transfer) (ep : EpAddr), Action.call (.endpoint h k ep) ∈ u → ep.num ≠ 0

/-! ## Requests -/

/-- 41_request_dispatcher.md R176: GET_STATUS by recipient. -/
def Obligations.GetStatus : Prop :=
  ∀ (d : Dir) (rcpt : BitVec 5) (s : State), s.refused = false → memWf s.dataBuffer = true →
    inFlight (.getStatus d rcpt) s →
    exec (.getStatus d rcpt) s =
      .next
        (if rcpt = 0 then
          ackState s.setup (some [s.cfg.deviceStatus.extractLsb' 0 8, s.cfg.deviceStatus.extractLsb' 8 8]) none s
        else if rcpt = 1 then ackState s.setup (some [0x00, 0x00]) none s
        else if rcpt = 2 ∧ validEpByte s.limits (s.setup.index.extractLsb' 0 8) then
          ackState s.setup
            (some
              [if s.setup.index.extractLsb' 0 4 ≠ 0 ∧
                    s.halted.get
                      (haltIndex { dir := dirOfBit (s.setup.index.getLsbD 7), num := s.setup.index.extractLsb' 0 4 }) = true
                then 0x01 else 0x00, 0x00])
            none s
        else stalledState 0x14 s)

/-- R182, R184: GET_CONFIGURATION answers the active configuration, GET_INTERFACE alternate setting 0. -/
def Obligations.GetConfigurationInterface : Prop :=
  ∀ (d : Dir) (rcpt : BitVec 5) (s : State), s.refused = false → memWf s.dataBuffer = true →
    (inFlight (.getConfiguration d rcpt) s →
      exec (.getConfiguration d rcpt) s = .next (ackState s.setup (some [s.activeConfig]) none s)) ∧
      (inFlight (.getInterface d rcpt) s →
        exec (.getInterface d rcpt) s = .next (ackState s.setup (some [0x00]) none s))

/-- R177, R178: CLEAR_FEATURE and SET_FEATURE act for ENDPOINT_HALT on a valid endpoint other than number 0: the HAL action, that
halt bit and no other; everything else is refused. -/
def Obligations.EndpointFeatures : Prop :=
  ∀ (d : Dir) (rcpt : BitVec 5) (s : State), s.refused = false → memWf s.dataBuffer = true →
    ∀ ep : EpAddr, ep = { dir := dirOfBit (s.setup.index.getLsbD 7), num := s.setup.index.extractLsb' 0 4 } →
    ((rcpt = 2 ∧ s.setup.value = 0 ∧ validEpByte s.limits (s.setup.index.extractLsb' 0 8) ∧ ep.num ≠ 0) →
      (inFlight (.clearFeature d rcpt) s →
        ∃ hv : Vector Bool 32,
          (∀ e : EpAddr, hv.get (haltIndex e) = if e = ep then false else s.halted.get (haltIndex e)) ∧
            exec (.clearFeature d rcpt) s =
              .next
                (ackState s.setup none none { s with trace := s.trace ++ [.unstallEndpoint ep], halted := hv })) ∧
        (inFlight (.setFeature d rcpt) s →
          ∃ hv : Vector Bool 32,
            (∀ e : EpAddr, hv.get (haltIndex e) = if e = ep then true else s.halted.get (haltIndex e)) ∧
              exec (.setFeature d rcpt) s =
                .next
                  (ackState s.setup none none { s with trace := s.trace ++ [.stallEndpoint ep], halted := hv }))) ∧
      (¬(rcpt = 2 ∧ s.setup.value = 0 ∧ validEpByte s.limits (s.setup.index.extractLsb' 0 8) ∧ ep.num ≠ 0) →
        (inFlight (.clearFeature d rcpt) s →
          exec (.clearFeature d rcpt) s = .next (stalledState 0x14 s)) ∧
          (inFlight (.setFeature d rcpt) s →
            exec (.setFeature d rcpt) s = .next (stalledState 0x14 s)))

/-- R179: SET_ADDRESS keeps the address for the status stage; a value above 127 and a Configured device are refused. The TX that
ends the status stage applies it: Addressed, or Default for address 0 (R138, R140). -/
def Obligations.SetAddress : Prop :=
  ∀ (d : Dir) (rcpt : BitVec 5) (s : State), s.refused = false → memWf s.dataBuffer = true →
    inFlight (.setAddress d rcpt) s →
    ((127 < s.setup.value.toNat ∨ s.deviceState = .configured) → exec (.setAddress d rcpt) s = .next (stalledState 0x14 s)) ∧
      (s.setup.value.toNat ≤ 127 → s.deviceState ≠ .configured →
        exec (.setAddress d rcpt) s =
            .next (ackState s.setup none none { s with pendingAddress := some (s.setup.value.extractLsb' 0 7) }) ∧
          (hasInData s.setup = false → 0 < s.cfg.numEp →
            ∃ t, exec (.setAddress d rcpt) s = .next t ∧
              exec .evtEp0Tx t =
                .next
                  { t with
                    controlState := .idle
                    pendingAddress := none
                    deviceState := if s.setup.value = 0 then .default else .addressed
                    trace := t.trace ++ [.setAddress (s.setup.value.extractLsb' 0 7)] }))

/-- R185, R186, R174: SET_INTERFACE accepts alternate setting 0 only; STD_OTHER and RESERVED_TYPE fail. -/
def Obligations.FixedVerdicts : Prop :=
  ∀ (c : Byte) (d : Dir) (rcpt : BitVec 5) (s : State), s.refused = false → memWf s.dataBuffer = true →
    (inFlight (.setInterface d rcpt) s →
      exec (.setInterface d rcpt) s =
        .next
          (if s.setup.value = 0 then ackState s.setup none none s
          else stalledState 0x14 s)) ∧
      (stdHandled c = false → inFlight (.stdOther c d rcpt) s →
        exec (.stdOther c d rcpt) s = .next (stalledState 0x15 s)) ∧
      (inFlight (.reservedType c d rcpt) s →
        exec (.reservedType c d rcpt) s = .next (stalledState 0x15 s))

/-- R173, R172, R171: class and vendor requests go to the control callback with the request and the OUT data, whatever they
hold; its commands run first, then its answer is the outcome. -/
def Obligations.ClassVendor : Prop :=
  ∀ (i : Instr) (s : State), (∃ (c : Byte) (d : Dir) (rcpt : BitVec 5), i = .classRequest c d rcpt ∨ i = .vendorRequest c d rcpt) →
    s.refused = false → memWf s.dataBuffer = true → inFlight i s →
    (s.controlCb = none → exec i s = .next (stalledState 0x13 s)) ∧
      ∀ (h : HandlerId) (a : HandlerAnswer) (rest : List HandlerAnswer) (u : State), s.controlCb = some h →
        s.env.answers = a :: rest →
        runCalls a.calls (calledState (.control h s.setup (outDataOf s.setup s)) rest s) = .ok u →
        exec i s = .next (answeredState s.setup a { u with ctx := s.ctx })

/-- R180, R181: GET_DESCRIPTOR and SET_DESCRIPTOR go to the descriptor callback; only SET_DESCRIPTOR passes the OUT data. -/
def Obligations.Descriptors : Prop :=
  ∀ (i : Instr) (set : Bool) (s : State),
    (∃ (d : Dir) (rcpt : BitVec 5), i = if set = true then .setDescriptor d rcpt else .getDescriptor d rcpt) →
    s.refused = false → memWf s.dataBuffer = true → inFlight i s →
    (s.descriptorCb = none → exec i s = .next (stalledState 0x13 s)) ∧
      ∀ (h : HandlerId) (a : HandlerAnswer) (rest : List HandlerAnswer) (u : State), s.descriptorCb = some h →
        s.env.answers = a :: rest →
        runCalls a.calls (calledState (.descriptor h s.setup (if set = true then outDataOf s.setup s else [])) rest s) = .ok u →
        exec i s = .next (answeredState s.setup a { u with ctx := s.ctx })

/-- R183: SET_CONFIGURATION: the refused values, the empty slot, and the configuration callback's answer. -/
def Obligations.SetConfiguration : Prop :=
  ∀ (d : Dir) (rcpt : BitVec 5) (s : State), s.refused = false → memWf s.dataBuffer = true →
    inFlight (.setConfiguration d rcpt) s → ∀ cfg : Byte, cfg = s.setup.value.extractLsb' 0 8 →
    ((255 < s.setup.value.toNat ∨ (s.deviceState = .default ∧ cfg ≠ 0)) →
      exec (.setConfiguration d rcpt) s = .next (stalledState 0x14 s)) ∧
      (s.setup.value.toNat ≤ 255 → (s.deviceState ≠ .default ∨ cfg = 0) →
        (s.configCb = none → exec (.setConfiguration d rcpt) s = .next (stalledState 0x13 s)) ∧
          ∀ (h : HandlerId) (a : HandlerAnswer) (rest : List HandlerAnswer) (u : State), s.configCb = some h →
            s.env.answers = a :: rest → runCalls a.calls (calledState (.config h cfg) rest s) = .ok u →
            exec (.setConfiguration d rcpt) s =
              .next
                (match a.respond with
                | .fail => stalledState 0x11 { u with ctx := s.ctx }
                | .nak => { u with ctx := s.ctx, pending := .fresh }
                | .ack =>
                  ackState s.setup none none
                    { u with
                      ctx := s.ctx
                      activeConfig := cfg
                      deviceState :=
                        if cfg = 0 then if s.deviceState = .default then .default else .addressed else .configured }))

/-- R264, R173, R180, R181, R183, R218, R219, R223: what each instruction that asks a callback ends in when the answer issues no
command: no premise but the registered handler and the answer. R264, R312: when a command of the answer is refused, the
instruction ends there, refused for that reason, whatever asked (that the context stays InCallback is the model's reading, log
18). The commands of an answer never end in a raise. -/
def Obligations.SilentCallbacks : Prop :=
  (∀ (s : State) (h : HandlerId) (a : HandlerAnswer) (rest : List HandlerAnswer), s.refused = false →
      memWf s.dataBuffer = true → s.env.answers = a :: rest → a.calls = [] →
      (∀ (i : Instr) (c : Byte) (d : Dir) (rcpt : BitVec 5), (i = .classRequest c d rcpt ∨ i = .vendorRequest c d rcpt) →
          inFlight i s → s.controlCb = some h →
          exec i s = .next (answeredState s.setup a (askedState (.control h s.setup (outDataOf s.setup s)) rest s))) ∧
        (∀ (d : Dir) (rcpt : BitVec 5), inFlight (.getDescriptor d rcpt) s → s.descriptorCb = some h →
          exec (.getDescriptor d rcpt) s = .next (answeredState s.setup a (askedState (.descriptor h s.setup []) rest s))) ∧
        (∀ (d : Dir) (rcpt : BitVec 5), inFlight (.setDescriptor d rcpt) s → s.descriptorCb = some h →
          exec (.setDescriptor d rcpt) s =
            .next (answeredState s.setup a (askedState (.descriptor h s.setup (outDataOf s.setup s)) rest s))) ∧
        (∀ (d : Dir) (rcpt : BitVec 5), inFlight (.setConfiguration d rcpt) s → s.configCb = some h →
          s.setup.value.toNat ≤ 255 → s.deviceState ≠ .default → a.respond = .ack →
          exec (.setConfiguration d rcpt) s =
            .next
              (ackState s.setup none none
                { (askedState (.config h (s.setup.value.extractLsb' 0 8)) rest s) with
                  activeConfig := s.setup.value.extractLsb' 0 8
                  deviceState := if s.setup.value = 0 then .addressed else .configured })) ∧
        (∀ n : BitVec 4, n ≠ 0 → n.toNat < s.cfg.numEp → s.epHandler[n.toNat]'n.isLt = some h →
          exec (.evtEpnRx n) s = .next (askedState (.endpoint h .rx { dir := .out, num := n }) rest s) ∧
            exec (.evtEpnTx n) s = .next (askedState (.endpoint h .tx { dir := .inn, num := n }) rest s)) ∧
        (s.evtHandler.reset = some h → exec .evtReset s = .next (askedState (.event h .reset) rest (busResetState s))) ∧
        (s.evtHandler.suspend = some h → exec .evtSuspend s = .next (askedState (.event h .suspend) rest s)) ∧
        (s.evtHandler.resume = some h → exec .evtResume s = .next (askedState (.event h .resume) rest s))) ∧
    (∀ (s u : State) (h : HandlerId) (a : HandlerAnswer) (rest : List HandlerAnswer) (r : RefuseReason), s.refused = false →
      s.env.answers = a :: rest →
      (∀ (i : Instr) (c : Byte) (d : Dir) (rcpt : BitVec 5), (i = .classRequest c d rcpt ∨ i = .vendorRequest c d rcpt) →
          inFlight i s → s.controlCb = some h → callRefused (.control h s.setup (outDataOf s.setup s)) a rest s r u →
          exec i s = .next (refusedState r u)) ∧
        (∀ (d : Dir) (rcpt : BitVec 5), inFlight (.getDescriptor d rcpt) s → s.descriptorCb = some h →
          callRefused (.descriptor h s.setup []) a rest s r u → exec (.getDescriptor d rcpt) s = .next (refusedState r u)) ∧
        (∀ (d : Dir) (rcpt : BitVec 5), inFlight (.setDescriptor d rcpt) s → s.descriptorCb = some h →
          callRefused (.descriptor h s.setup (outDataOf s.setup s)) a rest s r u →
          exec (.setDescriptor d rcpt) s = .next (refusedState r u)) ∧
        (∀ (d : Dir) (rcpt : BitVec 5), inFlight (.setConfiguration d rcpt) s → s.configCb = some h →
          s.setup.value.toNat ≤ 255 → (s.deviceState ≠ .default ∨ s.setup.value = 0) →
          callRefused (.config h (s.setup.value.extractLsb' 0 8)) a rest s r u →
          exec (.setConfiguration d rcpt) s = .next (refusedState r u)) ∧
        (∀ n : BitVec 4, n ≠ 0 → n.toNat < s.cfg.numEp → s.epHandler[n.toNat]'n.isLt = some h →
          (callRefused (.endpoint h .rx { dir := .out, num := n }) a rest s r u →
            exec (.evtEpnRx n) s = .next (refusedState r u)) ∧
            (callRefused (.endpoint h .tx { dir := .inn, num := n }) a rest s r u →
              exec (.evtEpnTx n) s = .next (refusedState r u))) ∧
        (s.evtHandler.reset = some h → callRefused (.event h .reset) a rest (busResetState s) r u →
          exec .evtReset s = .next (refusedState r u)) ∧
        (s.evtHandler.suspend = some h → callRefused (.event h .suspend) a rest s r u →
          exec .evtSuspend s = .next (refusedState r u)) ∧
        (s.evtHandler.resume = some h → callRefused (.event h .resume) a rest s r u →
          exec .evtResume s = .next (refusedState r u)) ∧
        ∀ tok : Token, 0 < s.cfg.numEp → s.pending = .none → s.completion = some tok →
          (s.controlState = .statusIn →
            callRefused (.complete tok s.setup) a rest
              { (addressedState { s with controlState := .idle }) with completion := none } r u →
            exec .evtEp0Tx s = .next (refusedState r u)) ∧
            (s.controlState = .statusOut →
              callRefused (.complete tok s.setup) a rest
                { (addressedState { s with trace := s.trace ++ [.readEndpoint ep0Out []], controlState := .idle }) with
                  completion := none } r u →
              exec (.evtEp0Rx []) s = .next (refusedState r u))) ∧
      ∀ (cs : List Input) (s u : State) (e : ErrCode), runCalls cs s ≠ .raised e u

/-- A request row executed by itself (log 12, the model's choice) is Dispatch with the row's key over the SETUP register's first
two bytes, the register kept: it always answers a next state, that of the request in flight. R61, R124, R313: OUT data outside
the buffer refuse BUFFER_BOUNDS, which no step reaches (BufferBoundsUnreachable). -/
def Obligations.RequestAlone : Prop :=
  ∀ (i : Instr) (s : State), format i = .request → s.refused = false →
    (∃ t, exec i { s with setup := withKey s.setup (encodeWord i) } = .next t ∧ exec i s = .next { t with setup := s.setup }) ∧
      (hasOutData (withKey s.setup (encodeWord i)) = true → s.maxDataSize.toNat < s.setup.length.toNat →
        exec i s = .next (refusedState .bufferBounds s))

/-! ## Whole-machine rules -/

/-- R145: a request without a data stage goes from Idle to StatusIn or stays in Idle, by itself or by its SETUP. -/
def Obligations.NoDataStageWithoutLength : Prop :=
  (∀ (i : Instr) (s t : State), format i = .request → s.controlState = .idle → s.setup.length = 0 → exec i s = .next t →
      t.controlState = .statusIn ∨ t.controlState = .idle) ∧
    ∀ (p : List Byte) (r : ControlRequest) (s t : State), parseSetup p = some r → r.length = 0 →
      exec (.evtSetup p) s = .next t → t.controlState = .statusIn ∨ t.controlState = .idle

/-- R146: in RxData of an initialised block every accepted packet moves the count on, and no callback is invoked unless it
completes the request. -/
def Obligations.RxCountsUp : Prop :=
  ∀ (p : List Byte) (s t : State), s.ready → blockInv s → s.controlState = .rxData → exec (.evtEp0Rx p) s = .next t →
    (t.refused = false → t.controlState = .rxData → s.transferredCount.toNat < t.transferredCount.toNat) ∧
      ∀ u, t.trace = s.trace ++ u → (∃ c, Action.call c ∈ u) →
        s.pending = .none ∧ s.transferredCount.toNat + p.length = s.setup.length.toNat

/-- R188: no event and no request takes the device from Default to Configured, and only a bus reset or an address of 0 takes it
to Default. -/
def Obligations.DeviceStateTransitions : Prop :=
  ∀ (i : Instr) (s t : State), format i ≠ .command → exec i s = .next t →
    (s.deviceState = .default → t.deviceState ≠ .configured) ∧
      (s.deviceState ≠ .default → t.deviceState = .default → i = .evtReset ∨ s.pendingAddress = some 0)

/-- R144: the packets of an IN data stage, the ZLP where one is due, and the status stage after them. -/
def Obligations.ZlpRule : Prop :=
  ∀ (L : Nat) (d : List Byte) (c : Option Token) (s : State), s.refused = false → 0 < s.cfg.numEp →
    memWf s.dataBuffer = true → 0 < s.ep0PacketSize.toNat → 0 < L → L < 65536 → min d.length L ≤ s.maxDataSize.toNat →
    ∃ u : State,
      txTimes ((inPackets L s.ep0PacketSize.toNat d).length - 1) (responseState L d c s) = .next u ∧
        u.trace = s.trace ++ (inPackets L s.ep0PacketSize.toNat d).map (fun bs => .writeEndpoint ep0In bs none) ∧
        u.controlState = .lastData ∧ exec .evtEp0Tx u = .next { u with controlState := .statusOut }

/-- 20_memory.md R63: bytes of the buffer that the transfer in flight has not written never matter: two states that differ only
in them do the same, with the same trace, for ever. -/
def Obligations.StaleBytesNeverMatter : Prop :=
  ∀ s s' t : State, s.Inv → s'.Inv → sameButStale s s' → step s = .next t → ∃ t', step s' = .next t' ∧ sameButStale t t'
end

