-- ==== Sys2Proof/Laws/State.lean ====
section
/-! SUPPORT. One lemma per field per update of State, so that no proof unfolds a record update. -/

namespace Sys2Proof.Machine

/-! ## emit -/

@[simp] theorem State.emit_controlState (s : State) (a : Action) : (s.emit a).controlState = s.controlState := rfl
@[simp] theorem State.emit_deviceState (s : State) (a : Action) : (s.emit a).deviceState = s.deviceState := rfl
@[simp] theorem State.emit_activeConfig (s : State) (a : Action) : (s.emit a).activeConfig = s.activeConfig := rfl
@[simp] theorem State.emit_ep0PacketSize (s : State) (a : Action) : (s.emit a).ep0PacketSize = s.ep0PacketSize := rfl
@[simp] theorem State.emit_maxDataSize (s : State) (a : Action) : (s.emit a).maxDataSize = s.maxDataSize := rfl
@[simp] theorem State.emit_dataBuffer (s : State) (a : Action) : (s.emit a).dataBuffer = s.dataBuffer := rfl
@[simp] theorem State.emit_dataCursor (s : State) (a : Action) : (s.emit a).dataCursor = s.dataCursor := rfl
@[simp] theorem State.emit_transferredCount (s : State) (a : Action) : (s.emit a).transferredCount = s.transferredCount := rfl
@[simp] theorem State.emit_totalLen (s : State) (a : Action) : (s.emit a).totalLen = s.totalLen := rfl
@[simp] theorem State.emit_setup (s : State) (a : Action) : (s.emit a).setup = s.setup := rfl
@[simp] theorem State.emit_pending (s : State) (a : Action) : (s.emit a).pending = s.pending := rfl
@[simp] theorem State.emit_pendingAddress (s : State) (a : Action) : (s.emit a).pendingAddress = s.pendingAddress := rfl
@[simp] theorem State.emit_completion (s : State) (a : Action) : (s.emit a).completion = s.completion := rfl
@[simp] theorem State.emit_halted (s : State) (a : Action) : (s.emit a).halted = s.halted := rfl
@[simp] theorem State.emit_controlCb (s : State) (a : Action) : (s.emit a).controlCb = s.controlCb := rfl
@[simp] theorem State.emit_configCb (s : State) (a : Action) : (s.emit a).configCb = s.configCb := rfl
@[simp] theorem State.emit_descriptorCb (s : State) (a : Action) : (s.emit a).descriptorCb = s.descriptorCb := rfl
@[simp] theorem State.emit_epHandler (s : State) (a : Action) : (s.emit a).epHandler = s.epHandler := rfl
@[simp] theorem State.emit_evtHandler (s : State) (a : Action) : (s.emit a).evtHandler = s.evtHandler := rfl
@[simp] theorem State.emit_initialised (s : State) (a : Action) : (s.emit a).initialised = s.initialised := rfl
@[simp] theorem State.emit_ctx (s : State) (a : Action) : (s.emit a).ctx = s.ctx := rfl
@[simp] theorem State.emit_refusedFor (s : State) (a : Action) : (s.emit a).refusedFor = s.refusedFor := rfl
@[simp] theorem State.emit_trace (s : State) (a : Action) : (s.emit a).trace = s.trace ++ [a] := rfl
@[simp] theorem State.emit_returned (s : State) (a : Action) : (s.emit a).returned = s.returned := rfl
@[simp] theorem State.emit_cfg (s : State) (a : Action) : (s.emit a).cfg = s.cfg := rfl
@[simp] theorem State.emit_env (s : State) (a : Action) : (s.emit a).env = s.env := rfl

/-! ## refuse -/

@[simp] theorem State.refuse_controlState (s : State) (r : RefuseReason) : (s.refuse r).controlState = s.controlState := rfl
@[simp] theorem State.refuse_deviceState (s : State) (r : RefuseReason) : (s.refuse r).deviceState = s.deviceState := rfl
@[simp] theorem State.refuse_activeConfig (s : State) (r : RefuseReason) : (s.refuse r).activeConfig = s.activeConfig := rfl
@[simp] theorem State.refuse_ep0PacketSize (s : State) (r : RefuseReason) : (s.refuse r).ep0PacketSize = s.ep0PacketSize := rfl
@[simp] theorem State.refuse_maxDataSize (s : State) (r : RefuseReason) : (s.refuse r).maxDataSize = s.maxDataSize := rfl
@[simp] theorem State.refuse_dataBuffer (s : State) (r : RefuseReason) : (s.refuse r).dataBuffer = s.dataBuffer := rfl
@[simp] theorem State.refuse_dataCursor (s : State) (r : RefuseReason) : (s.refuse r).dataCursor = s.dataCursor := rfl
@[simp] theorem State.refuse_transferredCount (s : State) (r : RefuseReason) : (s.refuse r).transferredCount = s.transferredCount := rfl
@[simp] theorem State.refuse_totalLen (s : State) (r : RefuseReason) : (s.refuse r).totalLen = s.totalLen := rfl
@[simp] theorem State.refuse_setup (s : State) (r : RefuseReason) : (s.refuse r).setup = s.setup := rfl
@[simp] theorem State.refuse_pending (s : State) (r : RefuseReason) : (s.refuse r).pending = s.pending := rfl
@[simp] theorem State.refuse_pendingAddress (s : State) (r : RefuseReason) : (s.refuse r).pendingAddress = s.pendingAddress := rfl
@[simp] theorem State.refuse_completion (s : State) (r : RefuseReason) : (s.refuse r).completion = s.completion := rfl
@[simp] theorem State.refuse_halted (s : State) (r : RefuseReason) : (s.refuse r).halted = s.halted := rfl
@[simp] theorem State.refuse_controlCb (s : State) (r : RefuseReason) : (s.refuse r).controlCb = s.controlCb := rfl
@[simp] theorem State.refuse_configCb (s : State) (r : RefuseReason) : (s.refuse r).configCb = s.configCb := rfl
@[simp] theorem State.refuse_descriptorCb (s : State) (r : RefuseReason) : (s.refuse r).descriptorCb = s.descriptorCb := rfl
@[simp] theorem State.refuse_epHandler (s : State) (r : RefuseReason) : (s.refuse r).epHandler = s.epHandler := rfl
@[simp] theorem State.refuse_evtHandler (s : State) (r : RefuseReason) : (s.refuse r).evtHandler = s.evtHandler := rfl
@[simp] theorem State.refuse_initialised (s : State) (r : RefuseReason) : (s.refuse r).initialised = s.initialised := rfl
@[simp] theorem State.refuse_ctx (s : State) (r : RefuseReason) : (s.refuse r).ctx = s.ctx := rfl
@[simp] theorem State.refuse_refusedFor (s : State) (r : RefuseReason) : (s.refuse r).refusedFor = some r := rfl
@[simp] theorem State.refuse_trace (s : State) (r : RefuseReason) : (s.refuse r).trace = s.trace := rfl
@[simp] theorem State.refuse_returned (s : State) (r : RefuseReason) : (s.refuse r).returned = s.returned := rfl
@[simp] theorem State.refuse_cfg (s : State) (r : RefuseReason) : (s.refuse r).cfg = s.cfg := rfl
@[simp] theorem State.refuse_env (s : State) (r : RefuseReason) : (s.refuse r).env = s.env := rfl

/-! ## setCtx -/

@[simp] theorem State.setCtx_controlState (s : State) (c : Context) : (s.setCtx c).controlState = s.controlState := rfl
@[simp] theorem State.setCtx_deviceState (s : State) (c : Context) : (s.setCtx c).deviceState = s.deviceState := rfl
@[simp] theorem State.setCtx_activeConfig (s : State) (c : Context) : (s.setCtx c).activeConfig = s.activeConfig := rfl
@[simp] theorem State.setCtx_ep0PacketSize (s : State) (c : Context) : (s.setCtx c).ep0PacketSize = s.ep0PacketSize := rfl
@[simp] theorem State.setCtx_maxDataSize (s : State) (c : Context) : (s.setCtx c).maxDataSize = s.maxDataSize := rfl
@[simp] theorem State.setCtx_dataBuffer (s : State) (c : Context) : (s.setCtx c).dataBuffer = s.dataBuffer := rfl
@[simp] theorem State.setCtx_dataCursor (s : State) (c : Context) : (s.setCtx c).dataCursor = s.dataCursor := rfl
@[simp] theorem State.setCtx_transferredCount (s : State) (c : Context) : (s.setCtx c).transferredCount = s.transferredCount := rfl
@[simp] theorem State.setCtx_totalLen (s : State) (c : Context) : (s.setCtx c).totalLen = s.totalLen := rfl
@[simp] theorem State.setCtx_setup (s : State) (c : Context) : (s.setCtx c).setup = s.setup := rfl
@[simp] theorem State.setCtx_pending (s : State) (c : Context) : (s.setCtx c).pending = s.pending := rfl
@[simp] theorem State.setCtx_pendingAddress (s : State) (c : Context) : (s.setCtx c).pendingAddress = s.pendingAddress := rfl
@[simp] theorem State.setCtx_completion (s : State) (c : Context) : (s.setCtx c).completion = s.completion := rfl
@[simp] theorem State.setCtx_halted (s : State) (c : Context) : (s.setCtx c).halted = s.halted := rfl
@[simp] theorem State.setCtx_controlCb (s : State) (c : Context) : (s.setCtx c).controlCb = s.controlCb := rfl
@[simp] theorem State.setCtx_configCb (s : State) (c : Context) : (s.setCtx c).configCb = s.configCb := rfl
@[simp] theorem State.setCtx_descriptorCb (s : State) (c : Context) : (s.setCtx c).descriptorCb = s.descriptorCb := rfl
@[simp] theorem State.setCtx_epHandler (s : State) (c : Context) : (s.setCtx c).epHandler = s.epHandler := rfl
@[simp] theorem State.setCtx_evtHandler (s : State) (c : Context) : (s.setCtx c).evtHandler = s.evtHandler := rfl
@[simp] theorem State.setCtx_initialised (s : State) (c : Context) : (s.setCtx c).initialised = s.initialised := rfl
@[simp] theorem State.setCtx_ctx (s : State) (c : Context) : (s.setCtx c).ctx = c := rfl
@[simp] theorem State.setCtx_refusedFor (s : State) (c : Context) : (s.setCtx c).refusedFor = s.refusedFor := rfl
@[simp] theorem State.setCtx_trace (s : State) (c : Context) : (s.setCtx c).trace = s.trace := rfl
@[simp] theorem State.setCtx_returned (s : State) (c : Context) : (s.setCtx c).returned = s.returned := rfl
@[simp] theorem State.setCtx_cfg (s : State) (c : Context) : (s.setCtx c).cfg = s.cfg := rfl
@[simp] theorem State.setCtx_env (s : State) (c : Context) : (s.setCtx c).env = s.env := rfl

/-! ## setHalt -/

@[simp] theorem State.setHalt_controlState (s : State) (ep : EpAddr) (b : Bool) : (s.setHalt ep b).controlState = s.controlState := rfl
@[simp] theorem State.setHalt_deviceState (s : State) (ep : EpAddr) (b : Bool) : (s.setHalt ep b).deviceState = s.deviceState := rfl
@[simp] theorem State.setHalt_activeConfig (s : State) (ep : EpAddr) (b : Bool) : (s.setHalt ep b).activeConfig = s.activeConfig := rfl
@[simp] theorem State.setHalt_ep0PacketSize (s : State) (ep : EpAddr) (b : Bool) : (s.setHalt ep b).ep0PacketSize = s.ep0PacketSize := rfl
@[simp] theorem State.setHalt_maxDataSize (s : State) (ep : EpAddr) (b : Bool) : (s.setHalt ep b).maxDataSize = s.maxDataSize := rfl
@[simp] theorem State.setHalt_dataBuffer (s : State) (ep : EpAddr) (b : Bool) : (s.setHalt ep b).dataBuffer = s.dataBuffer := rfl
@[simp] theorem State.setHalt_dataCursor (s : State) (ep : EpAddr) (b : Bool) : (s.setHalt ep b).dataCursor = s.dataCursor := rfl
@[simp] theorem State.setHalt_transferredCount (s : State) (ep : EpAddr) (b : Bool) : (s.setHalt ep b).transferredCount = s.transferredCount := rfl
@[simp] theorem State.setHalt_totalLen (s : State) (ep : EpAddr) (b : Bool) : (s.setHalt ep b).totalLen = s.totalLen := rfl
@[simp] theorem State.setHalt_setup (s : State) (ep : EpAddr) (b : Bool) : (s.setHalt ep b).setup = s.setup := rfl
@[simp] theorem State.setHalt_pending (s : State) (ep : EpAddr) (b : Bool) : (s.setHalt ep b).pending = s.pending := rfl
@[simp] theorem State.setHalt_pendingAddress (s : State) (ep : EpAddr) (b : Bool) : (s.setHalt ep b).pendingAddress = s.pendingAddress := rfl
@[simp] theorem State.setHalt_completion (s : State) (ep : EpAddr) (b : Bool) : (s.setHalt ep b).completion = s.completion := rfl
@[simp] theorem State.setHalt_halted (s : State) (ep : EpAddr) (b : Bool) : (s.setHalt ep b).halted = s.halted.set (haltIndex ep).val b (haltIndex ep).isLt := rfl
@[simp] theorem State.setHalt_controlCb (s : State) (ep : EpAddr) (b : Bool) : (s.setHalt ep b).controlCb = s.controlCb := rfl
@[simp] theorem State.setHalt_configCb (s : State) (ep : EpAddr) (b : Bool) : (s.setHalt ep b).configCb = s.configCb := rfl
@[simp] theorem State.setHalt_descriptorCb (s : State) (ep : EpAddr) (b : Bool) : (s.setHalt ep b).descriptorCb = s.descriptorCb := rfl
@[simp] theorem State.setHalt_epHandler (s : State) (ep : EpAddr) (b : Bool) : (s.setHalt ep b).epHandler = s.epHandler := rfl
@[simp] theorem State.setHalt_evtHandler (s : State) (ep : EpAddr) (b : Bool) : (s.setHalt ep b).evtHandler = s.evtHandler := rfl
@[simp] theorem State.setHalt_initialised (s : State) (ep : EpAddr) (b : Bool) : (s.setHalt ep b).initialised = s.initialised := rfl
@[simp] theorem State.setHalt_ctx (s : State) (ep : EpAddr) (b : Bool) : (s.setHalt ep b).ctx = s.ctx := rfl
@[simp] theorem State.setHalt_refusedFor (s : State) (ep : EpAddr) (b : Bool) : (s.setHalt ep b).refusedFor = s.refusedFor := rfl
@[simp] theorem State.setHalt_trace (s : State) (ep : EpAddr) (b : Bool) : (s.setHalt ep b).trace = s.trace := rfl
@[simp] theorem State.setHalt_returned (s : State) (ep : EpAddr) (b : Bool) : (s.setHalt ep b).returned = s.returned := rfl
@[simp] theorem State.setHalt_cfg (s : State) (ep : EpAddr) (b : Bool) : (s.setHalt ep b).cfg = s.cfg := rfl
@[simp] theorem State.setHalt_env (s : State) (ep : EpAddr) (b : Bool) : (s.setHalt ep b).env = s.env := rfl

/-! ## setEpCb -/

@[simp] theorem State.setEpCb_controlState (s : State) (n : BitVec 4) (h : Option HandlerId) : (s.setEpCb n h).controlState = s.controlState := rfl
@[simp] theorem State.setEpCb_deviceState (s : State) (n : BitVec 4) (h : Option HandlerId) : (s.setEpCb n h).deviceState = s.deviceState := rfl
@[simp] theorem State.setEpCb_activeConfig (s : State) (n : BitVec 4) (h : Option HandlerId) : (s.setEpCb n h).activeConfig = s.activeConfig := rfl
@[simp] theorem State.setEpCb_ep0PacketSize (s : State) (n : BitVec 4) (h : Option HandlerId) : (s.setEpCb n h).ep0PacketSize = s.ep0PacketSize := rfl
@[simp] theorem State.setEpCb_maxDataSize (s : State) (n : BitVec 4) (h : Option HandlerId) : (s.setEpCb n h).maxDataSize = s.maxDataSize := rfl
@[simp] theorem State.setEpCb_dataBuffer (s : State) (n : BitVec 4) (h : Option HandlerId) : (s.setEpCb n h).dataBuffer = s.dataBuffer := rfl
@[simp] theorem State.setEpCb_dataCursor (s : State) (n : BitVec 4) (h : Option HandlerId) : (s.setEpCb n h).dataCursor = s.dataCursor := rfl
@[simp] theorem State.setEpCb_transferredCount (s : State) (n : BitVec 4) (h : Option HandlerId) : (s.setEpCb n h).transferredCount = s.transferredCount := rfl
@[simp] theorem State.setEpCb_totalLen (s : State) (n : BitVec 4) (h : Option HandlerId) : (s.setEpCb n h).totalLen = s.totalLen := rfl
@[simp] theorem State.setEpCb_setup (s : State) (n : BitVec 4) (h : Option HandlerId) : (s.setEpCb n h).setup = s.setup := rfl
@[simp] theorem State.setEpCb_pending (s : State) (n : BitVec 4) (h : Option HandlerId) : (s.setEpCb n h).pending = s.pending := rfl
@[simp] theorem State.setEpCb_pendingAddress (s : State) (n : BitVec 4) (h : Option HandlerId) : (s.setEpCb n h).pendingAddress = s.pendingAddress := rfl
@[simp] theorem State.setEpCb_completion (s : State) (n : BitVec 4) (h : Option HandlerId) : (s.setEpCb n h).completion = s.completion := rfl
@[simp] theorem State.setEpCb_halted (s : State) (n : BitVec 4) (h : Option HandlerId) : (s.setEpCb n h).halted = s.halted := rfl
@[simp] theorem State.setEpCb_controlCb (s : State) (n : BitVec 4) (h : Option HandlerId) : (s.setEpCb n h).controlCb = s.controlCb := rfl
@[simp] theorem State.setEpCb_configCb (s : State) (n : BitVec 4) (h : Option HandlerId) : (s.setEpCb n h).configCb = s.configCb := rfl
@[simp] theorem State.setEpCb_descriptorCb (s : State) (n : BitVec 4) (h : Option HandlerId) : (s.setEpCb n h).descriptorCb = s.descriptorCb := rfl
@[simp] theorem State.setEpCb_epHandler (s : State) (n : BitVec 4) (h : Option HandlerId) : (s.setEpCb n h).epHandler = s.epHandler.set (epSlot n).val h (epSlot n).isLt := rfl
@[simp] theorem State.setEpCb_evtHandler (s : State) (n : BitVec 4) (h : Option HandlerId) : (s.setEpCb n h).evtHandler = s.evtHandler := rfl
@[simp] theorem State.setEpCb_initialised (s : State) (n : BitVec 4) (h : Option HandlerId) : (s.setEpCb n h).initialised = s.initialised := rfl
@[simp] theorem State.setEpCb_ctx (s : State) (n : BitVec 4) (h : Option HandlerId) : (s.setEpCb n h).ctx = s.ctx := rfl
@[simp] theorem State.setEpCb_refusedFor (s : State) (n : BitVec 4) (h : Option HandlerId) : (s.setEpCb n h).refusedFor = s.refusedFor := rfl
@[simp] theorem State.setEpCb_trace (s : State) (n : BitVec 4) (h : Option HandlerId) : (s.setEpCb n h).trace = s.trace := rfl
@[simp] theorem State.setEpCb_returned (s : State) (n : BitVec 4) (h : Option HandlerId) : (s.setEpCb n h).returned = s.returned := rfl
@[simp] theorem State.setEpCb_cfg (s : State) (n : BitVec 4) (h : Option HandlerId) : (s.setEpCb n h).cfg = s.cfg := rfl
@[simp] theorem State.setEpCb_env (s : State) (n : BitVec 4) (h : Option HandlerId) : (s.setEpCb n h).env = s.env := rfl

/-! ## setEvtCb -/

@[simp] theorem State.setEvtCb_controlState (s : State) (e : DeviceEvent) (h : Option HandlerId) : (s.setEvtCb e h).controlState = s.controlState := by cases e <;> rfl
@[simp] theorem State.setEvtCb_deviceState (s : State) (e : DeviceEvent) (h : Option HandlerId) : (s.setEvtCb e h).deviceState = s.deviceState := by cases e <;> rfl
@[simp] theorem State.setEvtCb_activeConfig (s : State) (e : DeviceEvent) (h : Option HandlerId) : (s.setEvtCb e h).activeConfig = s.activeConfig := by cases e <;> rfl
@[simp] theorem State.setEvtCb_ep0PacketSize (s : State) (e : DeviceEvent) (h : Option HandlerId) : (s.setEvtCb e h).ep0PacketSize = s.ep0PacketSize := by cases e <;> rfl
@[simp] theorem State.setEvtCb_maxDataSize (s : State) (e : DeviceEvent) (h : Option HandlerId) : (s.setEvtCb e h).maxDataSize = s.maxDataSize := by cases e <;> rfl
@[simp] theorem State.setEvtCb_dataBuffer (s : State) (e : DeviceEvent) (h : Option HandlerId) : (s.setEvtCb e h).dataBuffer = s.dataBuffer := by cases e <;> rfl
@[simp] theorem State.setEvtCb_dataCursor (s : State) (e : DeviceEvent) (h : Option HandlerId) : (s.setEvtCb e h).dataCursor = s.dataCursor := by cases e <;> rfl
@[simp] theorem State.setEvtCb_transferredCount (s : State) (e : DeviceEvent) (h : Option HandlerId) : (s.setEvtCb e h).transferredCount = s.transferredCount := by cases e <;> rfl
@[simp] theorem State.setEvtCb_totalLen (s : State) (e : DeviceEvent) (h : Option HandlerId) : (s.setEvtCb e h).totalLen = s.totalLen := by cases e <;> rfl
@[simp] theorem State.setEvtCb_setup (s : State) (e : DeviceEvent) (h : Option HandlerId) : (s.setEvtCb e h).setup = s.setup := by cases e <;> rfl
@[simp] theorem State.setEvtCb_pending (s : State) (e : DeviceEvent) (h : Option HandlerId) : (s.setEvtCb e h).pending = s.pending := by cases e <;> rfl
@[simp] theorem State.setEvtCb_pendingAddress (s : State) (e : DeviceEvent) (h : Option HandlerId) : (s.setEvtCb e h).pendingAddress = s.pendingAddress := by cases e <;> rfl
@[simp] theorem State.setEvtCb_completion (s : State) (e : DeviceEvent) (h : Option HandlerId) : (s.setEvtCb e h).completion = s.completion := by cases e <;> rfl
@[simp] theorem State.setEvtCb_halted (s : State) (e : DeviceEvent) (h : Option HandlerId) : (s.setEvtCb e h).halted = s.halted := by cases e <;> rfl
@[simp] theorem State.setEvtCb_controlCb (s : State) (e : DeviceEvent) (h : Option HandlerId) : (s.setEvtCb e h).controlCb = s.controlCb := by cases e <;> rfl
@[simp] theorem State.setEvtCb_configCb (s : State) (e : DeviceEvent) (h : Option HandlerId) : (s.setEvtCb e h).configCb = s.configCb := by cases e <;> rfl
@[simp] theorem State.setEvtCb_descriptorCb (s : State) (e : DeviceEvent) (h : Option HandlerId) : (s.setEvtCb e h).descriptorCb = s.descriptorCb := by cases e <;> rfl
@[simp] theorem State.setEvtCb_epHandler (s : State) (e : DeviceEvent) (h : Option HandlerId) : (s.setEvtCb e h).epHandler = s.epHandler := by cases e <;> rfl
@[simp] theorem State.setEvtCb_initialised (s : State) (e : DeviceEvent) (h : Option HandlerId) : (s.setEvtCb e h).initialised = s.initialised := by cases e <;> rfl
@[simp] theorem State.setEvtCb_ctx (s : State) (e : DeviceEvent) (h : Option HandlerId) : (s.setEvtCb e h).ctx = s.ctx := by cases e <;> rfl
@[simp] theorem State.setEvtCb_refusedFor (s : State) (e : DeviceEvent) (h : Option HandlerId) : (s.setEvtCb e h).refusedFor = s.refusedFor := by cases e <;> rfl
@[simp] theorem State.setEvtCb_trace (s : State) (e : DeviceEvent) (h : Option HandlerId) : (s.setEvtCb e h).trace = s.trace := by cases e <;> rfl
@[simp] theorem State.setEvtCb_returned (s : State) (e : DeviceEvent) (h : Option HandlerId) : (s.setEvtCb e h).returned = s.returned := by cases e <;> rfl
@[simp] theorem State.setEvtCb_cfg (s : State) (e : DeviceEvent) (h : Option HandlerId) : (s.setEvtCb e h).cfg = s.cfg := by cases e <;> rfl
@[simp] theorem State.setEvtCb_env (s : State) (e : DeviceEvent) (h : Option HandlerId) : (s.setEvtCb e h).env = s.env := by cases e <;> rfl

/-! ## writeEp0 -/

@[simp] theorem State.writeEp0_controlState (s : State) (bs : List Byte) : (s.writeEp0 bs).controlState = s.controlState := rfl
@[simp] theorem State.writeEp0_deviceState (s : State) (bs : List Byte) : (s.writeEp0 bs).deviceState = s.deviceState := rfl
@[simp] theorem State.writeEp0_activeConfig (s : State) (bs : List Byte) : (s.writeEp0 bs).activeConfig = s.activeConfig := rfl
@[simp] theorem State.writeEp0_ep0PacketSize (s : State) (bs : List Byte) : (s.writeEp0 bs).ep0PacketSize = s.ep0PacketSize := rfl
@[simp] theorem State.writeEp0_maxDataSize (s : State) (bs : List Byte) : (s.writeEp0 bs).maxDataSize = s.maxDataSize := rfl
@[simp] theorem State.writeEp0_dataBuffer (s : State) (bs : List Byte) : (s.writeEp0 bs).dataBuffer = s.dataBuffer := rfl
@[simp] theorem State.writeEp0_dataCursor (s : State) (bs : List Byte) : (s.writeEp0 bs).dataCursor = s.dataCursor := rfl
@[simp] theorem State.writeEp0_transferredCount (s : State) (bs : List Byte) : (s.writeEp0 bs).transferredCount = s.transferredCount := rfl
@[simp] theorem State.writeEp0_totalLen (s : State) (bs : List Byte) : (s.writeEp0 bs).totalLen = s.totalLen := rfl
@[simp] theorem State.writeEp0_setup (s : State) (bs : List Byte) : (s.writeEp0 bs).setup = s.setup := rfl
@[simp] theorem State.writeEp0_pending (s : State) (bs : List Byte) : (s.writeEp0 bs).pending = s.pending := rfl
@[simp] theorem State.writeEp0_pendingAddress (s : State) (bs : List Byte) : (s.writeEp0 bs).pendingAddress = s.pendingAddress := rfl
@[simp] theorem State.writeEp0_completion (s : State) (bs : List Byte) : (s.writeEp0 bs).completion = s.completion := rfl
@[simp] theorem State.writeEp0_halted (s : State) (bs : List Byte) : (s.writeEp0 bs).halted = s.halted := rfl
@[simp] theorem State.writeEp0_controlCb (s : State) (bs : List Byte) : (s.writeEp0 bs).controlCb = s.controlCb := rfl
@[simp] theorem State.writeEp0_configCb (s : State) (bs : List Byte) : (s.writeEp0 bs).configCb = s.configCb := rfl
@[simp] theorem State.writeEp0_descriptorCb (s : State) (bs : List Byte) : (s.writeEp0 bs).descriptorCb = s.descriptorCb := rfl
@[simp] theorem State.writeEp0_epHandler (s : State) (bs : List Byte) : (s.writeEp0 bs).epHandler = s.epHandler := rfl
@[simp] theorem State.writeEp0_evtHandler (s : State) (bs : List Byte) : (s.writeEp0 bs).evtHandler = s.evtHandler := rfl
@[simp] theorem State.writeEp0_initialised (s : State) (bs : List Byte) : (s.writeEp0 bs).initialised = s.initialised := rfl
@[simp] theorem State.writeEp0_ctx (s : State) (bs : List Byte) : (s.writeEp0 bs).ctx = s.ctx := rfl
@[simp] theorem State.writeEp0_refusedFor (s : State) (bs : List Byte) : (s.writeEp0 bs).refusedFor = s.refusedFor := rfl
@[simp] theorem State.writeEp0_trace (s : State) (bs : List Byte) : (s.writeEp0 bs).trace = s.trace ++ [.writeEndpoint ep0In bs none] := rfl
@[simp] theorem State.writeEp0_returned (s : State) (bs : List Byte) : (s.writeEp0 bs).returned = s.returned := rfl
@[simp] theorem State.writeEp0_cfg (s : State) (bs : List Byte) : (s.writeEp0 bs).cfg = s.cfg := rfl
@[simp] theorem State.writeEp0_env (s : State) (bs : List Byte) : (s.writeEp0 bs).env = s.env := rfl

/-! ## cancelTransfer -/

@[simp] theorem cancelTransfer_controlState (s : State) : (cancelTransfer s).controlState = .idle := rfl
@[simp] theorem cancelTransfer_deviceState (s : State) : (cancelTransfer s).deviceState = s.deviceState := rfl
@[simp] theorem cancelTransfer_activeConfig (s : State) : (cancelTransfer s).activeConfig = s.activeConfig := rfl
@[simp] theorem cancelTransfer_ep0PacketSize (s : State) : (cancelTransfer s).ep0PacketSize = s.ep0PacketSize := rfl
@[simp] theorem cancelTransfer_maxDataSize (s : State) : (cancelTransfer s).maxDataSize = s.maxDataSize := rfl
@[simp] theorem cancelTransfer_dataBuffer (s : State) : (cancelTransfer s).dataBuffer = s.dataBuffer := rfl
@[simp] theorem cancelTransfer_dataCursor (s : State) : (cancelTransfer s).dataCursor = 0 := rfl
@[simp] theorem cancelTransfer_transferredCount (s : State) : (cancelTransfer s).transferredCount = 0 := rfl
@[simp] theorem cancelTransfer_totalLen (s : State) : (cancelTransfer s).totalLen = 0 := rfl
@[simp] theorem cancelTransfer_setup (s : State) : (cancelTransfer s).setup = s.setup := rfl
@[simp] theorem cancelTransfer_pending (s : State) : (cancelTransfer s).pending = .none := rfl
@[simp] theorem cancelTransfer_pendingAddress (s : State) : (cancelTransfer s).pendingAddress = none := rfl
@[simp] theorem cancelTransfer_completion (s : State) : (cancelTransfer s).completion = none := rfl
@[simp] theorem cancelTransfer_halted (s : State) : (cancelTransfer s).halted = s.halted := rfl
@[simp] theorem cancelTransfer_controlCb (s : State) : (cancelTransfer s).controlCb = s.controlCb := rfl
@[simp] theorem cancelTransfer_configCb (s : State) : (cancelTransfer s).configCb = s.configCb := rfl
@[simp] theorem cancelTransfer_descriptorCb (s : State) : (cancelTransfer s).descriptorCb = s.descriptorCb := rfl
@[simp] theorem cancelTransfer_epHandler (s : State) : (cancelTransfer s).epHandler = s.epHandler := rfl
@[simp] theorem cancelTransfer_evtHandler (s : State) : (cancelTransfer s).evtHandler = s.evtHandler := rfl
@[simp] theorem cancelTransfer_initialised (s : State) : (cancelTransfer s).initialised = s.initialised := rfl
@[simp] theorem cancelTransfer_ctx (s : State) : (cancelTransfer s).ctx = s.ctx := rfl
@[simp] theorem cancelTransfer_refusedFor (s : State) : (cancelTransfer s).refusedFor = s.refusedFor := rfl
@[simp] theorem cancelTransfer_trace (s : State) : (cancelTransfer s).trace = s.trace := rfl
@[simp] theorem cancelTransfer_returned (s : State) : (cancelTransfer s).returned = s.returned := rfl
@[simp] theorem cancelTransfer_cfg (s : State) : (cancelTransfer s).cfg = s.cfg := rfl
@[simp] theorem cancelTransfer_env (s : State) : (cancelTransfer s).env = s.env := rfl

/-! ## stallControl -/

@[simp] theorem stallControl_controlState (e : ErrCode) (s : State) : (stallControl e s).controlState = .idle := rfl
@[simp] theorem stallControl_deviceState (e : ErrCode) (s : State) : (stallControl e s).deviceState = s.deviceState := rfl
@[simp] theorem stallControl_activeConfig (e : ErrCode) (s : State) : (stallControl e s).activeConfig = s.activeConfig := rfl
@[simp] theorem stallControl_ep0PacketSize (e : ErrCode) (s : State) : (stallControl e s).ep0PacketSize = s.ep0PacketSize := rfl
@[simp] theorem stallControl_maxDataSize (e : ErrCode) (s : State) : (stallControl e s).maxDataSize = s.maxDataSize := rfl
@[simp] theorem stallControl_dataBuffer (e : ErrCode) (s : State) : (stallControl e s).dataBuffer = s.dataBuffer := rfl
@[simp] theorem stallControl_dataCursor (e : ErrCode) (s : State) : (stallControl e s).dataCursor = 0 := rfl
@[simp] theorem stallControl_transferredCount (e : ErrCode) (s : State) : (stallControl e s).transferredCount = 0 := rfl
@[simp] theorem stallControl_totalLen (e : ErrCode) (s : State) : (stallControl e s).totalLen = 0 := rfl
@[simp] theorem stallControl_setup (e : ErrCode) (s : State) : (stallControl e s).setup = s.setup := rfl
@[simp] theorem stallControl_pending (e : ErrCode) (s : State) : (stallControl e s).pending = .none := rfl
@[simp] theorem stallControl_pendingAddress (e : ErrCode) (s : State) : (stallControl e s).pendingAddress = none := rfl
@[simp] theorem stallControl_completion (e : ErrCode) (s : State) : (stallControl e s).completion = none := rfl
@[simp] theorem stallControl_halted (e : ErrCode) (s : State) : (stallControl e s).halted = s.halted := rfl
@[simp] theorem stallControl_controlCb (e : ErrCode) (s : State) : (stallControl e s).controlCb = s.controlCb := rfl
@[simp] theorem stallControl_configCb (e : ErrCode) (s : State) : (stallControl e s).configCb = s.configCb := rfl
@[simp] theorem stallControl_descriptorCb (e : ErrCode) (s : State) : (stallControl e s).descriptorCb = s.descriptorCb := rfl
@[simp] theorem stallControl_epHandler (e : ErrCode) (s : State) : (stallControl e s).epHandler = s.epHandler := rfl
@[simp] theorem stallControl_evtHandler (e : ErrCode) (s : State) : (stallControl e s).evtHandler = s.evtHandler := rfl
@[simp] theorem stallControl_initialised (e : ErrCode) (s : State) : (stallControl e s).initialised = s.initialised := rfl
@[simp] theorem stallControl_ctx (e : ErrCode) (s : State) : (stallControl e s).ctx = s.ctx := rfl
@[simp] theorem stallControl_refusedFor (e : ErrCode) (s : State) : (stallControl e s).refusedFor = s.refusedFor := rfl
@[simp] theorem stallControl_trace (e : ErrCode) (s : State) : (stallControl e s).trace = s.trace ++ [.stallEndpoint ep0Out, .stallEndpoint ep0In, .note (errNumber e)] := by simp [stallControl, cancelTransfer, State.emit]
@[simp] theorem stallControl_returned (e : ErrCode) (s : State) : (stallControl e s).returned = s.returned := rfl
@[simp] theorem stallControl_cfg (e : ErrCode) (s : State) : (stallControl e s).cfg = s.cfg := rfl
@[simp] theorem stallControl_env (e : ErrCode) (s : State) : (stallControl e s).env = s.env := rfl

/-! ## busReset -/

@[simp] theorem busReset_controlState (s : State) : (busReset s).controlState = .idle := rfl
@[simp] theorem busReset_deviceState (s : State) : (busReset s).deviceState = .default := rfl
@[simp] theorem busReset_activeConfig (s : State) : (busReset s).activeConfig = 0 := rfl
@[simp] theorem busReset_ep0PacketSize (s : State) : (busReset s).ep0PacketSize = s.ep0PacketSize := rfl
@[simp] theorem busReset_maxDataSize (s : State) : (busReset s).maxDataSize = s.maxDataSize := rfl
@[simp] theorem busReset_dataBuffer (s : State) : (busReset s).dataBuffer = s.dataBuffer := rfl
@[simp] theorem busReset_dataCursor (s : State) : (busReset s).dataCursor = 0 := rfl
@[simp] theorem busReset_transferredCount (s : State) : (busReset s).transferredCount = 0 := rfl
@[simp] theorem busReset_totalLen (s : State) : (busReset s).totalLen = 0 := rfl
@[simp] theorem busReset_setup (s : State) : (busReset s).setup = s.setup := rfl
@[simp] theorem busReset_pending (s : State) : (busReset s).pending = .none := rfl
@[simp] theorem busReset_pendingAddress (s : State) : (busReset s).pendingAddress = none := rfl
@[simp] theorem busReset_completion (s : State) : (busReset s).completion = none := rfl
@[simp] theorem busReset_halted (s : State) : (busReset s).halted = Vector.replicate 32 false := rfl
@[simp] theorem busReset_controlCb (s : State) : (busReset s).controlCb = s.controlCb := rfl
@[simp] theorem busReset_configCb (s : State) : (busReset s).configCb = s.configCb := rfl
@[simp] theorem busReset_descriptorCb (s : State) : (busReset s).descriptorCb = s.descriptorCb := rfl
@[simp] theorem busReset_epHandler (s : State) : (busReset s).epHandler = s.epHandler := rfl
@[simp] theorem busReset_evtHandler (s : State) : (busReset s).evtHandler = s.evtHandler := rfl
@[simp] theorem busReset_initialised (s : State) : (busReset s).initialised = s.initialised := rfl
@[simp] theorem busReset_ctx (s : State) : (busReset s).ctx = s.ctx := rfl
@[simp] theorem busReset_refusedFor (s : State) : (busReset s).refusedFor = s.refusedFor := rfl
@[simp] theorem busReset_trace (s : State) : (busReset s).trace = s.trace ++ [.configureEndpoint ep0Out .control s.ep0PacketSize] := rfl
@[simp] theorem busReset_returned (s : State) : (busReset s).returned = s.returned := rfl
@[simp] theorem busReset_cfg (s : State) : (busReset s).cfg = s.cfg := rfl
@[simp] theorem busReset_env (s : State) : (busReset s).env = s.env := rfl

/-! ## configure -/

@[simp] theorem configure_controlState (c : Byte) (s : State) : (configure c s).controlState = s.controlState := rfl
@[simp] theorem configure_deviceState (c : Byte) (s : State) : (configure c s).deviceState = if c = 0 then (if s.deviceState = .default then .default else .addressed) else .configured := rfl
@[simp] theorem configure_activeConfig (c : Byte) (s : State) : (configure c s).activeConfig = c := rfl
@[simp] theorem configure_ep0PacketSize (c : Byte) (s : State) : (configure c s).ep0PacketSize = s.ep0PacketSize := rfl
@[simp] theorem configure_maxDataSize (c : Byte) (s : State) : (configure c s).maxDataSize = s.maxDataSize := rfl
@[simp] theorem configure_dataBuffer (c : Byte) (s : State) : (configure c s).dataBuffer = s.dataBuffer := rfl
@[simp] theorem configure_dataCursor (c : Byte) (s : State) : (configure c s).dataCursor = s.dataCursor := rfl
@[simp] theorem configure_transferredCount (c : Byte) (s : State) : (configure c s).transferredCount = s.transferredCount := rfl
@[simp] theorem configure_totalLen (c : Byte) (s : State) : (configure c s).totalLen = s.totalLen := rfl
@[simp] theorem configure_setup (c : Byte) (s : State) : (configure c s).setup = s.setup := rfl
@[simp] theorem configure_pending (c : Byte) (s : State) : (configure c s).pending = s.pending := rfl
@[simp] theorem configure_pendingAddress (c : Byte) (s : State) : (configure c s).pendingAddress = s.pendingAddress := rfl
@[simp] theorem configure_completion (c : Byte) (s : State) : (configure c s).completion = s.completion := rfl
@[simp] theorem configure_halted (c : Byte) (s : State) : (configure c s).halted = s.halted := rfl
@[simp] theorem configure_controlCb (c : Byte) (s : State) : (configure c s).controlCb = s.controlCb := rfl
@[simp] theorem configure_configCb (c : Byte) (s : State) : (configure c s).configCb = s.configCb := rfl
@[simp] theorem configure_descriptorCb (c : Byte) (s : State) : (configure c s).descriptorCb = s.descriptorCb := rfl
@[simp] theorem configure_epHandler (c : Byte) (s : State) : (configure c s).epHandler = s.epHandler := rfl
@[simp] theorem configure_evtHandler (c : Byte) (s : State) : (configure c s).evtHandler = s.evtHandler := rfl
@[simp] theorem configure_initialised (c : Byte) (s : State) : (configure c s).initialised = s.initialised := rfl
@[simp] theorem configure_ctx (c : Byte) (s : State) : (configure c s).ctx = s.ctx := rfl
@[simp] theorem configure_refusedFor (c : Byte) (s : State) : (configure c s).refusedFor = s.refusedFor := rfl
@[simp] theorem configure_trace (c : Byte) (s : State) : (configure c s).trace = s.trace := rfl
@[simp] theorem configure_returned (c : Byte) (s : State) : (configure c s).returned = s.returned := rfl
@[simp] theorem configure_cfg (c : Byte) (s : State) : (configure c s).cfg = s.cfg := rfl
@[simp] theorem configure_env (c : Byte) (s : State) : (configure c s).env = s.env := rfl

/-! ## calledState -/

@[simp] theorem calledState_controlState (c : Call) (rest : List HandlerAnswer) (s : State) : (calledState c rest s).controlState = s.controlState := rfl
@[simp] theorem calledState_deviceState (c : Call) (rest : List HandlerAnswer) (s : State) : (calledState c rest s).deviceState = s.deviceState := rfl
@[simp] theorem calledState_activeConfig (c : Call) (rest : List HandlerAnswer) (s : State) : (calledState c rest s).activeConfig = s.activeConfig := rfl
@[simp] theorem calledState_ep0PacketSize (c : Call) (rest : List HandlerAnswer) (s : State) : (calledState c rest s).ep0PacketSize = s.ep0PacketSize := rfl
@[simp] theorem calledState_maxDataSize (c : Call) (rest : List HandlerAnswer) (s : State) : (calledState c rest s).maxDataSize = s.maxDataSize := rfl
@[simp] theorem calledState_dataBuffer (c : Call) (rest : List HandlerAnswer) (s : State) : (calledState c rest s).dataBuffer = s.dataBuffer := rfl
@[simp] theorem calledState_dataCursor (c : Call) (rest : List HandlerAnswer) (s : State) : (calledState c rest s).dataCursor = s.dataCursor := rfl
@[simp] theorem calledState_transferredCount (c : Call) (rest : List HandlerAnswer) (s : State) : (calledState c rest s).transferredCount = s.transferredCount := rfl
@[simp] theorem calledState_totalLen (c : Call) (rest : List HandlerAnswer) (s : State) : (calledState c rest s).totalLen = s.totalLen := rfl
@[simp] theorem calledState_setup (c : Call) (rest : List HandlerAnswer) (s : State) : (calledState c rest s).setup = s.setup := rfl
@[simp] theorem calledState_pending (c : Call) (rest : List HandlerAnswer) (s : State) : (calledState c rest s).pending = s.pending := rfl
@[simp] theorem calledState_pendingAddress (c : Call) (rest : List HandlerAnswer) (s : State) : (calledState c rest s).pendingAddress = s.pendingAddress := rfl
@[simp] theorem calledState_completion (c : Call) (rest : List HandlerAnswer) (s : State) : (calledState c rest s).completion = s.completion := rfl
@[simp] theorem calledState_halted (c : Call) (rest : List HandlerAnswer) (s : State) : (calledState c rest s).halted = s.halted := rfl
@[simp] theorem calledState_controlCb (c : Call) (rest : List HandlerAnswer) (s : State) : (calledState c rest s).controlCb = s.controlCb := rfl
@[simp] theorem calledState_configCb (c : Call) (rest : List HandlerAnswer) (s : State) : (calledState c rest s).configCb = s.configCb := rfl
@[simp] theorem calledState_descriptorCb (c : Call) (rest : List HandlerAnswer) (s : State) : (calledState c rest s).descriptorCb = s.descriptorCb := rfl
@[simp] theorem calledState_epHandler (c : Call) (rest : List HandlerAnswer) (s : State) : (calledState c rest s).epHandler = s.epHandler := rfl
@[simp] theorem calledState_evtHandler (c : Call) (rest : List HandlerAnswer) (s : State) : (calledState c rest s).evtHandler = s.evtHandler := rfl
@[simp] theorem calledState_initialised (c : Call) (rest : List HandlerAnswer) (s : State) : (calledState c rest s).initialised = s.initialised := rfl
@[simp] theorem calledState_ctx (c : Call) (rest : List HandlerAnswer) (s : State) : (calledState c rest s).ctx = .inCallback := rfl
@[simp] theorem calledState_refusedFor (c : Call) (rest : List HandlerAnswer) (s : State) : (calledState c rest s).refusedFor = s.refusedFor := rfl
@[simp] theorem calledState_trace (c : Call) (rest : List HandlerAnswer) (s : State) : (calledState c rest s).trace = s.trace ++ [.call c] := rfl
@[simp] theorem calledState_returned (c : Call) (rest : List HandlerAnswer) (s : State) : (calledState c rest s).returned = s.returned := rfl
@[simp] theorem calledState_cfg (c : Call) (rest : List HandlerAnswer) (s : State) : (calledState c rest s).cfg = s.cfg := rfl
@[simp] theorem calledState_env (c : Call) (rest : List HandlerAnswer) (s : State) : (calledState c rest s).env = { s.env with answers := rest } := rfl

/-! ## stalledState -/

@[simp] theorem stalledState_controlState (c : Byte) (s : State) : (stalledState c s).controlState = .idle := rfl
@[simp] theorem stalledState_deviceState (c : Byte) (s : State) : (stalledState c s).deviceState = s.deviceState := rfl
@[simp] theorem stalledState_activeConfig (c : Byte) (s : State) : (stalledState c s).activeConfig = s.activeConfig := rfl
@[simp] theorem stalledState_ep0PacketSize (c : Byte) (s : State) : (stalledState c s).ep0PacketSize = s.ep0PacketSize := rfl
@[simp] theorem stalledState_maxDataSize (c : Byte) (s : State) : (stalledState c s).maxDataSize = s.maxDataSize := rfl
@[simp] theorem stalledState_dataBuffer (c : Byte) (s : State) : (stalledState c s).dataBuffer = s.dataBuffer := rfl
@[simp] theorem stalledState_dataCursor (c : Byte) (s : State) : (stalledState c s).dataCursor = 0 := rfl
@[simp] theorem stalledState_transferredCount (c : Byte) (s : State) : (stalledState c s).transferredCount = 0 := rfl
@[simp] theorem stalledState_totalLen (c : Byte) (s : State) : (stalledState c s).totalLen = 0 := rfl
@[simp] theorem stalledState_setup (c : Byte) (s : State) : (stalledState c s).setup = s.setup := rfl
@[simp] theorem stalledState_pending (c : Byte) (s : State) : (stalledState c s).pending = .none := rfl
@[simp] theorem stalledState_pendingAddress (c : Byte) (s : State) : (stalledState c s).pendingAddress = none := rfl
@[simp] theorem stalledState_completion (c : Byte) (s : State) : (stalledState c s).completion = none := rfl
@[simp] theorem stalledState_halted (c : Byte) (s : State) : (stalledState c s).halted = s.halted := rfl
@[simp] theorem stalledState_controlCb (c : Byte) (s : State) : (stalledState c s).controlCb = s.controlCb := rfl
@[simp] theorem stalledState_configCb (c : Byte) (s : State) : (stalledState c s).configCb = s.configCb := rfl
@[simp] theorem stalledState_descriptorCb (c : Byte) (s : State) : (stalledState c s).descriptorCb = s.descriptorCb := rfl
@[simp] theorem stalledState_epHandler (c : Byte) (s : State) : (stalledState c s).epHandler = s.epHandler := rfl
@[simp] theorem stalledState_evtHandler (c : Byte) (s : State) : (stalledState c s).evtHandler = s.evtHandler := rfl
@[simp] theorem stalledState_initialised (c : Byte) (s : State) : (stalledState c s).initialised = s.initialised := rfl
@[simp] theorem stalledState_ctx (c : Byte) (s : State) : (stalledState c s).ctx = s.ctx := rfl
@[simp] theorem stalledState_refusedFor (c : Byte) (s : State) : (stalledState c s).refusedFor = s.refusedFor := rfl
@[simp] theorem stalledState_trace (c : Byte) (s : State) : (stalledState c s).trace = s.trace ++ [.stallEndpoint ep0Out, .stallEndpoint ep0In, .note c] := rfl
@[simp] theorem stalledState_returned (c : Byte) (s : State) : (stalledState c s).returned = s.returned := rfl
@[simp] theorem stalledState_cfg (c : Byte) (s : State) : (stalledState c s).cfg = s.cfg := rfl
@[simp] theorem stalledState_env (c : Byte) (s : State) : (stalledState c s).env = s.env := rfl

/-! ## Views -/

@[simp] theorem State.emit_limits (s : State) (a : Action) : (s.emit a).limits = s.limits := rfl
@[simp] theorem State.refuse_limits (s : State) (r : RefuseReason) : (s.refuse r).limits = s.limits := rfl
@[simp] theorem State.setCtx_limits (s : State) (c : Context) : (s.setCtx c).limits = s.limits := rfl
@[simp] theorem State.emit_refused (s : State) (a : Action) : (s.emit a).refused = s.refused := rfl
@[simp] theorem State.setCtx_refused (s : State) (c : Context) : (s.setCtx c).refused = s.refused := rfl
@[simp] theorem cancelTransfer_refused (s : State) : (cancelTransfer s).refused = s.refused := rfl
@[simp] theorem stallControl_refused (e : ErrCode) (s : State) : (stallControl e s).refused = s.refused := rfl
@[simp] theorem State.refuse_refused (s : State) (r : RefuseReason) : (s.refuse r).refused = true := rfl

/-- Not refused says that no reason is recorded. -/
theorem State.refused_eq_false {s : State} : s.refused = false ↔ s.refusedFor = none := by
  simp [State.refused]

/-- A halt bit reads what was last written to it and every other keeps its value. -/
theorem State.halt_setHalt (s : State) (ep ep' : EpAddr) (b : Bool) :
    (s.setHalt ep b).halt ep' = if haltIndex ep = haltIndex ep' then b else s.halt ep' := by
  simp only [State.halt, State.setHalt_halted, Vector.get_eq_getElem, Vector.getElem_set, Fin.ext_iff]

/-- Two endpoint addresses share a halt entry only if they are the same. -/
theorem haltIndex_injective {a b : EpAddr} (h : haltIndex a = haltIndex b) : a = b := by
  obtain ⟨da, na⟩ := a
  obtain ⟨db, nb⟩ := b
  have ha := na.isLt
  have hb := nb.isLt
  simp only [haltIndex, Fin.mk.injEq] at h
  cases da <;> cases db <;> simp at h ⊢ <;> first | omega | exact BitVec.eq_of_toNat_eq h

/-- An endpoint slot reads what was last written to it and every other keeps its value. -/
theorem State.epCb_setEpCb (s : State) (n m : BitVec 4) (h : Option HandlerId) :
    (s.setEpCb n h).epCb m = if n = m then h else s.epCb m := by
  simp only [State.epCb, State.setEpCb_epHandler, Vector.get_eq_getElem, Vector.getElem_set, epSlot, BitVec.toNat_eq]

/-- An event slot reads what was last written to it and every other keeps its value. -/
theorem State.evtCb_setEvtCb (s : State) (e f : DeviceEvent) (h : Option HandlerId) :
    (s.setEvtCb e h).evtCb f = if e = f then h else s.evtCb f := by
  cases e <;> cases f <;> rfl

/-- The recovery path is StallControl (R303), and ends in the state R141 and R120 name. -/
@[simp] theorem recover_eq (e : ErrCode) (s : State) : recover e s = stalledState (errNumber e) s := by
  simp [recover, stallControl, cancelTransfer, State.emit, stalledState]

end Sys2Proof.Machine
end

