-- ==== Sys2Proof/Laws/Flow.lean ====
section
/-! SUPPORT. How procedures compose and end: the inversion of `bind`, `caught` and `finish`. -/

namespace Sys2Proof.Machine

@[simp] theorem Flow.bind_ok {α β : Type} (a : α) (f : α → Flow β) : (Flow.ok a).bind f = f a := rfl
@[simp] theorem Flow.bind_raised {α β : Type} (e : ErrCode) (s : State) (f : α → Flow β) :
    (Flow.raised e s).bind f = .raised e s := rfl
@[simp] theorem Flow.bind_refused {α β : Type} (r : RefuseReason) (s : State) (f : α → Flow β) :
    (Flow.refused r s).bind f = .refused r s := rfl

/-- A sequence that goes on went on at both parts. -/
theorem Flow.bind_eq_ok {α β : Type} {x : Flow α} {f : α → Flow β} {b : β} (h : x.bind f = .ok b) :
    ∃ a, x = .ok a ∧ f a = .ok b := by
  cases x with
  | ok a => exact ⟨a, rfl, h⟩
  | raised e s => cases h
  | refused r s => cases h

/-- A sequence that raises raised in its first part, or went on and raised in its second. -/
theorem Flow.bind_eq_raised {α β : Type} {x : Flow α} {f : α → Flow β} {e : ErrCode} {s : State}
    (h : x.bind f = .raised e s) : x = .raised e s ∨ ∃ a, x = .ok a ∧ f a = .raised e s := by
  cases x with
  | ok a => exact .inr ⟨a, rfl, h⟩
  | raised e' s' => exact .inl (by simpa using h)
  | refused r s' => cases h

/-- A sequence that refuses refused in its first part, or went on and refused in its second. -/
theorem Flow.bind_eq_refused {α β : Type} {x : Flow α} {f : α → Flow β} {r : RefuseReason} {s : State}
    (h : x.bind f = .refused r s) : x = .refused r s ∨ ∃ a, x = .ok a ∧ f a = .refused r s := by
  cases x with
  | ok a => exact .inr ⟨a, rfl, h⟩
  | raised e' s' => cases h
  | refused r' s' => exact .inl (by simpa using h)

/-- Sequencing is associative. -/
theorem Flow.bind_assoc {α β γ : Type} (x : Flow α) (f : α → Flow β) (g : β → Flow γ) :
    (x.bind f).bind g = x.bind fun a => (f a).bind g := by
  cases x <;> rfl

@[simp] theorem caught_ok (s : State) : caught (.ok s) = .ok s := rfl
@[simp] theorem caught_raised (e : ErrCode) (s : State) : caught (.raised e s) = .ok (recover e s) := rfl
@[simp] theorem caught_refused (r : RefuseReason) (s : State) : caught (.refused r s) = .refused r s := rfl

/-- A recovered procedure never raises: recovery cannot nest (R308). -/
theorem caught_ne_raised (x : Flow State) (e : ErrCode) (s : State) : caught x ≠ .raised e s := by
  cases x <;> simp [caught]

/-- A recovered procedure goes on after going on or after a raise. -/
theorem caught_eq_ok {x : Flow State} {t : State} (h : caught x = .ok t) :
    x = .ok t ∨ ∃ e u, x = .raised e u ∧ t = recover e u := by
  cases x with
  | ok a => exact .inl h
  | raised e u => exact .inr ⟨e, u, rfl, by simpa [caught] using h.symm⟩
  | refused r u => cases h

@[simp] theorem finish_ok (s : State) : finish (.ok s) = .next s := rfl
@[simp] theorem finish_raised (e : ErrCode) (s : State) : finish (.raised e s) = .next (recover e s) := rfl
@[simp] theorem finish_refused (r : RefuseReason) (s : State) : finish (.refused r s) = .next (s.refuse r) := rfl

/-- Every procedure of the block ends in a next state: no error of the block is fatal (R317). -/
theorem finish_isNext (x : Flow State) : ∃ t, finish x = .next t := by
  cases x <;> exact ⟨_, rfl⟩

/-- Everything the end of a step can be. -/
theorem finish_eq_next {x : Flow State} {t : State} (h : finish x = .next t) :
    x = .ok t ∨ (∃ e u, x = .raised e u ∧ t = recover e u) ∨ ∃ r u, x = .refused r u ∧ t = u.refuse r := by
  cases x with
  | ok a => exact .inl (by simpa [finish] using h)
  | raised e u => exact .inr (.inl ⟨e, u, rfl, by simpa [finish] using h.symm⟩)
  | refused r u => exact .inr (.inr ⟨r, u, rfl, by simpa [finish] using h.symm⟩)

end Sys2Proof.Machine
end

