-- ==== Sys2Proof/Laws/Memory.lean ====
section
/-! SUPPORT. The data buffer (20_memory.md R61, R62): read after write, everything else unchanged, the canonical form kept. -/

namespace Sys2Proof.Machine

/-- The canonical form from a higher bound holds from a lower one. -/
theorem memWfFrom_mono {lo lo' : Nat} (h : lo ≤ lo') : ∀ {m : List Host.Cell}, memWfFrom lo' m = true → memWfFrom lo m = true
  | [], _ => rfl
  | (k, v) :: rest, hm => by
    simp only [memWfFrom, Bool.and_eq_true, decide_eq_true_eq] at hm ⊢
    exact ⟨by omega, hm.2⟩

/-- A byte below every listed offset reads as the fill byte. -/
theorem memGet_below {lo a : Nat} (h : a < lo) : ∀ {m : List Host.Cell}, memWfFrom lo m = true → memGet m a = fillByte
  | [], _ => rfl
  | (k, v) :: rest, hm => by
    simp only [memWfFrom, Bool.and_eq_true, decide_eq_true_eq] at hm
    have hne : k ≠ a := by omega
    rw [memGet, if_neg hne]
    exact memGet_below (by omega) hm.2.2

/-- Read after write, one byte: the byte written at its offset, the old byte everywhere else. -/
theorem memGet_memPut (a a' : Nat) (b : Byte) :
    ∀ {lo : Nat} {m : List Host.Cell}, memWfFrom lo m = true → memGet (memPut m a b) a' = if a' = a then b else memGet m a'
  | _, [], _ => by
    by_cases ha : a' = a
    · subst ha
      by_cases hb : b = fillByte <;> simp [memPut, memGet, hb]
    · have ha' : ¬ a = a' := fun h => ha h.symm
      by_cases hb : b = fillByte <;> simp [memPut, memGet, hb, ha, ha']
  | _, (k, v) :: rest, hm => by
    simp only [memWfFrom, Bool.and_eq_true, decide_eq_true_eq] at hm
    have hbelow : ∀ x, x < k + 1 → memGet rest x = fillByte := fun x hx => memGet_below hx hm.2.2
    by_cases h1 : a < k
    · have hne : k ≠ a := by omega
      by_cases hb : b = fillByte
      · by_cases ha : a' = a
        · subst ha
          simp [memPut, h1, hb, memGet, hne, hbelow a' (by omega)]
        · simp [memPut, h1, hb, ha]
      · by_cases ha : a' = a
        · subst ha; simp [memPut, h1, hb, memGet]
        · have : ¬ a = a' := fun h => ha h.symm
          simp [memPut, h1, hb, memGet, ha, this]
    · by_cases h2 : a = k
      · subst h2
        by_cases hb : b = fillByte
        · by_cases ha : a' = a
          · subst ha; simp [memPut, hb, hbelow a' (by omega)]
          · have : ¬ a = a' := fun h => ha h.symm
            simp [memPut, hb, memGet, ha, this]
        · by_cases ha : a' = a
          · subst ha; simp [memPut, hb, memGet]
          · have : ¬ a = a' := fun h => ha h.symm
            simp [memPut, hb, memGet, ha, this]
      · have hstep : memPut ((k, v) :: rest) a b = (k, v) :: memPut rest a b := by simp [memPut, h1, h2]
        rw [hstep, memGet, memGet, memGet_memPut a a' b hm.2.2]
        by_cases ha : a' = a
        · subst ha
          have hka : k ≠ a' := fun h => h2 h.symm
          simp [hka]
        · simp [ha]

/-- Writing a byte keeps the canonical form. -/
theorem memWfFrom_memPut (a : Nat) (b : Byte) :
    ∀ {lo : Nat} {m : List Host.Cell}, lo ≤ a → memWfFrom lo m = true → memWfFrom lo (memPut m a b) = true
  | lo, [], hlo, _ => by
    by_cases hb : b = fillByte <;> simp [memPut, hb, memWfFrom, hlo]
  | lo, (k, v) :: rest, hlo, hm => by
    simp only [memWfFrom, Bool.and_eq_true, decide_eq_true_eq] at hm
    obtain ⟨h0, hv, hrest⟩ := hm
    by_cases h1 : a < k
    · by_cases hb : b = fillByte
      · simp [memPut, h1, hb, memWfFrom, h0, hv, hrest]
      · have hk : a + 1 ≤ k := h1
        simp [memPut, h1, hb, memWfFrom, hlo, hk, hv, hrest]
    · by_cases h2 : a = k
      · subst h2
        by_cases hb : b = fillByte
        · simpa [memPut, hb] using memWfFrom_mono (by omega) hrest
        · simp [memPut, hb, memWfFrom, hlo, hrest]
      · have := memWfFrom_memPut a b (lo := k + 1) (by omega) hrest
        simp [memPut, h1, h2, memWfFrom, h0, hv, this]

/-- Writing a byte sequence keeps the canonical form. -/
theorem memWf_memPutAll : ∀ (bs : List Byte) (a : Nat) {m : List Host.Cell}, memWf m = true → memWf (memPutAll m a bs) = true
  | [], _, _, h => h
  | b :: bs, a, _, h => memWf_memPutAll bs (a + 1) (memWfFrom_memPut a b (Nat.zero_le a) h)

/-- Read after write, a byte sequence: the bytes written inside the range, the old bytes outside it. -/
theorem memGet_memPutAll : ∀ (bs : List Byte) (a a' : Nat) {m : List Host.Cell}, memWf m = true →
    memGet (memPutAll m a bs) a' =
      if a ≤ a' ∧ a' < a + bs.length then bs.getD (a' - a) fillByte else memGet m a'
  | [], a, a', _, _ => by
    have : ¬ (a ≤ a' ∧ a' < a + ([] : List Byte).length) := by simp
    rw [if_neg this]; rfl
  | b :: bs, a, a', m, h => by
    have hw : memWf (memPut m a b) = true := memWfFrom_memPut a b (Nat.zero_le a) h
    rw [memPutAll, memGet_memPutAll bs (a + 1) a' hw, memGet_memPut a a' b h]
    by_cases ha : a' = a
    · subst ha; simp
    · by_cases hin : a ≤ a' ∧ a' < a + (b :: bs).length
      · have hlen : (b :: bs).length = bs.length + 1 := rfl
        have h1 : a + 1 ≤ a' ∧ a' < a + 1 + bs.length := by omega
        have hsub : a' - a = (a' - (a + 1)) + 1 := by omega
        rw [if_pos h1, if_pos hin, hsub, List.getD_cons_succ]
      · have hlen : (b :: bs).length = bs.length + 1 := rfl
        have h1 : ¬ (a + 1 ≤ a' ∧ a' < a + 1 + bs.length) := by omega
        rw [if_neg h1, if_neg hin, if_neg ha]

@[simp] theorem memGetAll_length (m : List Host.Cell) : ∀ (n a : Nat), (memGetAll m a n).length = n
  | 0, _ => rfl
  | n + 1, a => by simp [memGetAll, memGetAll_length m n (a + 1)]

/-- Two buffers that agree on a range read the same there. -/
theorem memGetAll_congr {m m' : List Host.Cell} : ∀ {n a : Nat}, (∀ x, a ≤ x → x < a + n → memGet m x = memGet m' x) →
    memGetAll m a n = memGetAll m' a n
  | 0, _, _ => rfl
  | n + 1, a, h => by
    rw [memGetAll, memGetAll, h a (by omega) (by omega), memGetAll_congr fun x h1 h2 => h x (by omega) (by omega)]

/-- Reading a range is reading its bytes. -/
theorem memGetAll_getD (m : List Host.Cell) : ∀ (n a i : Nat), i < n → (memGetAll m a n).getD i fillByte = memGet m (a + i)
  | 0, _, i, h => absurd h (Nat.not_lt_zero i)
  | n + 1, a, 0, _ => by simp [memGetAll]
  | n + 1, a, i + 1, h => by
    rw [memGetAll, List.getD_cons_succ, memGetAll_getD m n (a + 1) i (by omega)]
    congr 1
    omega

/-- What was just written reads back: any part of it, from any offset inside it. -/
theorem memGetAll_memPutAll {m : List Host.Cell} (h : memWf m = true) (bs : List Byte) (k n : Nat) (hk : k + n ≤ bs.length) :
    memGetAll (memPutAll m 0 bs) k n = (bs.drop k).take n := by
  refine List.ext_getElem (by simp; omega) fun i h1 h2 => ?_
  have hi : i < n := by simpa using h1
  have e1 := memGetAll_getD (memPutAll m 0 bs) n k i hi
  rw [List.getD_eq_getElem _ _ h1] at e1
  rw [e1, memGet_memPutAll bs 0 (k + i) h, if_pos ⟨Nat.zero_le _, by omega⟩, Nat.sub_zero,
    List.getD_eq_getElem _ _ (by omega), List.getElem_take, List.getElem_drop]

/-- Every listed offset after a write is one listed before it or the one written. -/
theorem mem_memPut {a : Nat} {b : Byte} {c : Host.Cell} : ∀ {m : List Host.Cell}, c ∈ memPut m a b → c ∈ m ∨ c.1 = a
  | [], h => by
    by_cases hb : b = fillByte <;> simp [memPut, hb] at h
    exact .inr (by rw [h])
  | (k, v) :: rest, h => by
    unfold memPut at h
    split at h
    · split at h
      · exact .inl h
      · rcases List.mem_cons.1 h with h | h
        · exact .inr (by rw [h])
        · exact .inl h
    · split at h
      · split at h
        · exact .inl (List.mem_cons_of_mem _ h)
        · rcases List.mem_cons.1 h with h | h
          · exact .inr (by rw [h])
          · exact .inl (List.mem_cons_of_mem _ h)
      · rcases List.mem_cons.1 h with h | h
        · exact .inl (by rw [h]; exact List.mem_cons_self)
        · rcases mem_memPut h with h | h
          · exact .inl (List.mem_cons_of_mem _ h)
          · exact .inr h

/-- Writing inside a capacity keeps every listed offset inside it. -/
theorem memPutAll_inside {cap : Nat} : ∀ (bs : List Byte) (a : Nat) {m : List Host.Cell}, a + bs.length ≤ cap →
    (∀ c ∈ m, c.1 < cap) → ∀ c ∈ memPutAll m a bs, c.1 < cap
  | [], _, _, _, h => h
  | b :: bs, a, m, hle, h => by
    have hlen : (b :: bs).length = bs.length + 1 := rfl
    refine memPutAll_inside bs (a + 1) (by omega) fun c hc => ?_
    rcases mem_memPut hc with h' | h'
    · exact h c h'
    · omega

/-- Everything MemRead can do (R61). -/
theorem bufRead_cases (addr n : Nat) (s : State) :
    (addr + n ≤ s.maxDataSize.toNat ∧ bufRead addr n s = .ok (memGetAll s.dataBuffer addr n)) ∨
      (s.maxDataSize.toNat < addr + n ∧ bufRead addr n s = .refused .bufferBounds s) := by
  unfold bufRead
  split
  · exact .inl ⟨by assumption, rfl⟩
  · exact .inr ⟨by omega, rfl⟩

/-- Everything MemWrite can do (R62). -/
theorem bufWrite_cases (addr : Nat) (bs : List Byte) (s : State) :
    (addr + bs.length ≤ s.maxDataSize.toNat ∧
        bufWrite addr bs s = .ok { s with dataBuffer := memPutAll s.dataBuffer addr bs }) ∨
      (s.maxDataSize.toNat < addr + bs.length ∧ bufWrite addr bs s = .refused .bufferBounds s) := by
  unfold bufWrite
  split
  · exact .inl ⟨by assumption, rfl⟩
  · exact .inr ⟨by omega, rfl⟩

/-- The buffer at power-on is in canonical form. -/
theorem memWf_reset : memWf State.reset.dataBuffer = true := rfl

end Sys2Proof.Machine
end

