-- ==== Sys2Proof/Laws/Decode.lean ====
section
/-! SUPPORT. The fields of the encoders' words and of the SETUP packet, read back: what the decoders see of an encoded word. -/

namespace Sys2Proof

@[simp] theorem wordClass_inputWord (c k : BitVec 4) (a : Byte) : wordClass (inputWord c k a) = c := by
  ext i hi
  simp [wordClass, inputWord]
  grind

@[simp] theorem wordCode_inputWord (c k : BitVec 4) (a : Byte) : wordCode (inputWord c k a) = k := by
  ext i hi
  simp [wordCode, inputWord]
  grind

@[simp] theorem lowByte_inputWord (c k : BitVec 4) (a : Byte) : lowByte (inputWord c k a) = a := by
  ext i hi
  simp [lowByte, inputWord]
  grind

/-- Little-endian assembly, low byte back (R64). -/
@[simp] theorem lowByte_le16 (a b : Byte) : lowByte (le16 a b) = a := by
  ext i hi
  simp [lowByte, le16]
  grind

/-- Little-endian assembly, high byte back (R64). -/
@[simp] theorem highByte_le16 (a b : Byte) : highByte (le16 a b) = b := by
  ext i hi
  simp [highByte, le16]
  grind

/-- A u16 is the assembly of its bytes (R64). -/
@[simp] theorem le16_bytes (h : Half) : le16 (lowByte h) (highByte h) = h := by
  ext i hi
  simp [lowByte, highByte, le16]
  grind

@[simp] theorem highByte_keyWord (c : Byte) (d : Dir) (t : BitVec 2) (r : BitVec 5) : highByte (keyWord c d t r) = c := by
  ext i hi
  simp [highByte, keyWord]
  grind

theorem keyWord_recipient (c : Byte) (d : Dir) (t : BitVec 2) (r : BitVec 5) : (keyWord c d t r).extractLsb' 0 5 = r := by
  ext i hi
  simp [keyWord]
  grind

theorem keyWord_type (c : Byte) (d : Dir) (t : BitVec 2) (r : BitVec 5) : (keyWord c d t r).extractLsb' 5 2 = t := by
  ext i hi
  simp [keyWord]
  grind

theorem keyWord_dir (c : Byte) (d : Dir) (t : BitVec 2) (r : BitVec 5) : (keyWord c d t r).getLsbD 7 = dirBit d := by
  unfold keyWord
  rw [BitVec.getLsbD_append, if_pos (by decide), BitVec.getLsbD_append, if_neg (by decide)]
  cases dirBit d <;> rfl

@[simp] theorem dirOfBit_dirBit (d : Dir) : dirOfBit (dirBit d) = d := by cases d <;> rfl

@[simp] theorem dirBit_dirOfBit (b : Bool) : dirBit (dirOfBit b) = b := by cases b <;> rfl

/-- An endpoint address decodes from its own byte (R94). -/
@[simp] theorem decodeEp_encodeEp (ep : EpAddr) : decodeEp (encodeEp ep) = some ep := by
  obtain ⟨d, n⟩ := ep
  revert n
  cases d <;> decide

/-- The request whose key was just set has that key (R102). -/
@[simp] theorem requestKey_withKey (r : ControlRequest) (k : Half) : requestKey (withKey r k) = k := by
  simp [requestKey, withKey]

/-- Setting the key a request has changes nothing. -/
@[simp] theorem withKey_requestKey (r : ControlRequest) : withKey r (requestKey r) = r := by
  simp [requestKey, withKey]

end Sys2Proof

namespace Sys2Proof.Machine

/-- The direction of a request by its key (R81, R102). -/
theorem reqDir_withKey (q : ControlRequest) (c : Byte) (d : Dir) (t : BitVec 2) (r : BitVec 5) :
    reqDir (withKey q (keyWord c d t r)) = d := by
  have h : (lowByte (keyWord c d t r)).getLsbD 7 = (keyWord c d t r).getLsbD 7 := by
    simp [lowByte]
  simp only [reqDir, withKey, h, keyWord_dir, dirOfBit_dirBit]

/-- The recipient of a request by its key (R83, R102). -/
theorem reqRecipient_withKey (q : ControlRequest) (c : Byte) (d : Dir) (t : BitVec 2) (r : BitVec 5) :
    reqRecipient (withKey q (keyWord c d t r)) = r := by
  have h : (lowByte (keyWord c d t r)).extractLsb' 0 5 = (keyWord c d t r).extractLsb' 0 5 := by
    ext i hi
    simp [lowByte]
  simp only [reqRecipient, withKey, h, keyWord_recipient]

end Sys2Proof.Machine
end

