-- ==== Sys2Proof/Laws/Callback.lean ====
section
/-! SUPPORT. What nested commands and callbacks can do (43_public_api.md R264 to R266): the draws touch only `env`, a nested
command keeps the engine, none of them raises, `ask` on a scripted answer. -/

namespace Sys2Proof.Machine

/-! ## Draws -/

/-- Everything a draw of an answer can do: the environment changes, its inputs and waiting events do not. -/
theorem drawAnswer_state (s : State) :
    ∃ e : Env, (drawAnswer s).2 = { s with env := e } ∧ e.inputs = s.env.inputs ∧ e.eventQueue = s.env.eventQueue := by
  unfold drawAnswer
  split <;> exact ⟨_, rfl, rfl, rfl⟩

/-- A scripted answer is the one drawn. -/
theorem drawAnswer_scripted {s : State} {a : HandlerAnswer} {rest : List HandlerAnswer} (h : s.env.answers = a :: rest) :
    drawAnswer s = (a, { s with env := { s.env with answers := rest } }) := by
  simp only [drawAnswer, h]

/-- Everything a draw of a write result can do. -/
theorem drawWritten_state (s : State) :
    ∃ e : Env, (drawWritten s).2 = { s with env := e } ∧ e.inputs = s.env.inputs ∧ e.eventQueue = s.env.eventQueue := by
  unfold drawWritten
  split <;> exact ⟨_, rfl, rfl, rfl⟩

/-- Everything a draw of read bytes can do. -/
theorem drawRead_state (s : State) :
    ∃ e : Env, (drawRead s).2 = { s with env := e } ∧ e.inputs = s.env.inputs ∧ e.eventQueue = s.env.eventQueue := by
  unfold drawRead
  split <;> exact ⟨_, rfl, rfl, rfl⟩

/-- Everything a draw of capabilities can do. -/
theorem drawInfo_state (s : State) :
    ∃ e : Env, (drawInfo s).2 = { s with env := e } ∧ e.inputs = s.env.inputs ∧ e.eventQueue = s.env.eventQueue := by
  unfold drawInfo
  split <;> exact ⟨_, rfl, rfl, rfl⟩

/-! ## The engine is kept -/

theorem EngineKept.refl (s : State) : EngineKept s s := by constructor <;> rfl

theorem EngineKept.trans {s t u : State} (h : EngineKept s t) (g : EngineKept t u) : EngineKept s u := by
  constructor
  · exact g.controlState.trans h.controlState
  · exact g.deviceState.trans h.deviceState
  · exact g.activeConfig.trans h.activeConfig
  · exact g.ep0PacketSize.trans h.ep0PacketSize
  · exact g.maxDataSize.trans h.maxDataSize
  · exact g.dataBuffer.trans h.dataBuffer
  · exact g.dataCursor.trans h.dataCursor
  · exact g.transferredCount.trans h.transferredCount
  · exact g.totalLen.trans h.totalLen
  · exact g.setup.trans h.setup
  · exact g.pending.trans h.pending
  · exact g.pendingAddress.trans h.pendingAddress
  · exact g.completion.trans h.completion
  · exact g.initialised.trans h.initialised
  · exact g.ctx.trans h.ctx
  · exact g.cfg.trans h.cfg

/-- What a nested command keeps beside the engine: the refused mark, the inputs and the waiting events; and it only appends to
the trace (R262). -/
structure CallKept (s t : State) : Prop where
  engine : EngineKept s t
  refusedFor : t.refusedFor = s.refusedFor
  inputs : t.env.inputs = s.env.inputs
  eventQueue : t.env.eventQueue = s.env.eventQueue
  trace : ∃ u, t.trace = s.trace ++ u

theorem CallKept.refl (s : State) : CallKept s s := ⟨.refl s, rfl, rfl, rfl, [], (List.append_nil _).symm⟩

theorem CallKept.trans {s t u : State} (h : CallKept s t) (g : CallKept t u) : CallKept s u := by
  refine ⟨h.engine.trans g.engine, g.refusedFor.trans h.refusedFor, g.inputs.trans h.inputs, g.eventQueue.trans h.eventQueue, ?_⟩
  obtain ⟨x, hx⟩ := h.trace
  obtain ⟨y, hy⟩ := g.trace
  exact ⟨x ++ y, by rw [hy, hx, List.append_assoc]⟩

/-- A trace entry keeps everything else. -/
theorem CallKept.emit (s : State) (a : Action) : CallKept s (s.emit a) :=
  ⟨by constructor <;> rfl, rfl, rfl, rfl, [a], rfl⟩

/-- A change of nothing but the registry, the halt bits, the value returned or the environment's results keeps all of it. -/
theorem CallKept.of {s t : State} (h : EngineKept s t) (h1 : t.refusedFor = s.refusedFor) (h2 : t.env.inputs = s.env.inputs)
    (h3 : t.env.eventQueue = s.env.eventQueue) (h4 : t.trace = s.trace) : CallKept s t :=
  ⟨h, h1, h2, h3, [], by rw [h4, List.append_nil]⟩

/-- A draw keeps the engine. -/
theorem CallKept.draw {s t : State} (h : ∃ e : Env, t = { s with env := e } ∧ e.inputs = s.env.inputs ∧
    e.eventQueue = s.env.eventQueue) : CallKept s t := by
  obtain ⟨e, rfl, h1, h2⟩ := h
  exact .of (by constructor <;> rfl) rfl h1 h2 rfl

/-- A value returned keeps the engine. -/
theorem CallKept.returned (s : State) (r : Returned) : CallKept s { s with returned := r } :=
  .of (by constructor <;> rfl) rfl rfl rfl rfl

/-- A halt bit written keeps the engine. -/
theorem CallKept.setHalt (s : State) (ep : EpAddr) (b : Bool) : CallKept s (s.setHalt ep b) :=
  .of (by constructor <;> rfl) rfl rfl rfl rfl

/-- The body of a nested command keeps the engine (R265). -/
theorem nestedBody_kept {i : Instr} {s t : State} (h : nestedBody i s = .ok t) : CallKept s t := by
  cases i <;> simp only [nestedBody, reduceCtorEq] at h
  case regControl => injection h with h; subst h; exact .of (by constructor <;> rfl) rfl rfl rfl rfl
  case regConfig => injection h with h; subst h; exact .of (by constructor <;> rfl) rfl rfl rfl rfl
  case regDescriptor => injection h with h; subst h; exact .of (by constructor <;> rfl) rfl rfl rfl rfl
  case regEndpoint => injection h with h; subst h; exact .of (by constructor <;> rfl) rfl rfl rfl rfl
  case regEvent e _ =>
    injection h with h; subst h; cases e <;> exact .of (by constructor <;> rfl) rfl rfl rfl rfl
  case epConfig => injection h with h; subst h; exact .emit _ _
  case epDeconfig => injection h with h; subst h; exact .emit _ _
  case epWrite => injection h with h; subst h; exact ((CallKept.draw (drawWritten_state s)).trans (.emit _ _)).trans (.returned _ _)
  case epRead => injection h with h; subst h; exact ((CallKept.draw (drawRead_state s)).trans (.emit _ _)).trans (.returned _ _)
  case epStall => injection h with h; subst h; exact (CallKept.emit _ _).trans (.setHalt _ _ _)
  case epUnstall => injection h with h; subst h; exact (CallKept.emit _ _).trans (.setHalt _ _ _)
  case enable => injection h with h; subst h; exact .emit _ _
  case connect => injection h with h; subst h; exact .emit _ _
  case getInfo => injection h with h; subst h; exact ((CallKept.draw (drawInfo_state s)).trans (.emit _ _)).trans (.returned _ _)

/-- The body of a nested command goes on or refuses where it stands; it never raises. -/
theorem nestedBody_cases (i : Instr) (s : State) : (∃ t, nestedBody i s = .ok t) ∨ ∃ r, nestedBody i s = .refused r s := by
  cases i <;> first | exact .inl ⟨_, rfl⟩ | exact .inr ⟨_, rfl⟩

/-- Everything a nested command can do: it is admitted and runs its body, or it refuses where it stands (R264). -/
theorem runCall_cases (c : Input) (s : State) :
    (∃ i t, decodeCommand s.limits c.word c.beside = .ok i ∧ admission i s = none ∧ nestedBody i s = .ok t ∧
        runCall c s = .ok t) ∨ ∃ r, runCall c s = .refused r s := by
  unfold runCall
  split
  · exact .inr ⟨_, rfl⟩
  · split
    · exact .inr ⟨_, rfl⟩
    · rename_i i hi
      split
      · exact .inr ⟨_, rfl⟩
      · rename_i ha
        rcases nestedBody_cases i s with ⟨t, ht⟩ | ⟨r, hr⟩
        · exact .inl ⟨i, t, hi, ha, ht, ht⟩
        · exact .inr ⟨r, hr⟩

@[simp] theorem runCalls_nil (s : State) : runCalls [] s = .ok s := rfl

/-- `ask` when the answer is scripted (R264): the commands run in the called state, then the context is restored. -/
theorem ask_scripted {c : Call} {s u : State} {a : HandlerAnswer} {rest : List HandlerAnswer}
    (h : s.env.answers = a :: rest) (hu : runCalls a.calls (calledState c rest s) = .ok u) :
    ask c s = .ok (a, u.setCtx s.ctx) := by
  have hd : drawAnswer (s.emit (.call c)) =
      (a, { (s.emit (.call c)) with env := { s.env with answers := rest } }) := drawAnswer_scripted (s := s.emit (.call c)) h
  have he : State.setCtx { (s.emit (.call c)) with env := { s.env with answers := rest } } .inCallback =
      calledState c rest s := rfl
  simp only [ask, hd, he, hu, Flow.bind_ok]

/-- A notification when the answer is scripted (R266). -/
theorem notify_scripted {c : Call} {s u : State} {a : HandlerAnswer} {rest : List HandlerAnswer}
    (h : s.env.answers = a :: rest) (hu : runCalls a.calls (calledState c rest s) = .ok u) :
    notify c s = .ok (u.setCtx s.ctx) := by
  simp only [notify, ask_scripted h hu, Flow.bind_ok]

/-- The commands of an answer never end in a raise: they go on, or one is refused (R264, R312). -/
theorem runCalls_ne_raised : ∀ (cs : List Input) (s : State) (e : ErrCode) (u : State), runCalls cs s ≠ .raised e u
  | [], s, e, u => by simp
  | c :: cs, s, e, u => by
    intro h
    rcases runCall_cases c s with ⟨_, t, _, _, _, ht⟩ | ⟨r, hr⟩
    · simp only [runCalls, ht, Flow.bind_ok] at h
      exact runCalls_ne_raised cs t e u h
    · simp only [runCalls, hr, Flow.bind_refused, reduceCtorEq] at h

/-- `ask` when a command of the scripted answer is refused: it ends there, the context not restored (R312, log 18). -/
theorem ask_refused {c : Call} {s u : State} {a : HandlerAnswer} {rest : List HandlerAnswer} {r : RefuseReason}
    (h : s.env.answers = a :: rest) (hu : callRefused c a rest s r u) : ask c s = .refused r u := by
  have hd : drawAnswer (s.emit (.call c)) =
      (a, { (s.emit (.call c)) with env := { s.env with answers := rest } }) := drawAnswer_scripted (s := s.emit (.call c)) h
  have he : State.setCtx { (s.emit (.call c)) with env := { s.env with answers := rest } } .inCallback =
      calledState c rest s := rfl
  simp only [ask, hd, he]
  rw [hu, Flow.bind_refused]

/-- A notification when a command of the scripted answer is refused (R266, R312). -/
theorem notify_refused {c : Call} {s u : State} {a : HandlerAnswer} {rest : List HandlerAnswer} {r : RefuseReason}
    (h : s.env.answers = a :: rest) (hu : callRefused c a rest s r u) : notify c s = .refused r u := by
  simp only [notify, ask_refused h hu, Flow.bind_refused]

end Sys2Proof.Machine
end

