-- ==== Sys2Proof/Laws/Control.lean ====
section
/-! SUPPORT. The Control Transfer Engine's shared procedures (40_control_engine.md): SendNext, the outcomes, Dispatch and
CompleteTransfer end in the states Safety.lean writes out. -/

namespace Sys2Proof.Machine

/-- Everything SendNext can do (R130): it sends the next packet, or the packet lies outside the buffer. -/
theorem sendNext_cases (s : State) :
    (s.dataCursor.toNat + nextPacket s ≤ s.maxDataSize.toNat ∧
        sendNext s =
          .ok
            { s with
              trace := s.trace ++ [.writeEndpoint ep0In (memGetAll s.dataBuffer s.dataCursor.toNat (nextPacket s)) none]
              dataCursor := u32 (s.dataCursor.toNat + nextPacket s)
              transferredCount := u32 (s.transferredCount.toNat + nextPacket s)
              controlState :=
                afterPacket s.controlState (nextPacket s) (s.transferredCount.toNat + nextPacket s) s.totalLen.toNat
                  s.ep0PacketSize.toNat }) ∨
      (s.maxDataSize.toNat < s.dataCursor.toNat + nextPacket s ∧ sendNext s = .refused .bufferBounds s) := by
  unfold sendNext
  rcases bufRead_cases s.dataCursor.toNat (nextPacket s) s with ⟨h, e⟩ | ⟨h, e⟩
  · exact .inl ⟨h, by dsimp only; rw [e]; rfl⟩
  · exact .inr ⟨h, by dsimp only; rw [e]; rfl⟩

/-- The status stage (R128). -/
theorem ackStatus_eq (c : Option Token) (s : State) : ackStatus c s = .ok (statusState c s) := rfl

/-- The first packet of an IN response that fits the buffer (R127, R129, R130). -/
theorem ackIn_fits {req : ControlRequest} {d : List Byte} (c : Option Token) {s : State} (hm : memWf s.dataBuffer = true)
    (hf : min d.length req.length.toNat ≤ s.maxDataSize.toNat) :
    ackIn req (some d) c s = .ok (responseState req.length.toNat d c s) := by
  have hlen : req.length.toNat < 65536 := req.length.isLt
  have ht : (u32 (min d.length req.length.toNat)).toNat = min d.length req.length.toNat := u32_toNat (by omega)
  have h0 : (0 : Word).toNat = 0 := rfl
  have hno : ¬ s.maxDataSize.toNat < min d.length req.length.toNat := by omega
  have htake : (d.take (min d.length req.length.toNat)).length = min d.length req.length.toNat := by simp
  simp only [ackIn, hno, if_false]
  rcases bufWrite_cases 0 (d.take (min d.length req.length.toNat)) { s with pending := .none, completion := c } with
    ⟨_, e⟩ | ⟨hb, _⟩
  · rw [e, Flow.bind_ok]
    rcases sendNext_cases
        { s with
          pending := .none
          completion := c
          dataBuffer := memPutAll s.dataBuffer 0 (d.take (min d.length req.length.toNat))
          totalLen := u32 (min d.length req.length.toNat)
          dataCursor := 0
          transferredCount := 0
          controlState := inDataState d.length req.length.toNat } with ⟨_, e⟩ | ⟨hb, _⟩
    · rw [e]
      simp only [nextPacket, ht, h0, Nat.sub_zero, Nat.zero_add, responseState, Flow.ok.injEq, State.mk.injEq, true_and,
        and_true]
      refine ⟨?_, ?_⟩
      · unfold afterPacket inDataState
        by_cases hlt : d.length < req.length.toNat
        · have : ¬ req.length.toNat ≤ d.length := by omega
          simp [hlt, this]
        · have : req.length.toNat ≤ d.length := by omega
          simp [hlt, this]
      · rw [memGetAll_memPutAll hm _ _ _ (by rw [htake]; omega), List.drop_zero, List.take_take]
        rw [Nat.min_eq_left (Nat.min_le_left _ _)]
    · simp only [nextPacket, ht, h0] at hb; omega
  · simp only [htake] at hb; omega

/-- Outcome ACK ends an event in the state the rules name (R124, R127, R128, R303). -/
theorem finish_ack (req : ControlRequest) (data : Option (List Byte)) (c : Option Token) {s : State}
    (hm : memWf s.dataBuffer = true) : finish (applyOutcome req (.ack data c) s) = .next (ackState req data c s) := by
  unfold applyOutcome ackState
  simp only
  by_cases hi : hasInData req = true
  · simp only [hi, if_true]
    cases data with
    | none => simp only [ackIn, finish_raised, recover_eq]; rfl
    | some d =>
      by_cases hf : s.maxDataSize.toNat < min d.length req.length.toNat
      · simp only [ackIn, hf, if_true, finish_raised, recover_eq]; rfl
      · simp only [hf, if_false, ackIn_fits c hm (by omega : min d.length req.length.toNat ≤ s.maxDataSize.toNat), finish_ok]
  · simp only [hi, if_false, ackStatus_eq, finish_ok, Bool.false_eq_true]

/-- Outcome FAIL ends an event in recovery (R125, R303). -/
theorem finish_fail (req : ControlRequest) (e : ErrCode) (s : State) :
    finish (applyOutcome req (.fail e) s) = .next (stalledState (errNumber e) s) := by
  simp only [applyOutcome, finish_raised, recover_eq]

/-- Outcome NAK changes only `pending` (R126). -/
theorem finish_nak (req : ControlRequest) (s : State) :
    finish (applyOutcome req .nak s) = .next { s with pending := .fresh } := rfl

/-- A callback's answer ends an event in the state the rules name (R171). -/
theorem finish_answered (req : ControlRequest) (a : HandlerAnswer) {s : State} (hm : memWf s.dataBuffer = true) :
    finish (applyOutcome req (normalise a) s) = .next (answeredState req a s) := by
  unfold normalise answeredState
  cases a.respond
  · exact finish_fail req .hrHandlerFail s
  · exact finish_ack req a.data a.completion hm
  · rfl

/-- Dispatch with OUT data that fit the buffer (R124). -/
theorem dispatchWith_fits {req : ControlRequest} (rule : Rule) {s : State} (hf : outDataFits req s) :
    dispatchWith req rule s = (rule req (outDataOf req s) s).bind fun r => applyOutcome req r.1 r.2 := by
  unfold dispatchWith outDataOf
  by_cases ho : hasOutData req = true
  · simp only [ho, if_true]
    rcases bufRead_cases 0 req.length.toNat s with ⟨_, e⟩ | ⟨hb, _⟩
    · rw [e, Flow.bind_ok]
    · have := hf ho; omega
  · simp only [ho, if_false, Flow.bind_ok, Bool.false_eq_true]

/-- The deferred address (R140). -/
theorem applyAddress_eq (s : State) : applyAddress s = addressedState s := by
  unfold applyAddress addressedState
  cases s.pendingAddress with
  | none => rfl
  | some a => by_cases h : a = 0 <;> simp [h, State.emit]

/-- CompleteTransfer without a completion token (R140). -/
theorem completeTransfer_silent {s : State} (h : s.completion = none) : completeTransfer s = .ok (addressedState s) := by
  have : (addressedState s).completion = none := by
    unfold addressedState; split <;> exact h
  simp only [completeTransfer, applyAddress_eq, this]

end Sys2Proof.Machine
end

