-- ==== Sys2Proof/Laws/Step.lean ====
section
/-! SUPPORT. `exec` by format, the poll cycle and the step: what each can be. -/

namespace Sys2Proof.Machine

/-- The body a command runs once admitted. -/
def commandBody (i : Instr) (s : State) : Flow State :=
  match i with
  | .init cap ep0 => bodyInit cap ep0 s
  | .poll batch => bodyPoll batch s
  | i => nestedBody i s

/-- A command is its body behind admission (R256). -/
theorem exec_command {i : Instr} (h : format i = .command) (s : State) : exec i s = runCommand i (commandBody i) s := by
  cases i <;> first | rfl | simp [format] at h

/-- An event by itself is Process of it (R212). -/
theorem exec_event {i : Instr} (h : format i = .event) (s : State) : exec i s = runEvent i (process i) s := by
  cases i <;> first | rfl | simp [format] at h

/-- A request is Dispatch of its rule (R124, R170). -/
theorem exec_request {i : Instr} (h : format i = .request) (s : State) : exec i s = runRequest i s := by
  cases i <;> first | rfl | simp [format] at h

/-- A standard request decodes to a request. -/
theorem format_decodeStdRequest (c : Byte) (d : Dir) (r : BitVec 5) : format (decodeStdRequest c d r) = .request := by
  unfold decodeStdRequest
  split <;> rfl

/-- A request key decodes to a request (R102). -/
theorem format_decodeKey (k : Half) : format (decodeKey k) = .request := by
  unfold decodeKey
  simp only
  split
  · exact format_decodeStdRequest _ _ _
  all_goals rfl

/-- Everything a command can end in. -/
theorem runCommand_cases (i : Instr) (body : State → Flow State) (s : State) :
    (s.refused = true ∧ runCommand i body s = .fault .stuck) ∨
      (s.refused = false ∧ ∃ r, admission i s = some r ∧ runCommand i body s = .next (s.refuse r)) ∨
        (s.refused = false ∧ admission i s = none ∧ runCommand i body s = finish (body s)) := by
  unfold runCommand
  cases hr : s.refused
  · cases ha : admission i s with
    | none => exact .inr (.inr ⟨rfl, rfl, by simp⟩)
    | some r => exact .inr (.inl ⟨rfl, r, rfl, by simp⟩)
  · exact .inl ⟨rfl, by simp⟩

/-- An admitted command runs its body. -/
theorem runCommand_admitted {i : Instr} {s : State} (body : State → Flow State) (hr : s.refused = false)
    (ha : admission i s = none) : runCommand i body s = finish (body s) := by
  simp [runCommand, hr, ha]

/-- A legal event by itself runs its body. -/
theorem runEvent_legal {i : Instr} {s : State} (body : State → Flow State) (hr : s.refused = false)
    (hw : i.wf s.limits = true) : runEvent i body s = finish (body s) := by
  simp [runEvent, hr, hw]

/-- Everything the fetch can find. -/
theorem fetch_cases (s : State) :
    (s.refused = true ∧ fetch s = .stuck) ∨
      (s.refused = false ∧ s.env.inputs = [] ∧ fetch s = .idle) ∨
        ∃ inp rest, s.refused = false ∧ s.env.inputs = inp :: rest ∧
          ((wordClass inp.word = 0 ∧ fetch s = .arrived (arrive inp { s with env := { s.env with inputs := rest } })) ∨
            (wordClass inp.word ≠ 0 ∧
              ((∃ r, fetch s = .refused r { s with env := { s.env with inputs := rest } }) ∨
                ∃ i, decodeCommand s.limits inp.word inp.beside = .ok i ∧
                  fetch s = .run i { s with env := { s.env with inputs := rest } }))) := by
  unfold fetch
  cases hr : s.refused
  · cases hi : s.env.inputs with
    | nil => exact .inr (.inl ⟨rfl, rfl, rfl⟩)
    | cons inp rest =>
      refine .inr (.inr ⟨inp, rest, rfl, rfl, ?_⟩)
      by_cases hc : wordClass inp.word = 0
      · exact .inl ⟨hc, by simp [hc]⟩
      · refine .inr ⟨hc, ?_⟩
        simp only [hc, if_false, Bool.false_eq_true]
        cases he : earlyRefusal inp.word { s with env := { s.env with inputs := rest } } with
        | some r => exact .inl ⟨r, rfl⟩
        | none =>
          cases hd : decodeCommand s.limits inp.word inp.beside with
          | error x =>
            refine .inl ⟨.reservedInput, ?_⟩
            have : decodeCommand (State.limits { s with env := { s.env with inputs := rest } }) inp.word inp.beside = .error x := hd
            simp only [this]
          | ok i =>
            refine .inr ⟨i, rfl, ?_⟩
            have : decodeCommand (State.limits { s with env := { s.env with inputs := rest } }) inp.word inp.beside = .ok i := hd
            simp only [this]
  · exact .inl ⟨rfl, rfl⟩

/-- Everything a step that answers a next state can be: it waits, an event arrives, the input is refused, or a command runs. -/
theorem step_cases {s t : State} (h : step s = .next t) :
    s.refused = false ∧
      ((s.env.inputs = [] ∧ t = s) ∨
        ∃ inp rest, s.env.inputs = inp :: rest ∧
          ((t = arrive inp { s with env := { s.env with inputs := rest } }) ∨
            (∃ r, t = State.refuse { s with env := { s.env with inputs := rest } } r) ∨
              ∃ i, decodeCommand s.limits inp.word inp.beside = .ok i ∧
                exec i { s with env := { s.env with inputs := rest } } = .next t)) := by
  unfold step at h
  rcases fetch_cases s with ⟨_, e⟩ | ⟨hr, hi, e⟩ | ⟨inp, rest, hr, hi, ⟨_, e⟩ | ⟨_, ⟨r, e⟩ | ⟨i, hd, e⟩⟩⟩
  · rw [e] at h; cases h
  · rw [e] at h; cases h; exact ⟨hr, .inl ⟨hi, rfl⟩⟩
  · rw [e] at h; cases h; exact ⟨hr, .inr ⟨inp, rest, hi, .inl rfl⟩⟩
  · rw [e] at h; cases h; exact ⟨hr, .inr ⟨inp, rest, hi, .inr (.inl ⟨r, rfl⟩)⟩⟩
  · rw [e] at h; exact ⟨hr, .inr ⟨inp, rest, hi, .inr (.inr ⟨i, hd, h⟩)⟩⟩

@[simp] theorem takeEvents_nil (s : State) : takeEvents [] s = .ok s := rfl
@[simp] theorem takeEvents_cons (e : EventInput) (es : List EventInput) (s : State) :
    takeEvents (e :: es) s = (takeEvent e s).bind (takeEvents es) := rfl

/-- One event of a batch never raises out of it (R303). -/
theorem takeEvent_ne_raised (e : EventInput) (s : State) (c : ErrCode) (u : State) : takeEvent e s ≠ .raised c u := by
  unfold takeEvent
  split
  · simp
  · exact caught_ne_raised _ _ _

end Sys2Proof.Machine
end

