-- ==== Sys2Proof/Laws/PerInstr.lean ====
section
/-! SUPPORT. Statements made per instruction, about the instruction as syntax: its word lies in its own row of
spec/opcode_table.json (30_encoding.md R98, R100, R102). -/

namespace Sys2Proof.Laws.TableRow

open Sys2Proof.Machine

/-- The word of an instruction matches its row under the row's mask. -/
def Statement (i : Instr) : Prop := encodeWord i &&& (tableRow i).2 = (tableRow i).1

/-- An endpoint command's word under the mask 0xFF00 is its class and code. -/
theorem epRow (code : BitVec 4) (ep : EpAddr) :
    inputWord 1 code (encodeEp ep) &&& 0xFF00 = 0x1000 ||| (code.setWidth 16 <<< 8) := by
  obtain ⟨d, n⟩ := ep
  revert code n
  cases d <;> decide

/-- A request key under the mask 0x0060 is its type, in bits 6 and 5. -/
theorem typeBits (c : Byte) (d : Dir) (t : BitVec 2) (r : BitVec 5) :
    keyWord c d t r &&& 0x0060 = 0#8 ++ (0#1 ++ (t ++ 0#5)) := by
  have mask : (0x0060 : Half) = 0#8 ++ (0#1 ++ (3#2 ++ 0#5)) := by decide
  have full : (3#2 : BitVec 2) = BitVec.allOnes 2 := by decide
  rw [mask, keyWord, BitVec.and_append, BitVec.and_append, BitVec.and_append, full]
  rw [BitVec.and_allOnes]
  simp

theorem evtReset : Statement .evtReset := by
  show inputWord 0 0 0 &&& 0xFFFF = 0x0000
  decide

theorem evtSuspend : Statement .evtSuspend := by
  show inputWord 0 1 0 &&& 0xFFFF = 0x0100
  decide

theorem evtResume : Statement .evtResume := by
  show inputWord 0 2 0 &&& 0xFFFF = 0x0200
  decide

theorem evtSetup (p : List Byte) : Statement (.evtSetup p) := by
  show inputWord 0 3 0 &&& 0xFFFF = 0x0300
  decide

theorem evtEp0Rx (p : List Byte) : Statement (.evtEp0Rx p) := by
  show inputWord 0 4 0 &&& 0xFFFF = 0x0400
  decide

theorem evtEpnRx (n : BitVec 4) : Statement (.evtEpnRx n) := by
  have h : ∀ m : BitVec 4, inputWord 0 4 (encodeEp ⟨.out, m⟩) &&& 0xFFF0 = 0x0400 := by decide
  exact h n

theorem evtEp0Tx : Statement .evtEp0Tx := by
  show inputWord 0 5 128 &&& 0xFFFF = 0x0580
  decide

theorem evtEpnTx (n : BitVec 4) : Statement (.evtEpnTx n) := by
  have h : ∀ m : BitVec 4, inputWord 0 5 (encodeEp ⟨.inn, m⟩) &&& 0xFFF0 = 0x0580 := by decide
  exact h n

theorem init (cap : Word) (ep0 : Half) : Statement (.init cap ep0) := by
  show inputWord 1 0 0 &&& 0xFFFF = 0x1000
  decide

theorem poll (batch : List EventInput) : Statement (.poll batch) := by
  show inputWord 1 1 0 &&& 0xFFFF = 0x1100
  decide

theorem regControl (h : Option HandlerId) : Statement (.regControl h) := by
  show inputWord 1 2 0 &&& 0xFFFF = 0x1200
  decide

theorem regConfig (h : Option HandlerId) : Statement (.regConfig h) := by
  show inputWord 1 3 0 &&& 0xFFFF = 0x1300
  decide

theorem regDescriptor (h : Option HandlerId) : Statement (.regDescriptor h) := by
  show inputWord 1 4 0 &&& 0xFFFF = 0x1400
  decide

theorem regEndpoint (n : BitVec 4) (h : Option HandlerId) : Statement (.regEndpoint n h) := by
  have h : ∀ m : BitVec 4, inputWord 1 5 (m.setWidth 8) &&& 0xFF00 = 0x1500 := by decide
  exact h n

theorem regEvent (e : DeviceEvent) (h : Option HandlerId) : Statement (.regEvent e h) := by
  cases e
  · show inputWord 1 6 0 &&& 0xFF00 = 0x1600; decide
  · show inputWord 1 6 1 &&& 0xFF00 = 0x1600; decide
  · show inputWord 1 6 2 &&& 0xFF00 = 0x1600; decide

theorem epConfig (ep : EpAddr) (ty : EpType) (mps : Half) : Statement (.epConfig ep ty mps) := epRow 7 ep

theorem epDeconfig (ep : EpAddr) : Statement (.epDeconfig ep) := epRow 8 ep

theorem epWrite (ep : EpAddr) (bytes : List Byte) : Statement (.epWrite ep bytes) := epRow 9 ep

theorem epRead (ep : EpAddr) : Statement (.epRead ep) := epRow 10 ep

theorem epStall (ep : EpAddr) : Statement (.epStall ep) := epRow 11 ep

theorem epUnstall (ep : EpAddr) : Statement (.epUnstall ep) := epRow 12 ep

theorem enable (b : Bool) : Statement (.enable b) := by
  have h : ∀ f : Bool, inputWord 1 13 (flagByte f) &&& 0xFFFE = 0x1D00 := by decide
  exact h b

theorem connect (b : Bool) : Statement (.connect b) := by
  have h : ∀ f : Bool, inputWord 1 14 (flagByte f) &&& 0xFFFE = 0x1E00 := by decide
  exact h b

theorem getInfo : Statement .getInfo := by
  show inputWord 1 15 0 &&& 0xFFFF = 0x1F00
  decide

theorem getStatus (d : Dir) (r : BitVec 5) : Statement (.getStatus d r) := by
  have h : ∀ q : BitVec 5, keyWord 0x00 d 0 q &&& 0xFF60 = 0x0000 := by cases d <;> decide
  exact h r

theorem clearFeature (d : Dir) (r : BitVec 5) : Statement (.clearFeature d r) := by
  have h : ∀ q : BitVec 5, keyWord 0x01 d 0 q &&& 0xFF60 = 0x0100 := by cases d <;> decide
  exact h r

theorem setFeature (d : Dir) (r : BitVec 5) : Statement (.setFeature d r) := by
  have h : ∀ q : BitVec 5, keyWord 0x03 d 0 q &&& 0xFF60 = 0x0300 := by cases d <;> decide
  exact h r

theorem setAddress (d : Dir) (r : BitVec 5) : Statement (.setAddress d r) := by
  have h : ∀ q : BitVec 5, keyWord 0x05 d 0 q &&& 0xFF60 = 0x0500 := by cases d <;> decide
  exact h r

theorem getDescriptor (d : Dir) (r : BitVec 5) : Statement (.getDescriptor d r) := by
  have h : ∀ q : BitVec 5, keyWord 0x06 d 0 q &&& 0xFF60 = 0x0600 := by cases d <;> decide
  exact h r

theorem setDescriptor (d : Dir) (r : BitVec 5) : Statement (.setDescriptor d r) := by
  have h : ∀ q : BitVec 5, keyWord 0x07 d 0 q &&& 0xFF60 = 0x0700 := by cases d <;> decide
  exact h r

theorem getConfiguration (d : Dir) (r : BitVec 5) : Statement (.getConfiguration d r) := by
  have h : ∀ q : BitVec 5, keyWord 0x08 d 0 q &&& 0xFF60 = 0x0800 := by cases d <;> decide
  exact h r

theorem setConfiguration (d : Dir) (r : BitVec 5) : Statement (.setConfiguration d r) := by
  have h : ∀ q : BitVec 5, keyWord 0x09 d 0 q &&& 0xFF60 = 0x0900 := by cases d <;> decide
  exact h r

theorem getInterface (d : Dir) (r : BitVec 5) : Statement (.getInterface d r) := by
  have h : ∀ q : BitVec 5, keyWord 0x0A d 0 q &&& 0xFF60 = 0x0A00 := by cases d <;> decide
  exact h r

theorem setInterface (d : Dir) (r : BitVec 5) : Statement (.setInterface d r) := by
  have h : ∀ q : BitVec 5, keyWord 0x0B d 0 q &&& 0xFF60 = 0x0B00 := by cases d <;> decide
  exact h r

theorem stdOther (c : Byte) (d : Dir) (r : BitVec 5) : Statement (.stdOther c d r) := typeBits c d _ r

theorem classRequest (c : Byte) (d : Dir) (r : BitVec 5) : Statement (.classRequest c d r) := typeBits c d _ r

theorem vendorRequest (c : Byte) (d : Dir) (r : BitVec 5) : Statement (.vendorRequest c d r) := typeBits c d _ r

theorem reservedType (c : Byte) (d : Dir) (r : BitVec 5) : Statement (.reservedType c d r) := typeBits c d _ r

end Sys2Proof.Laws.TableRow
end

