-- ==== Sys2Proof/Tests/Slice0.lean ====
section
/-! SUPPORT. The model's own tests. Expected results are the spec's: 95_test_vectors.md (ids V-L1-*, S*, R*, T*x, Q*, E*, A*, C*),
the examples of the rules, and words written out from the encodings of 30_encoding.md. The witnesses at the end meet the
hypotheses of the obligations. -/

namespace Sys2Proof.Machine

/-! ## Builders -/

/-- Bounds of the vectors (95_test_vectors.md, Conventions) with an EP0 size of 8. -/
def testLimits : Limits := { numEp := 4, ep0Size := 8 }

/-- B(64, 8) without its trace: initialised, sizes set, everything else as INIT leaves it. -/
def testState : State := { State.reset with initialised := true, ep0PacketSize := 8, maxDataSize := 64 }

/-- A request register from its eight bytes. -/
def testSetup (p : List Byte) : ControlRequest := (parseSetup p).getD default

/-- `testState` with a request in flight. -/
def testRequest (p : List Byte) : State := { testState with setup := testSetup p }

/-- A field of the next state. -/
def after {α : Type} (f : State → α) (o : Host.Outcome State Fault Refusal) : Option α :=
  match o with
  | .next t => some (f t)
  | .fault _ => none
  | .refused _ => none

/-! ## WellFormed refuses what each of its checks names -/

theorem test_wf_setup_payload : (Instr.evtSetup (List.replicate 65 0)).wf testLimits = false := by decide
theorem test_wf_rx_payload : (Instr.evtEp0Rx (List.replicate 9 0)).wf testLimits = false := by decide
theorem test_wf_rx_no_endpoint : (Instr.evtEp0Rx []).wf { numEp := 0, ep0Size := 8 } = false := by decide
theorem test_wf_tx_no_endpoint : Instr.evtEp0Tx.wf { numEp := 0, ep0Size := 8 } = false := by decide
theorem test_wf_epn_rx : (Instr.evtEpnRx 0).wf testLimits = false ∧ (Instr.evtEpnRx 4).wf testLimits = false := by decide
theorem test_wf_epn_tx : (Instr.evtEpnTx 0).wf testLimits = false ∧ (Instr.evtEpnTx 4).wf testLimits = false := by decide
theorem test_wf_reg_endpoint : (Instr.regEndpoint 4 none).wf testLimits = false := by decide
theorem test_wf_ep_config : (Instr.epConfig { dir := .inn, num := 4 } .bulk 64).wf testLimits = false := by decide
theorem test_wf_ep_deconfig : (Instr.epDeconfig { dir := .out, num := 15 }).wf testLimits = false := by decide
theorem test_wf_ep_write : (Instr.epWrite { dir := .inn, num := 4 } []).wf testLimits = false := by decide
theorem test_wf_ep_read : (Instr.epRead { dir := .out, num := 4 }).wf testLimits = false := by decide
theorem test_wf_ep_stall : (Instr.epStall { dir := .inn, num := 5 }).wf testLimits = false := by decide
theorem test_wf_ep_unstall : (Instr.epUnstall { dir := .inn, num := 5 }).wf testLimits = false := by decide
theorem test_wf_std_other : (Instr.stdOther 0x00 .out 0).wf testLimits = false ∧ (Instr.stdOther 0x0B .inn 1).wf testLimits = false := by
  decide

/-! ## Words written out bit by bit: class, kind or code, low byte (R94, R95, R100) -/

theorem test_decode_evtReset : decodeEvent testLimits 0b0000000000000000 [] = .ok .evtReset := rfl
theorem test_decode_evtSuspend : decodeEvent testLimits 0b0000000100000000 [] = .ok .evtSuspend := rfl
theorem test_decode_evtResume : decodeEvent testLimits 0b0000001000000000 [] = .ok .evtResume := rfl
theorem test_decode_evtSetup : decodeEvent testLimits 0b0000001100000000 [0x80, 0x06] = .ok (.evtSetup [0x80, 0x06]) := rfl
theorem test_decode_evtEp0Rx : decodeEvent testLimits 0b0000010000000000 [0xAA] = .ok (.evtEp0Rx [0xAA]) := rfl
theorem test_decode_evtEpnRx : decodeEvent testLimits 0b0000010000000010 [] = .ok (.evtEpnRx 2) := rfl
theorem test_decode_evtEp0Tx : decodeEvent testLimits 0b0000010110000000 [] = .ok .evtEp0Tx := rfl
theorem test_decode_evtEpnTx : decodeEvent testLimits 0b0000010110000011 [] = .ok (.evtEpnTx 3) := rfl
theorem test_decode_init : decodeCommand testLimits 0b0001000000000000 { cap := 64, ep0 := 8 } = .ok (.init 64 8) := rfl
theorem test_decode_poll :
    decodeCommand testLimits 0b0001000100000000 { batch := [{ word := 0x0580 }] } = .ok (.poll [{ word := 0x0580 }]) := rfl
theorem test_decode_regControl : decodeCommand testLimits 0b0001001000000000 { handler := some 1 } = .ok (.regControl (some 1)) := rfl
theorem test_decode_regConfig : decodeCommand testLimits 0b0001001100000000 { handler := some 2 } = .ok (.regConfig (some 2)) := rfl
theorem test_decode_regDescriptor : decodeCommand testLimits 0b0001010000000000 {} = .ok (.regDescriptor none) := rfl
theorem test_decode_regEndpoint : decodeCommand testLimits 0b0001010100000001 { handler := some 4 } = .ok (.regEndpoint 1 (some 4)) := rfl
theorem test_decode_regEvent : decodeCommand testLimits 0b0001011000000001 { handler := some 5 } = .ok (.regEvent .suspend (some 5)) := rfl
theorem test_decode_epConfig :
    decodeCommand testLimits 0b0001011110000001 { epType := .bulk, mps := 64 } = .ok (.epConfig { dir := .inn, num := 1 } .bulk 64) := rfl
theorem test_decode_epDeconfig : decodeCommand testLimits 0b0001100010000001 {} = .ok (.epDeconfig { dir := .inn, num := 1 }) := rfl
theorem test_decode_epWrite : decodeCommand testLimits 0b0001100110000001 { bytes := [1, 2] } = .ok (.epWrite { dir := .inn, num := 1 } [1, 2]) := rfl
theorem test_decode_epRead : decodeCommand testLimits 0b0001101000000010 {} = .ok (.epRead { dir := .out, num := 2 }) := rfl
theorem test_decode_epStall : decodeCommand testLimits 0b0001101110000001 {} = .ok (.epStall { dir := .inn, num := 1 }) := rfl
theorem test_decode_epUnstall : decodeCommand testLimits 0b0001110000000011 {} = .ok (.epUnstall { dir := .out, num := 3 }) := rfl
theorem test_decode_enable : decodeCommand testLimits 0b0001110100000001 {} = .ok (.enable true) := rfl
theorem test_decode_connect : decodeCommand testLimits 0b0001111000000000 {} = .ok (.connect false) := rfl
theorem test_decode_getInfo : decodeCommand testLimits 0b0001111100000000 {} = .ok .getInfo := rfl

/-! ## Request keys written out: request code, direction, type, recipient (R81, R84, R102) -/

theorem test_decode_getStatus : decodeKey 0b0000000010000010 = .getStatus .inn 2 := rfl
theorem test_decode_clearFeature : decodeKey 0b0000000100000010 = .clearFeature .out 2 := rfl
theorem test_decode_setFeature : decodeKey 0b0000001100000010 = .setFeature .out 2 := rfl
theorem test_decode_setAddress : decodeKey 0b0000010100000000 = .setAddress .out 0 := rfl
theorem test_decode_getDescriptor : decodeKey 0b0000011010000000 = .getDescriptor .inn 0 := rfl
theorem test_decode_setDescriptor : decodeKey 0b0000011100000000 = .setDescriptor .out 0 := rfl
theorem test_decode_getConfiguration : decodeKey 0b0000100010000000 = .getConfiguration .inn 0 := rfl
theorem test_decode_setConfiguration : decodeKey 0b0000100100000000 = .setConfiguration .out 0 := rfl
theorem test_decode_getInterface : decodeKey 0b0000101010000001 = .getInterface .inn 1 := rfl
theorem test_decode_setInterface : decodeKey 0b0000101100000001 = .setInterface .out 1 := rfl
theorem test_decode_stdOther : decodeKey 0b0000110010000010 = .stdOther 0x0C .inn 2 := rfl
theorem test_decode_classRequest : decodeKey 0b0010000000100001 = .classRequest 0x20 .out 1 := rfl
theorem test_decode_vendorRequest : decodeKey 0b0000000111000000 = .vendorRequest 0x01 .inn 0 := rfl
theorem test_decode_reservedType : decodeKey 0b0000000111100000 = .reservedType 0x01 .inn 0 := rfl

/-! ## Reserved words (R99), with the vectors A10 to A13 and E11 -/

theorem test_reserved_class : decodeInput testLimits 0x2000 {} = .error .reservedClass := rfl
theorem test_reserved_kind : decodeInput testLimits 0x0600 {} = .error .reservedKind := rfl
theorem test_reserved_rx_direction : decodeInput testLimits 0x0485 {} = .error .badEndpoint := rfl
theorem test_reserved_enable : decodeInput testLimits 0x1D02 {} = .error .badArgument := rfl
theorem test_reserved_event_code : decodeInput testLimits 0x1603 {} = .error .badArgument := rfl
theorem test_reserved_endpoint_number : decodeInput testLimits 0x1504 {} = .error .badArgument := rfl
theorem test_reserved_setup_length : decodeInput testLimits 0x0300 { bytes := List.replicate 65 0 } = .error .payloadTooLong := rfl

/-! ## Events -/

/-- E1: a reset in TxData and Configured. -/
theorem test_evtReset :
    after (fun t => (t.controlState, t.deviceState, t.activeConfig, t.halt { dir := .inn, num := 1 }, t.trace))
        (exec .evtReset
          { (testState.setHalt { dir := .inn, num := 1 } true) with
            controlState := .txData, deviceState := .configured, activeConfig := 1 }) =
      some (.idle, .default, 0, false, [.configureEndpoint ep0Out .control 8]) := by decide

/-- E2: the SUSPEND callback. -/
theorem test_evtSuspend :
    after (fun t => (t.trace, t.controlState))
        (exec .evtSuspend
          { testState with
            controlState := .txData
            evtHandler := { reset := none, suspend := some 3, resume := none }
            env := { testState.env with answers := [{}] } }) =
      some ([.call (.event 3 .suspend)], .txData) := by decide

/-- E3: no RESUME handler, nothing happens. -/
theorem test_evtResume : exec .evtResume testState = .next testState := rfl

/-- S1: seven bytes. -/
theorem test_evtSetup_short :
    after (fun t => (t.trace, t.controlState)) (exec (.evtSetup [0x80, 0x06, 0x00, 0x01, 0x00, 0x00, 0x12]) testState) =
      some ([.readEndpoint ep0Out [0x80, 0x06, 0x00, 0x01, 0x00, 0x00, 0x12], .stallEndpoint ep0Out, .stallEndpoint ep0In,
        .note 0x01], .idle) := by decide

/-- S4: an OUT request of exactly the capacity. -/
theorem test_evtSetup_out :
    after (fun t => (t.controlState, t.totalLen)) (exec (.evtSetup [0x21, 0x09, 0x00, 0x00, 0x00, 0x00, 0x40, 0x00]) testState) =
      some (.rxData, 64) := by decide

/-- R2: a short packet is stored before the stall. -/
theorem test_evtEp0Rx_short :
    after (fun t => (t.controlState, memGet t.dataBuffer 4, t.trace.getLast?))
        (exec (.evtEp0Rx [1, 2, 3, 4, 5])
          { (testRequest [0x21, 0x09, 0x00, 0x02, 0x00, 0x00, 0x0A, 0x00]) with controlState := .rxData, totalLen := 10 }) =
      some (.idle, 5, some (.note 0x04)) := by decide

/-- R1: an overflow stores nothing. -/
theorem test_evtEp0Rx_overflow :
    after (fun t => (t.controlState, memGet t.dataBuffer 8, t.trace.getLast?))
        (exec (.evtEp0Rx [0xAA, 0xBB, 0xCC])
          { (testRequest [0x21, 0x09, 0x00, 0x02, 0x00, 0x00, 0x0A, 0x00]) with
            controlState := .rxData, totalLen := 10, dataCursor := 8, transferredCount := 8 }) =
      some (.idle, 0, some (.note 0x03)) := by decide

/-- E6: no handler, the event is dropped. -/
theorem test_evtEpnRx_dropped : exec (.evtEpnRx 3) testState = .next testState := rfl

/-- E5: the handler of number 1 gets TX with address 0x81. -/
theorem test_evtEpnTx :
    after (·.trace)
        (exec (.evtEpnTx 1) { (testState.setEpCb 1 (some 7)) with env := { testState.env with answers := [{}] } }) =
      some [.call (.endpoint 7 .tx { dir := .inn, num := 1 })] := by decide

/-- V-L1-2, third POLL: the ZLP after two full packets of a shorter response. -/
theorem test_evtEp0Tx_zlp :
    after (fun t => (t.controlState, t.trace))
        (exec .evtEp0Tx
          { (testRequest [0x80, 0x06, 0x00, 0x02, 0x00, 0x00, 0x40, 0x00]) with
            controlState := .zeroTxData, totalLen := 16, dataCursor := 16, transferredCount := 16 }) =
      some (.lastData, [.writeEndpoint ep0In [] none]) := by decide

/-- T5x: the deferred address. -/
theorem test_evtEp0Tx_address :
    after (fun t => (t.controlState, t.deviceState, t.pendingAddress, t.trace))
        (exec .evtEp0Tx { testState with controlState := .statusIn, pendingAddress := some 5 }) =
      some (.idle, .addressed, none, [.setAddress 5]) := by decide

/-! ## Commands -/

/-- A3: no HAL action, the sizes from the arguments. -/
theorem test_init :
    after (fun t => (t.maxDataSize, t.ep0PacketSize, t.initialised, t.trace)) (exec (.init 64 64) State.reset) =
      some (64, 64, true, []) := by decide

/-- A2: an EP0 size of 12. -/
theorem test_init_size : exec (.init 64 12) State.reset = .next (State.reset.refuse .badArgument) := rfl

/-- E9: events in batch order, the stall after the reset, the count. -/
theorem test_poll_order :
    after (fun t => (t.controlState, t.deviceState, t.returned, t.trace))
        (exec
          (.poll
            [{ word := 0x0300, payload := [0x00, 0x05, 0x05, 0x00, 0x00, 0x00, 0x00, 0x00] }, { word := 0x0000 },
              { word := 0x0580 }])
          testState) =
      some
        (.idle, .default, .events 3,
          [.readEndpoint ep0Out [0x00, 0x05, 0x05, 0x00, 0x00, 0x00, 0x00, 0x00], .writeEndpoint ep0In [] none,
            .configureEndpoint ep0Out .control 8, .stallEndpoint ep0Out, .stallEndpoint ep0In, .note 0x08]) := by decide

/-- V-L1-8, poll 1: a Nak is armed at the end of its own cycle. -/
theorem test_poll_nak :
    after (fun t => (t.controlState, t.pending, t.returned))
        (exec (.poll [{ word := 0x0300, payload := [0x21, 0x0A, 0x00, 0x00, 0x00, 0x00, 0x00, 0x00] }])
          { testState with controlCb := some 1, env := { testState.env with answers := [{ respond := .nak }] } }) =
      some (.idle, .armed, .events 1) := by decide

theorem test_regControl : after (·.controlCb) (exec (.regControl (some 1)) testState) = some (some 1) := by decide
theorem test_regConfig : after (·.configCb) (exec (.regConfig (some 2)) testState) = some (some 2) := by decide
theorem test_regDescriptor : after (·.descriptorCb) (exec (.regDescriptor (some 3)) testState) = some (some 3) := by decide

/-- R245: one slot per endpoint number. -/
theorem test_regEndpoint :
    after (fun t => (t.epCb 1, t.epCb 2)) (exec (.regEndpoint 1 (some 4)) testState) = some (some 4, none) := by decide

/-- R246: one slot per event. -/
theorem test_regEvent :
    after (fun t => (t.evtCb .reset, t.evtCb .suspend)) (exec (.regEvent .reset (some 5)) testState) = some (some 5, none) := by
  decide

/-- A14. -/
theorem test_epConfig :
    after (·.trace) (exec (.epConfig { dir := .inn, num := 2 } .interrupt 8) testState) =
      some [.configureEndpoint { dir := .inn, num := 2 } .interrupt 8] := by decide

/-- R248: the halt stays. -/
theorem test_epDeconfig :
    after (fun t => (t.trace, t.halt { dir := .inn, num := 1 }))
        (exec (.epDeconfig { dir := .inn, num := 1 }) (testState.setHalt { dir := .inn, num := 1 } true)) =
      some ([.deconfigureEndpoint { dir := .inn, num := 1 }], true) := by decide

/-- A4 and A5. -/
theorem test_epWrite_refused :
    exec (.epWrite { dir := .inn, num := 0 } [1]) testState = .next (testState.refuse .ep0Reserved) ∧
      exec (.epWrite { dir := .out, num := 1 } [1]) testState = .next (testState.refuse .direction) := ⟨rfl, rfl⟩

/-- R249 with the HAL answering 2. -/
theorem test_epWrite :
    after (fun t => (t.trace, t.returned))
        (exec (.epWrite { dir := .inn, num := 1 } [1, 2]) { testState with env := { testState.env with writeResults := [2] } }) =
      some ([.writeEndpoint { dir := .inn, num := 1 } [1, 2] (some 2)], .written 2) := by decide

/-- A6. -/
theorem test_epRead_refused : exec (.epRead { dir := .inn, num := 1 }) testState = .next (testState.refuse .direction) := rfl

/-- R250 with the HAL answering two bytes. -/
theorem test_epRead :
    after (fun t => (t.trace, t.returned))
        (exec (.epRead { dir := .out, num := 2 }) { testState with env := { testState.env with readResults := [[9, 8]] } }) =
      some ([.readEndpoint { dir := .out, num := 2 } [9, 8]], .bytes [9, 8]) := by decide

/-- A7: that address and not its OUT twin. -/
theorem test_epStall :
    after (fun t => (t.trace, t.halt { dir := .inn, num := 1 }, t.halt { dir := .out, num := 1 }))
        (exec (.epStall { dir := .inn, num := 1 }) testState) =
      some ([.stallEndpoint { dir := .inn, num := 1 }], true, false) := by decide

/-- A8. -/
theorem test_epUnstall :
    after (fun t => (t.trace, t.halt { dir := .inn, num := 1 }))
        (exec (.epUnstall { dir := .inn, num := 1 }) (testState.setHalt { dir := .inn, num := 1 } true)) =
      some ([.unstallEndpoint { dir := .inn, num := 1 }], false) := by decide

/-- A9. -/
theorem test_enable : after (·.trace) (exec (.enable true) testState) = some [.enable true] := by decide

/-- R254. -/
theorem test_connect : after (·.trace) (exec (.connect false) testState) = some [.connect false] := by decide

/-- R255 with the HAL answering 7. -/
theorem test_getInfo :
    after (fun t => (t.trace, t.returned)) (exec .getInfo { testState with env := { testState.env with infoResults := [7] } }) =
      some ([.getInfo 7], .caps 7) := by decide

/-! ## Requests -/

/-- Q3 (R176's example): a halted IN endpoint. -/
theorem test_getStatus_halted :
    after (fun t => (t.controlState, t.trace))
        (exec (.getStatus .inn 2)
          ((testRequest [0x82, 0x00, 0x00, 0x00, 0x81, 0x00, 0x02, 0x00]).setHalt { dir := .inn, num := 1 } true)) =
      some (.lastData, [.writeEndpoint ep0In [0x01, 0x00] none]) := by decide

/-- Q5: bits 6:4 of the endpoint address set. -/
theorem test_getStatus_refused :
    after (fun t => t.trace.getLast?) (exec (.getStatus .inn 2) (testRequest [0x82, 0x00, 0x00, 0x00, 0x90, 0x00, 0x02, 0x00])) =
      some (some (.note 0x14)) := by decide

/-- Q11. -/
theorem test_clearFeature :
    after (fun t => (t.halt { dir := .inn, num := 1 }, t.controlState, t.trace))
        (exec (.clearFeature .out 2)
          ((testRequest [0x02, 0x01, 0x00, 0x00, 0x81, 0x00, 0x00, 0x00]).setHalt { dir := .inn, num := 1 } true)) =
      some (false, .statusIn, [.unstallEndpoint { dir := .inn, num := 1 }, .writeEndpoint ep0In [] none]) := by decide

/-- Q10. -/
theorem test_setFeature :
    after (fun t => (t.halt { dir := .out, num := 2 }, t.controlState, t.trace))
        (exec (.setFeature .out 2) (testRequest [0x02, 0x03, 0x00, 0x00, 0x02, 0x00, 0x00, 0x00])) =
      some (true, .statusIn, [.stallEndpoint { dir := .out, num := 2 }, .writeEndpoint ep0In [] none]) := by decide

/-- Q9: endpoint number 0. -/
theorem test_setFeature_refused :
    after (fun t => t.trace.getLast?) (exec (.setFeature .out 2) (testRequest [0x02, 0x03, 0x00, 0x00, 0x80, 0x00, 0x00, 0x00])) =
      some (some (.note 0x14)) := by decide

/-- R179's example. -/
theorem test_setAddress :
    after (fun t => (t.pendingAddress, t.deviceState, t.controlState))
        (exec (.setAddress .out 0) (testRequest [0x00, 0x05, 0x05, 0x00, 0x00, 0x00, 0x00, 0x00])) =
      some (some 5, .default, .statusIn) := by decide

/-- Q30: SET_ADDRESS with an IN data stage. -/
theorem test_setAddress_in :
    after (fun t => (t.pendingAddress, t.trace.getLast?))
        (exec (.setAddress .inn 0) (testRequest [0x80, 0x05, 0x05, 0x00, 0x00, 0x00, 0x02, 0x00])) =
      some (none, some (.note 0x12)) := by decide

/-- V-L1-7, first POLL: the first packet of an 18-byte response. -/
theorem test_getDescriptor :
    after (fun t => (t.controlState, t.totalLen, t.transferredCount, t.trace.getLast?))
        (exec (.getDescriptor .inn 0)
          { (testRequest [0x80, 0x06, 0x00, 0x01, 0x00, 0x00, 0x12, 0x00]) with
            descriptorCb := some 3
            env :=
              { testState.env with
                answers := [{ data := some [0x12, 1, 0, 2, 0, 0, 0, 8, 0x83, 4, 0x11, 0x57, 0, 2, 1, 2, 3, 1] }] } }) =
      some (.txData, 18, 8, some (.writeEndpoint ep0In [0x12, 1, 0, 2, 0, 0, 0, 8] none)) := by decide

/-- Q32, the dispatch: the OUT data reach the callback. -/
theorem test_setDescriptor :
    after (fun t => (t.controlState, t.trace))
        (exec (.setDescriptor .out 0)
          { (testRequest [0x00, 0x07, 0x00, 0x01, 0x00, 0x00, 0x02, 0x00]) with
            descriptorCb := some 3
            dataBuffer := [(0, 0xAA), (1, 0xBB)]
            env := { testState.env with answers := [{}] } }) =
      some
        (.statusIn,
          [.call (.descriptor 3 (testSetup [0x00, 0x07, 0x00, 0x01, 0x00, 0x00, 0x02, 0x00]) [0xAA, 0xBB]),
            .writeEndpoint ep0In [] none]) := by decide

/-- Q21. -/
theorem test_getConfiguration :
    after (fun t => (t.controlState, t.trace))
        (exec (.getConfiguration .inn 0)
          { (testRequest [0x80, 0x08, 0x00, 0x00, 0x00, 0x00, 0x01, 0x00]) with deviceState := .configured, activeConfig := 1 }) =
      some (.lastData, [.writeEndpoint ep0In [0x01] none]) := by decide

/-- V-L1-6, third POLL: the nested EP_CONFIG runs before the answer is used. -/
theorem test_setConfiguration :
    after (fun t => (t.deviceState, t.activeConfig, t.controlState, t.trace))
        (exec (.setConfiguration .out 0)
          { (testRequest [0x00, 0x09, 0x01, 0x00, 0x00, 0x00, 0x00, 0x00]) with
            deviceState := .addressed
            configCb := some 2
            env :=
              { testState.env with
                answers := [{ calls := [{ word := 0x1781, beside := { epType := .bulk, mps := 64 } }] }] } }) =
      some
        (.configured, 1, .statusIn,
          [.call (.config 2 1), .configureEndpoint { dir := .inn, num := 1 } .bulk 64, .writeEndpoint ep0In [] none]) := by
  decide

/-- Q15: not from Default. -/
theorem test_setConfiguration_default :
    after (fun t => (t.deviceState, t.trace.getLast?))
        (exec (.setConfiguration .out 0)
          { (testRequest [0x00, 0x09, 0x01, 0x00, 0x00, 0x00, 0x00, 0x00]) with configCb := some 2 }) =
      some (.default, some (.note 0x14)) := by decide

/-- Q22. -/
theorem test_getInterface :
    after (·.trace) (exec (.getInterface .inn 1) (testRequest [0x81, 0x0A, 0x00, 0x00, 0x00, 0x00, 0x01, 0x00])) =
      some [.writeEndpoint ep0In [0x00] none] := by decide

/-- Q23. -/
theorem test_setInterface :
    after (fun t => t.trace.getLast?) (exec (.setInterface .out 1) (testRequest [0x01, 0x0B, 0x01, 0x00, 0x00, 0x00, 0x00, 0x00])) =
      some (some (.note 0x14)) := by decide

/-- Q25. -/
theorem test_stdOther :
    after (fun t => t.trace.getLast?) (exec (.stdOther 0x0C .inn 2) (testRequest [0x82, 0x0C, 0x00, 0x00, 0x01, 0x00, 0x02, 0x00])) =
      some (some (.note 0x15)) := by decide

/-- V-L1-3, third POLL, the dispatch: the control callback gets the ten bytes. -/
theorem test_classRequest :
    after (fun t => (t.controlState, t.trace.head?))
        (exec (.classRequest 0x09 .out 1)
          { (testRequest [0x21, 0x09, 0x00, 0x02, 0x00, 0x00, 0x03, 0x00]) with
            controlCb := some 1
            dataBuffer := [(0, 1), (1, 2), (2, 3)]
            env := { testState.env with answers := [{}] } }) =
      some (.statusIn, some (.call (.control 1 (testSetup [0x21, 0x09, 0x00, 0x02, 0x00, 0x00, 0x03, 0x00]) [1, 2, 3]))) := by
  decide

/-- Q31: the data of an answer to an OUT request are ignored. -/
theorem test_vendorRequest :
    after (fun t => (t.controlState, t.trace.getLast?, t.dataBuffer))
        (exec (.vendorRequest 0x01 .out 1)
          { (testRequest [0x41, 0x01, 0x00, 0x00, 0x00, 0x00, 0x00, 0x00]) with
            controlCb := some 1
            env := { testState.env with answers := [{ data := some [1, 2] }] } }) =
      some (.statusIn, some (.writeEndpoint ep0In [] none), []) := by decide

/-- Q27. -/
theorem test_reservedType :
    after (fun t => t.trace.getLast?) (exec (.reservedType 0x01 .inn 0) (testRequest [0xE0, 0x01, 0x00, 0x00, 0x00, 0x00, 0x00, 0x00])) =
      some (some (.note 0x15)) := by decide

/-! ## Steps and the host's placing of table words -/

/-- A1: POLL before INIT. -/
theorem test_step_not_initialised :
    after (·.refusedFor) (step { State.reset with env := { State.reset.env with inputs := [{ word := 0x1100 }] } }) =
      some (some .notInitialised) := by decide

/-- A17: no step after a refusal. -/
theorem test_step_stuck : step (testState.refuse .direction) = .fault .stuck := rfl

/-- E12: POLL inside a callback is REENTRANT and the refusal stays. -/
theorem test_step_reentrant :
    after (·.refusedFor)
        (step
          { (testState.setEpCb 2 (some 6)) with
            env :=
              { testState.env with
                inputs := [{ word := 0x1100, beside := { batch := [{ word := 0x0402 }] } }]
                answers := [{ calls := [{ word := 0x1100 }] }] } }) =
      some (some .reentrant) := by decide

/-- An event that arrives by itself waits; the next POLL takes it (R311). -/
theorem test_step_event_waits :
    after (fun t => t.env.eventQueue)
        (step { testState with env := { testState.env with inputs := [{ word := 0x0100 }] } }) =
      some [{ word := 0x0100 }] := by decide

/-- The host's placing: a command word, an event word and a request key each run in the very next step. -/
theorem test_fetch_command : after (·.trace) (step (State.reset.withFetchWord 16 0x1D01)) = some [.enable true] := by decide
theorem test_fetch_event :
    after (·.trace) (step (State.reset.withFetchWord 16 0x0000)) = some [.configureEndpoint ep0Out .control 0] := by decide
theorem test_fetch_request :
    after (fun t => (t.setup.request, t.trace.getLast?)) (step (State.reset.withFetchWord 16 0x0900)) =
      some (0x09, some (.note 0x13)) := by decide
theorem test_fetch_init : after (·.initialised) (step (State.reset.withFetchWord 16 0x1000)) = some true := by decide

/-! ## Witnesses: the hypotheses of each obligation can be met together, at the ends of their ranges -/

/-- An OUT request of ten bytes, `n` of them received. -/
def rxState (n : Nat) : State :=
  { (testRequest [0x21, 0x09, 0x00, 0x02, 0x00, 0x00, 0x0A, 0x00]) with
    controlState := .rxData, totalLen := 10, dataCursor := u32 n, transferredCount := u32 n, controlCb := some 1 }

/-- An IN request with `n` of 18 bytes sent. -/
def txState (n : Nat) : State :=
  { (testRequest [0x80, 0x06, 0x00, 0x01, 0x00, 0x00, 0x12, 0x00]) with
    controlState := .txData, totalLen := 18, dataCursor := u32 n, transferredCount := u32 n, descriptorCb := some 3 }

/-- `s` with one scripted answer, whose callback registers a handler. -/
def answering (r : Respond) (s : State) : State :=
  { s with
    env := { s.env with answers := [{ respond := r, data := some [1, 2], calls := [{ word := 0x1200, beside := { handler := some 9 } }] }] } }

/-- `s` with one input. -/
def fed (w : Half) (b : Beside) (s : State) : State := { s with env := { s.env with inputs := [{ word := w, beside := b }] } }

theorem test_witness_EventWords :
    1 ≤ testLimits.numEp ∧ (List.replicate 64 (0 : Byte)).length ≤ 64 ∧ (List.replicate 8 (0 : Byte)).length ≤ testLimits.ep0Size ∧
      1 ≤ (1 : BitVec 4).toNat ∧ (3 : BitVec 4).toNat < testLimits.numEp := by decide

theorem test_witness_RoundTrips :
    (format (.evtEpnRx 3) = .event ∧ (Instr.evtEpnRx 3).wf testLimits = true) ∧
      (format (.regEndpoint 3 none) = .command ∧ (Instr.regEndpoint 3 none).wf testLimits = true) ∧
      format (.stdOther 0xFF .inn 31) = .request ∧ (Instr.stdOther 0xFF .inn 31).wf testLimits = true := by decide

theorem test_witness_KeySelectsOneRow :
    (format (.getStatus .inn 3) = .request ∧ (0x0081 : Half) &&& (tableRow (.getStatus .inn 3)).2 = (tableRow (.getStatus .inn 3)).1) ∧
      format (.stdOther 2 .out 0) = .request ∧ (0x0081 : Half) &&& (tableRow (.stdOther 2 .out 0)).2 = (tableRow (.stdOther 2 .out 0)).1 := by
  decide

theorem test_witness_LegalWords : decodeInput testLimits 0x0583 {} = .ok (.evtEpnTx 3) ∧ decodeInput testLimits 0x1E01 {} = .ok (.connect true) :=
  ⟨rfl, rfl⟩

theorem test_witness_SetupLayout : ([0x80, 0x06, 0x00, 0x01, 0x00, 0x00, 0x12] : List Byte).length ≠ 8 := by decide

theorem test_witness_BufferReadWrite :
    memWf testState.dataBuffer = true ∧ 62 + ([1, 2] : List Byte).length ≤ testState.maxDataSize.toNat ∧
      testState.maxDataSize.toNat < 63 + ([1, 2] : List Byte).length ∧ 0 + 64 ≤ testState.maxDataSize.toNat ∧
      testState.maxDataSize.toNat < 0 + 65 := by decide

theorem test_witness_BufferStaysCanonical :
    memWf (rxState 8).dataBuffer = true ∧ (∃ t, step (fed 0x1D01 {} (rxState 8)) = .next t) ∧ ∃ t, exec (.evtEp0Rx [9]) (rxState 8) = .next t :=
  ⟨rfl, ⟨_, rfl⟩, ⟨_, rfl⟩⟩

theorem test_witness_BufferFrame_none :
    (∃ t, exec (.enable true) testState = .next t) ∧ format (.enable true) = .command ∧ isInit (.enable true) = false ∧
      isPoll (.enable true) = false ∧ (∃ t, exec .evtReset testState = .next t) ∧ (∃ t, exec .evtSuspend testState = .next t) ∧
      (∃ t, exec .evtResume testState = .next t) ∧ (∃ t, exec .evtEp0Tx (txState 8) = .next t) ∧
      (∃ t, exec (.evtEpnRx 3) testState = .next t) ∧ ∃ t, exec (.evtEpnTx 1) testState = .next t :=
  ⟨⟨_, rfl⟩, rfl, rfl, rfl, ⟨_, rfl⟩, ⟨_, rfl⟩, ⟨_, rfl⟩, ⟨_, rfl⟩, ⟨_, rfl⟩, ⟨_, rfl⟩⟩

theorem test_witness_BufferFrame_rx : blockInv (rxState 8) ∧ ∃ t, exec (.evtEp0Rx [9]) (rxState 8) = .next t := ⟨by decide, _, rfl⟩

theorem test_witness_BufferFrame_requests :
    (format (.getInterface .inn 1) = .request ∧ memWf testState.dataBuffer = true ∧
        ∃ t, exec (.getInterface .inn 1) (testRequest [0x81, 0x0A, 0x00, 0x00, 0x00, 0x00, 0x01, 0x00]) = .next t) ∧
      parseSetup [0x81, 0x0A, 0x00, 0x00, 0x00, 0x00, 0x01, 0x00] = some (testSetup [0x81, 0x0A, 0x00, 0x00, 0x00, 0x00, 0x01, 0x00]) ∧
      ∃ t, exec (.evtSetup [0x81, 0x0A, 0x00, 0x00, 0x00, 0x00, 0x01, 0x00]) testState = .next t :=
  ⟨⟨rfl, rfl, ⟨_, rfl⟩⟩, rfl, ⟨_, rfl⟩⟩

/-- The forms of BufferFrame that store nothing: a packet outside RxData, one while a Nak is pending, requests without IN data and
rows without a response, SETUPs with OUT data, without data, and of a wrong length. -/
theorem test_witness_BufferFrame_quiet :
    ((txState 8).controlState ≠ .rxData ∧ ∃ t, exec (.evtEp0Rx []) (txState 8) = .next t) ∧
      ({ (rxState 10) with pending := .armed }.pending ≠ .none ∧
        ∃ t, exec (.evtEp0Rx [9]) { (rxState 10) with pending := .armed } = .next t) ∧
      (hasInData (withKey (testRequest [0, 0, 0, 0, 0, 0, 2, 0]).setup (encodeWord (.getStatus .out 0))) = false ∧
        ∃ t, exec (.getStatus .out 0) (testRequest [0, 0, 0, 0, 0, 0, 2, 0]) = .next t) ∧
      (hasInData (withKey (testRequest [0x80, 5, 1, 0, 0, 0, 2, 0]).setup (encodeWord (.setAddress .inn 0))) = true ∧
        answersNoData (.setAddress .inn 0) = true ∧
        ∃ t, exec (.setAddress .inn 0) (testRequest [0x80, 5, 1, 0, 0, 0, 2, 0]) = .next t) ∧
      (parseSetup [0x21, 9, 0, 2, 0, 0, 0x0A, 0] = some (testSetup [0x21, 9, 0, 2, 0, 0, 0x0A, 0]) ∧
        hasInData (testSetup [0x21, 9, 0, 2, 0, 0, 0x0A, 0]) = false ∧
        ∃ t, exec (.evtSetup [0x21, 9, 0, 2, 0, 0, 0x0A, 0]) testState = .next t) ∧
      parseSetup [1, 2, 3] = none ∧ ∃ t, exec (.evtSetup [1, 2, 3]) testState = .next t :=
  ⟨⟨by decide, _, rfl⟩, ⟨by decide, _, rfl⟩, ⟨by decide, _, rfl⟩, ⟨by decide, by decide, _, rfl⟩, ⟨rfl, by decide, _, rfl⟩, rfl,
    _, rfl⟩

/-- For StepKeepsInvariant and BufferBoundsUnreachable: a step in the middle of an OUT data stage. -/
theorem test_witness_invariant :
    (fed 0x1100 { batch := [{ word := 0x0400, payload := [9, 10] }] } (answering .ack (rxState 8))).Inv ∧
      ∃ t, step (fed 0x1100 { batch := [{ word := 0x0400, payload := [9, 10] }] } (answering .ack (rxState 8))) = .next t :=
  ⟨by decide, _, rfl⟩

theorem test_witness_TraceGrows : ∃ t, exec (.connect true) testState = .next t := ⟨_, rfl⟩

theorem test_witness_StepRunsDecodedCommand :
    (fed 0x1503 {} testState).refused = false ∧ (fed 0x1503 {} testState).env.inputs = [{ word := 0x1503 }] ∧
      decodeCommand testState.limits 0x1503 {} = .ok (.regEndpoint 3 none) := ⟨rfl, rfl, rfl⟩

theorem test_witness_StepWithoutCommand :
    testState.refused = false ∧ testState.env.inputs = [] ∧ wordClass 0x0580 = 0 ∧ wordClass 0x1504 ≠ 0 ∧
      (∀ i, decodeCommand testState.limits 0x1504 {} ≠ .ok i) ∧ wordClass 0xF000 ≠ 0 ∧
      ∀ i, decodeCommand testState.limits 0xF000 {} ≠ .ok i :=
  ⟨rfl, rfl, by decide, by decide, (fun _ h => nomatch h), by decide, (fun _ h => nomatch h)⟩

theorem test_witness_StuckAfterRefusal : (testState.refuse .reservedInput).refused = true := rfl

theorem test_witness_PollIsEventsThenRetry : testState.ready ∧ testState.ctx = .normal := by decide

theorem test_witness_EmptyPoll :
    (testState.ready ∧ testState.ctx = .normal ∧ testState.env.eventQueue = [] ∧ testState.pending ≠ .armed) ∧
      { testState with pending := .fresh }.pending ≠ PendingState.armed := by decide

/-- A class OUT request with all its bytes received, its Nak armed. -/
def nakState : State :=
  { (rxState 10) with pending := .armed, env := { testState.env with answers := [{ respond := .nak }] } }

theorem test_witness_NakStaysPut :
    nakState.ready ∧ nakState.ctx = .normal ∧ nakState.env.eventQueue = [] ∧ nakState.pending = .armed ∧ reqType nakState.setup = 1 ∧
      outDataFits nakState.setup nakState ∧ nakState.controlCb = some 1 ∧ nakState.env.answers = [{ respond := .nak }] := by decide

theorem test_witness_SetupDispatches :
    testState.refused = false ∧
      parseSetup [0x00, 0x05, 0x7F, 0x00, 0x00, 0x00, 0x00, 0x00] = some (testSetup [0x00, 0x05, 0x7F, 0x00, 0x00, 0x00, 0x00, 0x00]) ∧
      hasOutData (testSetup [0x00, 0x05, 0x7F, 0x00, 0x00, 0x00, 0x00, 0x00]) = false := by decide

/-- Lengths 64 and 65 for a capacity of 64; payloads of 7, 9 and 64 bytes. -/
theorem test_witness_SetupBeginsOut :
    (parseSetup [0x21, 0x09, 0, 0, 0, 0, 0x40, 0] = some (testSetup [0x21, 0x09, 0, 0, 0, 0, 0x40, 0]) ∧
        hasOutData (testSetup [0x21, 0x09, 0, 0, 0, 0, 0x40, 0]) = true ∧
        (testSetup [0x21, 0x09, 0, 0, 0, 0, 0x40, 0]).length.toNat ≤ testState.maxDataSize.toNat) ∧
      (parseSetup [0x21, 0x09, 0, 0, 0, 0, 0x41, 0] = some (testSetup [0x21, 0x09, 0, 0, 0, 0, 0x41, 0]) ∧
        hasOutData (testSetup [0x21, 0x09, 0, 0, 0, 0, 0x41, 0]) = true ∧
        testState.maxDataSize.toNat < (testSetup [0x21, 0x09, 0, 0, 0, 0, 0x41, 0]).length.toNat) ∧
      ((List.replicate 9 (0 : Byte)).length ≠ 8 ∧ (List.replicate 64 (0 : Byte)).length ≤ 64) := by decide

/-- The common hypotheses of RxInRxData with 8, 2 and 0 bytes received, and its four clauses: 3 bytes at 8 of 10 overflow, 2 complete
it, 7 at 2 of 10 are short and not complete, 8 at 0 are a full packet. -/
theorem test_witness_RxInRxData :
    (∀ n ∈ [0, 2, 8],
        (rxState n).refused = false ∧ 0 < (rxState n).cfg.numEp ∧ (rxState n).pending = .none ∧ (rxState n).controlState = .rxData ∧
          (rxState n).dataCursor = (rxState n).transferredCount ∧ (rxState n).totalLen.toNat ≤ (rxState n).maxDataSize.toNat ∧
          8 ≤ (rxState n).ep0PacketSize.toNat) ∧
      (rxState 8).totalLen.toNat < (rxState 8).transferredCount.toNat + ([1, 2, 3] : List Byte).length ∧
      (rxState 8).transferredCount.toNat + ([1, 2] : List Byte).length = (rxState 8).totalLen.toNat ∧
      ((rxState 2).transferredCount.toNat + ([1, 2, 3, 4, 5, 6, 7] : List Byte).length < (rxState 2).totalLen.toNat ∧
        ([1, 2, 3, 4, 5, 6, 7] : List Byte).length < (rxState 2).ep0PacketSize.toNat) ∧
      (rxState 0).transferredCount.toNat + (List.replicate 8 (1 : Byte)).length < (rxState 0).totalLen.toNat ∧
      (List.replicate 8 (1 : Byte)).length = (rxState 0).ep0PacketSize.toNat := by decide

/-- A transfer in its OUT status stage. -/
def statusOutState : State := { (txState 18) with controlState := .statusOut }

theorem test_witness_RxInStatusOut :
    statusOutState.refused = false ∧ 0 < statusOutState.cfg.numEp ∧ ([1] : List Byte).length ≤ statusOutState.ep0PacketSize.toNat ∧
      statusOutState.pending = .none ∧ statusOutState.controlState = .statusOut ∧ statusOutState.completion = none ∧
      ([1] : List Byte) ≠ [] := by decide

theorem test_witness_RxUnexpected :
    testState.refused = false ∧ 0 < testState.cfg.numEp ∧ (List.replicate 8 (0 : Byte)).length ≤ testState.ep0PacketSize.toNat ∧
      (testState.controlState ≠ .rxData ∧ testState.controlState ≠ .statusOut) ∧ nakState.pending ≠ .none := by decide

theorem test_witness_TxSendsNext :
    (∀ n ∈ [0, 8, 18],
        (txState n).refused = false ∧ 0 < (txState n).cfg.numEp ∧ (txState n).pending = .none ∧ (txState n).controlState = .txData ∧
          (txState n).dataCursor = (txState n).transferredCount ∧ (txState n).transferredCount.toNat ≤ (txState n).totalLen.toNat ∧
          (txState n).totalLen.toNat ≤ (txState n).maxDataSize.toNat) := by decide

/-- A transfer in its IN status stage with an address of 0 to apply. -/
def statusInState : State := { testState with controlState := .statusIn, pendingAddress := some 0 }

theorem test_witness_TxElsewhere :
    (testState.refused = false ∧ 0 < testState.cfg.numEp) ∧
      ({ (txState 18) with controlState := .lastData }.pending = PendingState.none) ∧
      (statusInState.pending = .none ∧ statusInState.controlState = .statusIn ∧ statusInState.completion = none) ∧
      testState.controlState = .idle ∧ (rxState 0).controlState = .rxData ∧ statusOutState.controlState = .statusOut ∧
      nakState.pending ≠ .none := by decide

theorem test_witness_CompletionCallback_in :
    { (answering .ack statusInState) with completion := some 4 }.completion = some 4 ∧ statusInState.controlState = .statusIn ∧
      ∃ a rest u, (answering .ack statusInState).env.answers = a :: rest ∧
        runCalls a.calls
            (calledState (.complete 4 statusInState.setup) rest
              { (addressedState { (answering .ack statusInState) with completion := some 4, controlState := .idle }) with
                completion := none }) = .ok u := ⟨rfl, rfl, _, _, _, rfl, rfl⟩

theorem test_witness_CompletionCallback_out :
    { (answering .ack statusOutState) with completion := some 4 }.completion = some 4 ∧ statusOutState.controlState = .statusOut ∧
      ∃ a rest u, (answering .ack statusOutState).env.answers = a :: rest ∧
        runCalls a.calls
            (calledState (.complete 4 statusOutState.setup) rest
              { (addressedState
                  { (answering .ack statusOutState) with
                    completion := some 4
                    trace := statusOutState.trace ++ [.readEndpoint ep0Out []]
                    controlState := .idle }) with
                completion := none }) = .ok u := ⟨rfl, rfl, _, _, _, rfl, rfl⟩

theorem test_witness_OneErrorPerEvent :
    format .evtEp0Tx ≠ .command ∧
      ∃ t, exec .evtEp0Tx testState = .next t ∧
        t.trace = testState.trace ++ [.stallEndpoint ep0Out, .stallEndpoint ep0In, .note 0x08] := ⟨by decide, _, rfl, rfl⟩

theorem test_witness_AdmissionOrder :
    admissionSpec (.enable true) State.reset = some .notInitialised ∧
      admissionSpec (.init 64 8) (State.reset.setCtx .inCallback) = some .reentrant ∧
      admissionSpec (.poll []) (testState.setCtx .inCallback) = some .reentrant ∧
      admissionSpec (.regEndpoint 4 none) testState = some .reservedInput ∧
      admissionSpec (.epStall { dir := .inn, num := 0 }) testState = some .ep0Reserved ∧
      admissionSpec (.epWrite { dir := .out, num := 3 } []) testState = some .direction ∧
      admissionSpec (.epRead { dir := .inn, num := 3 }) testState = some .direction ∧ State.reset.refused = false := by decide

theorem test_witness_InitResult :
    State.reset.refused = false ∧ State.reset.ctx = .normal ∧ ((64 : Half) = 8 ∨ (64 : Half) = 16 ∨ (64 : Half) = 32 ∨ (64 : Half) = 64) ∧
      ((9 : Half) ≠ 8 ∧ (9 : Half) ≠ 16 ∧ (9 : Half) ≠ 32 ∧ (9 : Half) ≠ 64) ∧ (testState.setCtx .inCallback).ctx = .inCallback := by
  decide

theorem test_witness_Registering :
    testState.ready ∧ (3 : BitVec 4).toNat < testState.cfg.numEp ∧ testState.cfg.numEp ≤ (4 : BitVec 4).toNat := by decide

/-- EndpointCommands and HalResults: the highest valid endpoint number, and number 0. -/
theorem test_witness_EndpointCommands :
    testState.ready ∧ (3 : BitVec 4).toNat < testState.cfg.numEp ∧ (3 : BitVec 4) ≠ 0 ∧ (0 : BitVec 4).toNat < testState.cfg.numEp := by
  decide

theorem test_witness_HalResults :
    { testState with env := { testState.env with writeResults := [2], readResults := [[1]], infoResults := [7] } }.ready ∧
      ([2] : List Word) ≠ [] ∧ ([[1]] : List (List Byte)) ≠ [] ∧ ([7] : List Nat) ≠ [] := by decide

theorem test_witness_CommandsKeepEngine :
    format (.epConfig { dir := .inn, num := 1 } .bulk 64) = .command ∧ isInit (.epConfig { dir := .inn, num := 1 } .bulk 64) = false ∧
      isPoll (.epConfig { dir := .inn, num := 1 } .bulk 64) = false ∧
      ∃ t, exec (.epConfig { dir := .inn, num := 1 } .bulk 64) (txState 8) = .next t := ⟨rfl, rfl, rfl, _, rfl⟩

theorem test_witness_Ep0Ownership :
    (∃ t, exec (.epStall { dir := .inn, num := 1 }) testState = .next t ∧
        t.trace = testState.trace ++ [.stallEndpoint { dir := .inn, num := 1 }]) ∧
      ∃ t, runCalls [{ word := 0x1B81 }] (testState.setCtx .inCallback) = .ok t ∧
        t.trace = testState.trace ++ [.stallEndpoint { dir := .inn, num := 1 }] := ⟨⟨_, rfl, rfl⟩, ⟨_, rfl, rfl⟩⟩

theorem test_witness_CallbackCommands :
    (testState.setCtx .inCallback).refused = false ∧ (testState.setCtx .inCallback).ctx = .inCallback ∧
      (testState.setCtx .inCallback).initialised = true ∧
      decodeCommand (testState.setCtx .inCallback).limits 0x1C83 {} = .ok (.epUnstall { dir := .inn, num := 3 }) ∧
      admissionSpec (.epUnstall { dir := .inn, num := 3 }) (testState.setCtx .inCallback) = none ∧
      ∃ t, runCalls [{ word := 0x1C83 }, { word := 0x1D00 }] (testState.setCtx .inCallback) = .ok t :=
  ⟨rfl, rfl, rfl, rfl, by decide, _, rfl⟩

/-- CallbackCommands: nested commands that are turned away, for their endpoint number, their direction and a reserved word. -/
theorem test_witness_CallbackCommands_refused :
    (decodeCommand (testState.setCtx .inCallback).limits 0x1980 {} = .ok (.epWrite { dir := .inn, num := 0 } []) ∧
        admissionSpec (.epWrite { dir := .inn, num := 0 } []) (testState.setCtx .inCallback) = some .ep0Reserved) ∧
      (decodeCommand (testState.setCtx .inCallback).limits 0x1903 {} = .ok (.epWrite { dir := .out, num := 3 } []) ∧
        admissionSpec (.epWrite { dir := .out, num := 3 } []) (testState.setCtx .inCallback) = some .direction) ∧
      (decodeCommand (testState.setCtx .inCallback).limits 0x1A83 {} = .ok (.epRead { dir := .inn, num := 3 }) ∧
        admissionSpec (.epRead { dir := .inn, num := 3 }) (testState.setCtx .inCallback) = some .direction) ∧
      wordClass 0x1D02 = 1 ∧ 1 < (wordCode 0x1D02).toNat ∧
      ∀ i, decodeCommand (testState.setCtx .inCallback).limits 0x1D02 {} ≠ .ok i :=
  ⟨⟨rfl, by decide⟩, ⟨rfl, by decide⟩, ⟨rfl, by decide⟩, by decide, by decide, fun i h => by cases h⟩

/-- All three event callbacks registered, one answer scripted. -/
def eventState : State := { (answering .ack testState) with evtHandler := { reset := some 5, suspend := some 6, resume := some 7 } }

theorem test_witness_BusReset :
    testState.refused = false ∧ testState.evtHandler.reset = none ∧ eventState.evtHandler.reset = some 5 ∧
      ∃ a rest u, eventState.env.answers = a :: rest ∧
        runCalls a.calls (calledState (.event 5 .reset) rest (busResetState eventState)) = .ok u := ⟨rfl, rfl, rfl, _, _, _, rfl, rfl⟩

theorem test_witness_SuspendResume :
    testState.evtHandler.suspend = none ∧ testState.evtHandler.resume = none ∧ eventState.evtHandler.suspend = some 6 ∧
      eventState.evtHandler.resume = some 7 ∧
      ∃ a rest u v, eventState.env.answers = a :: rest ∧ runCalls a.calls (calledState (.event 6 .suspend) rest eventState) = .ok u ∧
        runCalls a.calls (calledState (.event 7 .resume) rest eventState) = .ok v := ⟨rfl, rfl, rfl, rfl, _, _, _, _, rfl, rfl, rfl⟩

theorem test_witness_EndpointEvents :
    (3 : BitVec 4) ≠ 0 ∧ (3 : BitVec 4).toNat < testState.cfg.numEp ∧ testState.epHandler[(3 : BitVec 4).toNat]'(by decide) = none ∧
      ((answering .ack testState).setEpCb 3 (some 8)).epHandler[(3 : BitVec 4).toNat]'(by decide) = some 8 ∧
      ∃ a rest u v, ((answering .ack testState).setEpCb 3 (some 8)).env.answers = a :: rest ∧
        runCalls a.calls
            (calledState (.endpoint 8 .rx { dir := .out, num := 3 }) rest ((answering .ack testState).setEpCb 3 (some 8))) = .ok u ∧
        runCalls a.calls
            (calledState (.endpoint 8 .tx { dir := .inn, num := 3 }) rest ((answering .ack testState).setEpCb 3 (some 8))) = .ok v :=
  ⟨by decide, by decide, rfl, rfl, _, _, _, _, rfl, rfl, rfl⟩

theorem test_witness_Ep0HandlerNeverCalled :
    ∃ t, exec (.evtEpnRx 3) ((answering .ack testState).setEpCb 3 (some 8)) = .next t ∧
      t.trace = testState.trace ++ [.call (.endpoint 8 .rx { dir := .out, num := 3 })] := ⟨_, rfl, rfl⟩

/-- The common hypotheses of the request statements: not refused, canonical buffer, the row's request in flight. -/
theorem test_witness_requests :
    testState.refused = false ∧ memWf testState.dataBuffer = true ∧
      inFlight (.getStatus .inn 2) (testRequest [0x82, 0, 0, 0, 0x81, 0, 2, 0]) ∧
      inFlight (.getConfiguration .inn 0) (testRequest [0x80, 8, 0, 0, 0, 0, 1, 0]) ∧
      inFlight (.getInterface .inn 1) (testRequest [0x81, 10, 0, 0, 0, 0, 1, 0]) ∧
      inFlight (.clearFeature .out 2) (testRequest [0x02, 1, 0, 0, 0x81, 0, 0, 0]) ∧
      inFlight (.setFeature .out 2) (testRequest [0x02, 3, 0, 0, 0x81, 0, 0x40, 0]) ∧
      inFlight (.setAddress .out 0) (testRequest [0, 5, 127, 0, 0, 0, 0, 0]) ∧
      inFlight (.setInterface .out 1) (testRequest [1, 11, 0, 0, 0, 0, 0, 0]) ∧
      (stdHandled 0x0C = false ∧ inFlight (.stdOther 0x0C .inn 2) (testRequest [0x82, 12, 0, 0, 0, 0, 2, 0])) ∧
      inFlight (.reservedType 0xFF .inn 31) (testRequest [0xFF, 0xFF, 0, 0, 0, 0, 2, 0]) := by decide

/-- GetStatus and EndpointFeatures: the valid endpoint addresses 0x83 and 0x00, the invalid 0x84 and 0x90. -/
theorem test_witness_endpoints :
    validEpByte testState.limits 0x83 ∧ validEpByte testState.limits 0x00 ∧ ¬validEpByte testState.limits 0x84 ∧
      ¬validEpByte testState.limits 0x90 ∧ ((0x0083 : Half).extractLsb' 0 8 = 0x83 ∧ (0x0083 : Half).extractLsb' 0 4 ≠ 0) ∧
      (testRequest [0x02, 0x01, 0x00, 0x00, 0x83, 0x00, 0x00, 0x00]).setup.value = 0 := by decide

/-- SetAddress: an accepted request without an IN data stage, and one with. -/
theorem test_witness_SetAddress :
    (testRequest [0, 5, 127, 0, 0, 0, 0, 0]).setup.value.toNat ≤ 127 ∧ testState.deviceState ≠ .configured ∧
      hasInData (testRequest [0, 5, 127, 0, 0, 0, 0, 0]).setup = false ∧ 0 < testState.cfg.numEp ∧
      hasInData (testRequest [0x80, 5, 0, 0, 0, 0, 1, 0]).setup = true := by decide

/-- SetAddress and SetConfiguration: 127 and 128, 255 and 256, Default with 0 and 1. -/
theorem test_witness_values :
    ¬(127 < (127 : Half).toNat) ∧ 127 < (128 : Half).toNat ∧ (255 : Half).toNat ≤ 255 ∧ 255 < (256 : Half).toNat ∧
      (testState.deviceState = .default ∧ (1 : Byte) ≠ 0) ∧
      ({ testState with deviceState := .addressed }.deviceState ≠ MachineState.default ∨ (255 : Byte) = 0) ∧
      (testState.deviceState ≠ .default ∨ (0 : Byte) = 0) := by decide

theorem test_witness_ClassVendor :
    (rxState 10).refused = false ∧ memWf (rxState 10).dataBuffer = true ∧ inFlight (.classRequest 9 .out 1) (rxState 10) ∧
      inFlight (.vendorRequest 9 .inn 3) (testRequest [0xC3, 9, 0, 0, 0, 0, 2, 0]) ∧
      testState.controlCb = none ∧ (answering .ack (rxState 10)).controlCb = some 1 ∧
      ∃ a rest u, (answering .ack (rxState 10)).env.answers = a :: rest ∧
        runCalls a.calls
            (calledState (.control 1 (rxState 10).setup (outDataOf (rxState 10).setup (rxState 10))) rest
              (answering .ack (rxState 10))) = .ok u :=
  ⟨rfl, rfl, by decide, by decide, rfl, rfl, _, _, _, rfl, rfl⟩

/-- A SET_DESCRIPTOR whose two OUT bytes have arrived. -/
def setDescriptorState : State :=
  { (testRequest [0x00, 0x07, 0x00, 0x01, 0x00, 0x00, 0x02, 0x00]) with
    controlState := .rxData, totalLen := 2, dataCursor := 2, transferredCount := 2, dataBuffer := [(0, 7)], descriptorCb := some 3 }

theorem test_witness_Descriptors :
    inFlight (.getDescriptor .inn 0) (txState 0) ∧ inFlight (.setDescriptor .out 0) setDescriptorState ∧
      testState.descriptorCb = none ∧ (answering .nak (txState 0)).descriptorCb = some 3 ∧
      ∃ a rest u v, (answering .nak (txState 0)).env.answers = a :: rest ∧
        runCalls a.calls (calledState (.descriptor 3 (txState 0).setup []) rest (answering .nak (txState 0))) = .ok u ∧
        runCalls a.calls
            (calledState (.descriptor 3 setDescriptorState.setup (outDataOf setDescriptorState.setup setDescriptorState)) rest
              (answering .nak setDescriptorState)) = .ok v :=
  ⟨by decide, by decide, rfl, rfl, _, _, _, _, rfl, rfl, rfl⟩

theorem test_witness_SetConfiguration :
    inFlight (.setConfiguration .out 0) (testRequest [0, 9, 0, 0, 0, 0, 0, 0]) ∧
      (testRequest [0, 9, 0, 0, 0, 0, 0, 0]).configCb = none ∧
      ∃ a rest u, (answering .fail { (testRequest [0, 9, 0, 0, 0, 0, 0, 0]) with configCb := some 2 }).env.answers = a :: rest ∧
        runCalls a.calls
            (calledState (.config 2 0) rest (answering .fail { (testRequest [0, 9, 0, 0, 0, 0, 0, 0]) with configCb := some 2 })) =
          .ok u := ⟨by decide, rfl, _, _, _, rfl, rfl⟩

/-- `s` with one scripted answer that issues no command. -/
def silent (r : Respond) (s : State) : State := { s with env := { s.env with answers := [{ respond := r, data := some [1, 2] }] } }

theorem test_witness_SilentCallbacks_requests :
    (∃ a rest, (silent .nak (rxState 10)).env.answers = a :: rest ∧ a.calls = []) ∧ (silent .nak (rxState 10)).refused = false ∧
      memWf (silent .nak (rxState 10)).dataBuffer = true ∧ (silent .nak (rxState 10)).controlCb = some 1 ∧
      inFlight (.classRequest 9 .out 1) (silent .nak (rxState 10)) ∧
      (silent .ack (txState 0)).descriptorCb = some 3 ∧
      inFlight (.getDescriptor .inn 0) (silent .ack (txState 0)) ∧
      inFlight (.setDescriptor .out 0) (silent .ack setDescriptorState) :=
  ⟨⟨_, _, rfl, rfl⟩, rfl, rfl, rfl, by decide, rfl, by decide, by decide⟩

theorem test_witness_SilentCallbacks_configuration :
    ∃ s a rest, s = silent .ack { (testRequest [0, 9, 1, 0, 0, 0, 0, 0]) with configCb := some 2, deviceState := .addressed } ∧
      s.env.answers = a :: rest ∧ a.calls = [] ∧ a.respond = .ack ∧ s.configCb = some 2 ∧ s.setup.value.toNat ≤ 255 ∧
      s.deviceState ≠ .default ∧ inFlight (.setConfiguration .out 0) s :=
  ⟨_, _, _, rfl, rfl, rfl, rfl, rfl, by decide, by decide, by decide⟩

theorem test_witness_SilentCallbacks_events :
    ((silent .ack testState).setEpCb 3 (some 8)).epHandler[(3 : BitVec 4).toNat]'(by decide) = some 8 ∧
      (3 : BitVec 4).toNat < testState.cfg.numEp ∧
      ∃ s, s = silent .ack { testState with evtHandler := { reset := some 5, suspend := some 6, resume := some 7 } } ∧
        s.evtHandler.reset = some 5 ∧ s.evtHandler.suspend = some 6 ∧ s.evtHandler.resume = some 7 :=
  ⟨rfl, by decide, _, rfl, rfl, rfl, rfl⟩

/-- `s` with one scripted answer whose second command, EP_WRITE to an OUT address, is refused. -/
def refusing (s : State) : State :=
  { s with env := { s.env with answers := [{ calls := [{ word := 0x1D01 }, { word := 0x1903 }] }] } }

/-- SilentCallbacks, an answer that is refused: the trace has the call and the first command, the context is InCallback. -/
theorem test_witness_SilentCallbacks_refused :
    (rxState 10).controlCb = some 1 ∧ inFlight (.classRequest 9 .out 1) (rxState 10) ∧
      ∃ a rest u v, (refusing (rxState 10)).env.answers = a :: rest ∧
        callRefused (.control 1 (rxState 10).setup (outDataOf (rxState 10).setup (rxState 10))) a rest (refusing (rxState 10))
          .direction u ∧
        u.ctx = .inCallback ∧ u.trace.length = 2 ∧
        callRefused (.event 5 .reset) a rest (busResetState (refusing eventState)) .direction v :=
  ⟨rfl, by decide, _, _, _, _, rfl, rfl, rfl, rfl, rfl⟩

/-- SilentCallbacks, the completion callback of either status stage refused. -/
theorem test_witness_SilentCallbacks_completion :
    ∃ s a rest u, s = refusing { testState with controlState := .statusIn, completion := some 7, pendingAddress := some 5 } ∧
      s.pending = .none ∧ s.completion = some 7 ∧ s.env.answers = a :: rest ∧
      callRefused (.complete 7 s.setup) a rest { (addressedState { s with controlState := .idle }) with completion := none }
        .direction u :=
  ⟨_, _, _, _, rfl, rfl, rfl, rfl, rfl⟩

theorem test_witness_RequestAlone :
    format (.setAddress .out 0) = .request ∧ (testRequest [0, 5, 5, 0, 0, 0, 0x41, 0]).refused = false ∧
      hasOutData (withKey (testRequest [0, 5, 5, 0, 0, 0, 0x41, 0]).setup (encodeWord (.setAddress .out 0))) = true ∧
      (testRequest [0, 5, 5, 0, 0, 0, 0x41, 0]).maxDataSize.toNat < (testRequest [0, 5, 5, 0, 0, 0, 0x41, 0]).setup.length.toNat := by
  decide

theorem test_witness_NoDataStageWithoutLength :
    (format (.getStatus .inn 0) = .request ∧ testState.controlState = .idle ∧ testState.setup.length = 0 ∧
        ∃ t, exec (.getStatus .inn 0) testState = .next t) ∧
      parseSetup [0x80, 0, 0, 0, 0, 0, 0, 0] = some (testSetup [0x80, 0, 0, 0, 0, 0, 0, 0]) ∧
      (testSetup [0x80, 0, 0, 0, 0, 0, 0, 0]).length = 0 ∧ ∃ t, exec (.evtSetup [0x80, 0, 0, 0, 0, 0, 0, 0]) (txState 8) = .next t :=
  ⟨⟨rfl, rfl, rfl, ⟨_, rfl⟩⟩, rfl, rfl, ⟨_, rfl⟩⟩

theorem test_witness_RxCountsUp_more :
    (rxState 0).ready ∧ blockInv (rxState 0) ∧ (rxState 0).controlState = .rxData ∧
      ∃ t, exec (.evtEp0Rx [1, 2, 3, 4, 5, 6, 7, 8]) (rxState 0) = .next t ∧ t.refused = false ∧ t.controlState = .rxData :=
  ⟨by decide, by decide, rfl, _, rfl, rfl, rfl⟩

theorem test_witness_RxCountsUp_call :
    (answering .ack (rxState 8)).ready ∧ blockInv (answering .ack (rxState 8)) ∧
      ∃ t, exec (.evtEp0Rx [9, 10]) (answering .ack (rxState 8)) = .next t ∧
        t.trace =
          (rxState 8).trace ++
            [.readEndpoint ep0Out [9, 10], .call (.control 1 (rxState 8).setup [0, 0, 0, 0, 0, 0, 0, 0, 9, 10]), .writeEndpoint ep0In [] none] :=
  ⟨by decide, by decide, _, rfl, rfl⟩

theorem test_witness_DeviceStateTransitions :
    format .evtReset ≠ .command ∧ (∃ t, exec .evtReset testState = .next t) ∧ testState.deviceState = .default ∧
      { testState with deviceState := .configured }.deviceState ≠ MachineState.default ∧
      ∃ t, exec .evtReset { testState with deviceState := .configured } = .next t ∧ t.deviceState = .default :=
  ⟨by decide, ⟨_, rfl⟩, rfl, by decide, ⟨_, rfl, rfl⟩⟩

/-- The ends of the ZLP rule: an empty response to one byte, a response that fills the capacity. -/
theorem test_witness_ZlpRule :
    (testState.refused = false ∧ 0 < testState.cfg.numEp ∧ memWf testState.dataBuffer = true ∧ 0 < testState.ep0PacketSize.toNat) ∧
      (0 < 1 ∧ 1 < 65536 ∧ min ([] : List Byte).length 1 ≤ testState.maxDataSize.toNat) ∧
      (0 < 65535 ∧ 65535 < 65536 ∧ min (List.replicate 64 (1 : Byte)).length 65535 ≤ testState.maxDataSize.toNat) := by decide

/-- Two states in the middle of an IN data stage that differ in a byte beyond the response. -/
theorem test_witness_StaleBytesNeverMatter :
    (fed 0x1100 { batch := [{ word := 0x0580 }] } (txState 8)).Inv ∧
      State.Inv { (fed 0x1100 { batch := [{ word := 0x0580 }] } (txState 8)) with dataBuffer := [(20, 0xEE)] } ∧
      sameButStale (fed 0x1100 { batch := [{ word := 0x0580 }] } (txState 8))
        { (fed 0x1100 { batch := [{ word := 0x0580 }] } (txState 8)) with dataBuffer := [(20, 0xEE)] } ∧
      ∃ t, step (fed 0x1100 { batch := [{ word := 0x0580 }] } (txState 8)) = .next t := by
  refine ⟨by decide, by decide, ⟨rfl, fun h => absurd h (by decide), fun _ a ha => ?_⟩, _, rfl⟩
  have h : a < 18 := ha
  have n : ¬(20 = a) := by omega
  simp [memGet, fed, txState, testRequest, testState, State.reset, n]

end Sys2Proof.Machine
end

