-- ==== Sys2Proof/Proofs/CommandWord.lean ====
section
/-! SUPPORT. The word of a decoded command is the word it was decoded from (30_encoding.md R93, R100, R101), and the high byte of
a word is its class and code. -/

namespace Sys2Proof

/-! ## Fields of a word -/

/-- A word is put together from its class, its code and its low byte (R93, R100). -/
theorem inputWord_fields (w : Half) : inputWord (wordClass w) (wordCode w) (lowByte w) = w := by
  ext i hi
  simp [inputWord, wordClass, wordCode, lowByte]
  grind

/-- The high byte is the class and the code (R93, R100). -/
theorem wordClass_append_wordCode (w : Half) : wordClass w ++ wordCode w = highByte w := by
  ext i hi
  simp [wordClass, wordCode, highByte]
  grind

theorem highByte_eq_append_iff (w : Half) (c k : BitVec 4) : highByte w = c ++ k ↔ wordClass w = c ∧ wordCode w = k := by
  rw [← wordClass_append_wordCode]
  constructor
  · intro h
    have hc := congrArg (BitVec.extractLsb' 4 4) h
    have hk := congrArg (BitVec.extractLsb' 0 4) h
    rw [BitVec.extractLsb'_append_eq_left, BitVec.extractLsb'_append_eq_left] at hc
    rw [BitVec.extractLsb'_append_eq_right, BitVec.extractLsb'_append_eq_right] at hk
    exact ⟨hc, hk⟩
  · rintro ⟨rfl, rfl⟩
    rfl

/-! ## Arguments read back -/

/-- An address byte that decodes is the byte of its address (R94). -/
theorem encodeEp_of_decodeEp : ∀ (b : Byte), ∀ ep ∈ decodeEp b, encodeEp ep = b := by decide

/-- A byte that is a DeviceEvent code is the code of its event (R91). -/
theorem deviceEventCode_of_deviceEventOfCode : ∀ (b : Byte), ∀ e ∈ deviceEventOfCode b, deviceEventCode e = b := by decide

/-- A byte whose bits 7:1 are zero is its bit 0 (R101). -/
theorem flagByte_getLsbD_zero : ∀ b : Byte, b.extractLsb' 1 7 = 0 → flagByte (b.getLsbD 0) = b := by decide

/-- A byte whose bits 7:4 are zero is its bits 3:0 (R101). -/
theorem setWidth_lowNibble : ∀ b : Byte, b.extractLsb' 4 4 = 0 → (b.extractLsb' 0 4).setWidth 8 = b := by decide

end Sys2Proof

namespace Sys2Proof.Machine

/-! ## Commands by code and low byte -/

/-- `i` is a command and its word has this code and this low byte (R100). -/
def IsCommandWith (code : Nat) (arg : Byte) (i : Instr) : Prop :=
  format i = .command ∧ encodeWord i = inputWord 1 (BitVec.ofNat 4 code) arg

/-- What a test lets through. -/
theorem ite_ok_eq_ok {α ε : Type} {p : Prop} [Decidable p] {a b : α} {e : ε}
    (h : (if p then .ok a else .error e : Except ε α) = .ok b) : p ∧ a = b := by
  split at h
  · next hp => exact ⟨hp, Except.ok.inj h⟩
  · cases h

theorem decodePlain_isCommandWith {code : Nat} {arg : Byte} {i j : Instr} (hi : IsCommandWith code 0 i)
    (h : decodePlain i arg = .ok j) : IsCommandWith code arg j := by
  obtain ⟨rfl, rfl⟩ := ite_ok_eq_ok h
  exact hi

theorem decodeEpCommand_isCommandWith {lim : Limits} {code : Nat} {arg : Byte} {f : EpAddr → Instr} {i : Instr}
    (hf : ∀ ep, IsCommandWith code (encodeEp ep) (f ep)) (h : decodeEpCommand lim f arg = .ok i) :
    IsCommandWith code arg i := by
  unfold decodeEpCommand at h
  split at h
  · cases h
  · next ep hep =>
    obtain ⟨-, rfl⟩ := ite_ok_eq_ok h
    rw [← encodeEp_of_decodeEp arg ep hep]
    exact hf ep

theorem decodeFlagCommand_isCommandWith {code : Nat} {arg : Byte} {f : Bool → Instr} {i : Instr}
    (hf : ∀ b, IsCommandWith code (flagByte b) (f b)) (h : decodeFlagCommand f arg = .ok i) : IsCommandWith code arg i := by
  obtain ⟨hz, rfl⟩ := ite_ok_eq_ok h
  have hb := hf (arg.getLsbD 0)
  rwa [flagByte_getLsbD_zero arg hz] at hb

theorem decodeRegEndpoint_isCommandWith {lim : Limits} {arg : Byte} {h : Option HandlerId} {i : Instr}
    (hd : decodeRegEndpoint lim arg h = .ok i) : IsCommandWith 5 arg i := by
  obtain ⟨⟨hz, -⟩, rfl⟩ := ite_ok_eq_ok hd
  exact ⟨rfl, congrArg (inputWord 1 5) (setWidth_lowNibble arg hz)⟩

theorem decodeRegEvent_isCommandWith {arg : Byte} {h : Option HandlerId} {i : Instr} (hd : decodeRegEvent arg h = .ok i) :
    IsCommandWith 6 arg i := by
  unfold decodeRegEvent at hd
  split at hd
  · next e he =>
    cases hd
    exact ⟨rfl, congrArg (inputWord 1 6) (deviceEventCode_of_deviceEventOfCode arg e he)⟩
  · cases hd

/-- What a command word decodes to is a command with the word's own class, code and low byte. -/
theorem decodeCommand_isCommandWith {lim : Limits} {w : Half} {b : Beside} {i : Instr} (h : decodeCommand lim w b = .ok i) :
    wordClass w = 1 ∧ IsCommandWith (wordCode w).toNat (lowByte w) i := by
  unfold decodeCommand at h
  split at h
  · next hc =>
    refine ⟨hc, ?_⟩
    have hlt : (wordCode w).toNat < 16 := (wordCode w).isLt
    generalize (wordCode w).toNat = code at h hlt ⊢
    split at h
    case h_1 | h_2 | h_3 | h_4 | h_5 => exact decodePlain_isCommandWith ⟨rfl, rfl⟩ h
    case h_6 => exact decodeRegEndpoint_isCommandWith h
    case h_7 => exact decodeRegEvent_isCommandWith h
    case h_8 | h_9 | h_10 | h_11 | h_12 | h_13 => exact decodeEpCommand_isCommandWith (fun _ => ⟨rfl, rfl⟩) h
    case h_14 | h_15 => exact decodeFlagCommand_isCommandWith (fun _ => ⟨rfl, rfl⟩) h
    case h_16 =>
      simp only [imp_false] at *
      obtain rfl : code = 15 := by omega
      exact decodePlain_isCommandWith ⟨rfl, rfl⟩ h
  · split at h <;> cases h

theorem format_of_decodeCommand {lim : Limits} {w : Half} {b : Beside} {i : Instr} (h : decodeCommand lim w b = .ok i) :
    format i = .command :=
  (decodeCommand_isCommandWith h).2.1

/-- The word a command was decoded from is its own (R100, R101). -/
theorem encodeWord_of_decodeCommand {lim : Limits} {w : Half} {b : Beside} {i : Instr} (h : decodeCommand lim w b = .ok i) :
    encodeWord i = w := by
  obtain ⟨hc, -, hw⟩ := decodeCommand_isCommandWith h
  rw [hw, ← hc, BitVec.ofNat_toNat, BitVec.setWidth_eq, inputWord_fields]

end Sys2Proof.Machine
end

