-- ==== Sys2Proof/Proofs/StepInput.lean ====
section
/-! SUPPORT. What a step does with its next input (00_scope.md R13, 30_encoding.md R93, 43_public_api.md R256), and the two
statements about it. -/

namespace Sys2Proof.Machine

/-! ## The checks before decoding -/

/-- R256's checks before decoding, by the high byte of the word: INIT is 0x10, POLL 0x11 (log 9). -/
theorem earlyRefusal_eq (w : Half) (s : State) :
    earlyRefusal w s =
      if s.initialised = false ∧ highByte w ≠ 0x10 then some .notInitialised
      else if s.ctx = .inCallback ∧ (highByte w = 0x10 ∨ highByte w = 0x11) then some .reentrant
      else none := by
  have hInit : highByte w = 0x10 ↔ wordClass w = 1 ∧ wordCode w = 0 := highByte_eq_append_iff w 1 0
  have hPoll : highByte w = 0x11 ↔ wordClass w = 1 ∧ wordCode w = 1 := highByte_eq_append_iff w 1 1
  simp only [earlyRefusal, hInit, hPoll, ne_eq, and_or_left]

/-- An early refusal of a command's word is the command's refusal (R256). -/
theorem exec_of_earlyRefusal {i : Instr} {s : State} {r : RefuseReason} (hi : format i = .command) (hr : s.refused = false)
    (he : earlyRefusal (encodeWord i) s = some r) : exec i s = .next (s.refuse r) := by
  have ha : admission i s = some r := by simp only [admission, he]
  simp [exec_command hi, runCommand, hr, ha]

/-! ## The step by its next input -/

/-- `s` with its inputs to come replaced. -/
def State.withInputs (s : State) (rest : List Input) : State := { s with env := { s.env with inputs := rest } }

@[simp] theorem withInputs_limits (s : State) (rest : List Input) : (s.withInputs rest).limits = s.limits := rfl
@[simp] theorem withInputs_refused (s : State) (rest : List Input) : (s.withInputs rest).refused = s.refused := rfl

/-- Without an input the block waits (R13). -/
theorem step_idle {s : State} (hr : s.refused = false) (hi : s.env.inputs = []) : step s = .next s := by
  simp [step, fetch, hr, hi]

section
variable {s : State} {inp : Input} {rest : List Input} (hr : s.refused = false) (hi : s.env.inputs = inp :: rest)
include hr hi

/-- An event waits (R311). -/
theorem step_event (hc : wordClass inp.word = 0) : step s = .next (arrive inp (s.withInputs rest)) := by
  simp [step, fetch, hr, hi, hc, State.withInputs]

/-- A word the early checks refuse (R256). -/
theorem step_earlyRefusal (hc : wordClass inp.word ≠ 0) {r : RefuseReason}
    (he : earlyRefusal inp.word (s.withInputs rest) = some r) : step s = .next ((s.withInputs rest).refuse r) := by
  rw [State.withInputs] at he
  simp only [step, fetch, hr, hi, hc, he, if_false, Bool.false_eq_true, State.withInputs]

/-- A word that passes the early checks is decoded (R93, R99). -/
theorem step_decode (hc : wordClass inp.word ≠ 0) (he : earlyRefusal inp.word (s.withInputs rest) = none) :
    step s =
      match decodeCommand s.limits inp.word inp.beside with
      | .error _ => .next ((s.withInputs rest).refuse .reservedInput)
      | .ok i => exec i (s.withInputs rest) := by
  rw [← withInputs_limits s rest]
  rw [State.withInputs] at he ⊢
  simp only [step, fetch, hr, hi, hc, he, if_false, Bool.false_eq_true]
  cases decodeCommand _ inp.word inp.beside <;> rfl

/-- A decoded command runs; its admission repeats the early checks, with the same answer, since its word is the input's. -/
theorem step_command {i : Instr} (hd : decodeCommand s.limits inp.word inp.beside = .ok i) :
    step s = exec i (s.withInputs rest) := by
  have hc : wordClass inp.word ≠ 0 := by
    rw [(decodeCommand_isCommandWith hd).1]
    decide
  cases he : earlyRefusal inp.word (s.withInputs rest) with
  | none => rw [step_decode hr hi hc he, hd]
  | some r =>
    have hw : earlyRefusal (encodeWord i) (s.withInputs rest) = some r := by rwa [encodeWord_of_decodeCommand hd]
    rw [step_earlyRefusal hr hi hc he, exec_of_earlyRefusal (s := s.withInputs rest) (format_of_decodeCommand hd) hr hw]

/-- A word that decodes to nothing is refused, the early checks first (R256, R99). -/
theorem step_undecodable (hc : wordClass inp.word ≠ 0) (hd : ∀ i, decodeCommand s.limits inp.word inp.beside ≠ .ok i) :
    step s =
      .next ((s.withInputs rest).refuse ((earlyRefusal inp.word (s.withInputs rest)).getD .reservedInput)) := by
  cases he : earlyRefusal inp.word (s.withInputs rest) with
  | some r => exact step_earlyRefusal hr hi hc he
  | none =>
    rw [step_decode hr hi hc he]
    cases hw : decodeCommand s.limits inp.word inp.beside with
    | error _ => rfl
    | ok i => exact absurd hw (hd i)

end

/-! ## The statements -/

/-- Settles O18: the word of a decoded command is the input's, so the early checks give `step` and `exec` the same answer. -/
theorem stepRunsDecodedCommand : Obligations.StepRunsDecodedCommand :=
  fun _ _ _ _ hr hi hd => step_command hr hi hd

/-- Settles O19, one step lemma per kind of input; R256's early checks are read by the high byte of the word. -/
theorem stepWithoutCommand : Obligations.StepWithoutCommand := by
  unfold Obligations.StepWithoutCommand
  intro s hr
  refine ⟨step_idle hr, fun inp rest hi => ⟨fun hc => step_event hr hi hc, fun hc hd => ?_⟩⟩
  rw [step_undecodable hr hi hc hd, earlyRefusal_eq, apply_ite (Option.getD · _), apply_ite (Option.getD · _)]
  rfl

end Sys2Proof.Machine
end

