-- ==== Sys2Proof/Proofs/CommandFrame.lean ====
section
/-! SUPPORT. What a command keeps (10_state.md R21, R43): nothing runs after a refusal, a refused or admitted command other than
INIT and POLL keeps the engine; and the sanity statement about power-on. -/

namespace Sys2Proof.Machine

/-! ## After a refusal -/

section
variable {s : State} (hr : s.refused = true)
include hr

theorem runCommand_stuck (i : Instr) (body : State → Flow State) : runCommand i body s = .fault .stuck := if_pos hr
theorem runEvent_stuck (i : Instr) (body : State → Flow State) : runEvent i body s = .fault .stuck := if_pos hr
theorem runRequest_stuck (i : Instr) : runRequest i s = .fault .stuck := if_pos hr
theorem fetch_stuck : fetch s = .stuck := if_pos hr
theorem step_stuck : step s = .fault .stuck := by rw [step, fetch_stuck hr]

theorem exec_stuck (i : Instr) : exec i s = .fault .stuck := by
  cases hf : format i with
  | event => rw [exec_event hf, runEvent_stuck hr]
  | command => rw [exec_command hf, runCommand_stuck hr]
  | request => rw [exec_request hf, runRequest_stuck hr]

end

/-! ## The engine over a command -/

theorem EngineKept.refuse (s : State) (r : RefuseReason) : EngineKept s (s.refuse r) := by constructor <;> rfl

/-- INIT and POLL have bodies of their own; every other command has the body that a callback's command runs (R264). -/
theorem commandBody_cases (i : Instr) :
    (∃ cap ep0, i = .init cap ep0) ∨ (∃ batch, i = .poll batch) ∨ commandBody i = nestedBody i := by
  cases i
  case init cap ep0 => exact .inl ⟨cap, ep0, rfl⟩
  case poll batch => exact .inr (.inl ⟨batch, rfl⟩)
  all_goals exact .inr (.inr rfl)

/-- The body of a nested command, ended as a command, keeps the engine: it never raises, and a refusal only sets the mark. -/
theorem finish_nestedBody_engineKept {i : Instr} {s t : State} (h : finish (nestedBody i s) = .next t) : EngineKept s t := by
  rcases nestedBody_cases i s with ⟨u, hu⟩ | ⟨r, hr⟩
  · rw [hu] at h
    cases h
    exact (nestedBody_kept hu).engine
  · rw [hr] at h
    cases h
    exact .refuse s r

/-! ## The statements -/

/-- Settles O14: every field of State.reset is a literal. -/
theorem resetMeetsInvariant : Obligations.ResetMeetsInvariant := ⟨.inr (by decide), rfl, rfl⟩

/-- Settles O20: `fetch` and each format's run test the refused mark first. -/
theorem stuckAfterRefusal : Obligations.StuckAfterRefusal := fun _ i hr => ⟨step_stuck hr, exec_stuck hr i⟩

/-- Settles O39: the command is refused where it stands, or runs the body of a nested command. -/
theorem commandsKeepEngine : Obligations.CommandsKeepEngine := by
  unfold Obligations.CommandsKeepEngine
  intro i s t hf hi hp h
  have hbody : commandBody i = nestedBody i := by
    rcases commandBody_cases i with ⟨_, _, rfl⟩ | ⟨_, rfl⟩ | hb
    · cases hi
    · cases hp
    · exact hb
  rw [exec_command hf, hbody] at h
  rcases runCommand_cases i (nestedBody i) s with ⟨_, e⟩ | ⟨_, r, _, e⟩ | ⟨_, _, e⟩
  · rw [e] at h
    cases h
  · rw [e] at h
    cases h
    exact .refuse s r
  · exact finish_nestedBody_engineKept (e ▸ h)

end Sys2Proof.Machine
end

