-- ==== Sys2Proof/Proofs/Invariant.lean ====
section
/-! SUPPORT. The invariant of R45 taken apart by when it holds: what a raise keeps, what holds where a request is dispatched, and
what holds of every live block; and what it means that a procedure keeps it. -/

namespace Sys2Proof.Machine

/-! ## The three layers -/

/-- What holds at every point of a procedure: the recovery path (R303) needs no more, since it cancels the transfer (R120). -/
structure BaseInv (s : State) : Prop where
  notRefused : s.refusedFor = none
  buffer : bufferInv s
  config : configInv s
  size : sizeInv s
  ctx : s.ctx = .normal

/-- What holds of a block that is not refused, between events. -/
structure LiveInv (s : State) : Prop extends BaseInv s where
  rx : rxInv s
  tx : txInv s
  count : countInv s
  pending : pendingInv s
  address : addressInv s

/-- What holds where a request is dispatched (R121, R132, R220): no address is deferred, and the request waits in Idle without OUT
data or has all of its OUT data in the buffer. -/
structure Dispatchable (s : State) : Prop extends BaseInv s where
  noAddress : s.pendingAddress = none
  stage :
    (s.controlState = .idle ∧ hasOutData s.setup = false) ∨
      (s.controlState = .rxData ∧ hasOutData s.setup = true ∧ s.setup.length.toNat ≤ s.maxDataSize.toNat ∧
        s.totalLen.toNat = s.setup.length.toNat ∧ s.transferredCount = s.totalLen ∧ s.dataCursor = s.transferredCount)

/-- The live block is the unrefused one that meets the invariant of R45. -/
theorem liveInv_iff {s : State} : LiveInv s ↔ s.refused = false ∧ blockInv s := by
  rw [State.refused_eq_false]
  constructor
  · rintro ⟨⟨hr, hb, hf, hs, hx⟩, hrx, htx, hc, hp, ha⟩
    exact ⟨hr, hb, hrx, htx, hc, hp, ha, hf, hs, hx⟩
  · rintro ⟨hr, hb, hrx, htx, hc, hp, ha, hf, hs, hx⟩
    exact ⟨⟨hr, hb, hf, hs, hx⟩, hrx, htx, hc, hp, ha⟩

/-! ## Each layer reads only the engine and the refused mark -/

section
variable {s t : State} (h : EngineKept s t) (hr : t.refusedFor = s.refusedFor)
include h hr

theorem BaseInv.of_engineKept (hs : BaseInv s) : BaseInv t := by
  obtain ⟨h1, h2, h3, h4, h5⟩ := hs
  constructor <;>
    simpa only [bufferInv, configInv, sizeInv, hr, h.dataBuffer, h.maxDataSize, h.deviceState, h.activeConfig, h.initialised,
      h.ep0PacketSize, h.ctx]

theorem LiveInv.of_engineKept (hs : LiveInv s) : LiveInv t := by
  obtain ⟨hb, h1, h2, h3, h4, h5⟩ := hs
  refine ⟨hb.of_engineKept h hr, ?_, ?_, ?_, ?_, ?_⟩ <;>
    simpa only [rxInv, txInv, countInv, pendingInv, addressInv, h.controlState, h.setup, h.maxDataSize, h.totalLen, h.pending,
      h.transferredCount, h.dataCursor, h.pendingAddress, h.deviceState]

theorem Dispatchable.of_engineKept (hs : Dispatchable s) : Dispatchable t := by
  obtain ⟨hb, h1, h2⟩ := hs
  refine ⟨hb.of_engineKept h hr, ?_, ?_⟩ <;>
    simpa only [h.controlState, h.setup, h.maxDataSize, h.totalLen, h.transferredCount, h.dataCursor, h.pendingAddress]

end

/-- What the outside agents still hold is no part of the invariant. -/
theorem LiveInv.withEnv {s : State} (hs : LiveInv s) (e : Env) : LiveInv { s with env := e } :=
  LiveInv.of_engineKept (s := s) (by constructor <;> rfl) rfl hs

/-! ## Passing between the layers -/

/-- Outside the data stages, with no Nak pending, only a deferred address is left to look at. -/
theorem LiveInv.of_noDataStage {s : State} (hb : BaseInv s)
    (hc : s.controlState = .idle ∨ s.controlState = .statusIn ∨ s.controlState = .statusOut) (hp : s.pending = .none)
    (ha : addressInv s) : LiveInv s := by
  refine ⟨hb, ?_, ?_, ?_, fun h => absurd hp h, ha⟩ <;> rcases hc with hc | hc | hc <;> simp [hc]

/-- In the IN data stage, with no Nak pending and no address deferred, item 4 and item 5 of R45 are left to look at. -/
theorem LiveInv.of_inDataStage {s : State} (hb : BaseInv s) (hc : inDataStage s.controlState) (hp : s.pending = .none)
    (ha : s.pendingAddress = none)
    (htx : hasInData s.setup = true ∧ s.totalLen.toNat ≤ s.setup.length.toNat ∧ s.totalLen.toNat ≤ s.maxDataSize.toNat)
    (hct : s.transferredCount.toNat ≤ s.totalLen.toNat ∧ s.dataCursor = s.transferredCount) : LiveInv s := by
  refine ⟨hb, fun hrx => ?_, fun _ => htx, fun _ => hct, fun hn => absurd hp hn, fun hn => absurd ha hn⟩
  simp [hrx, inDataStage] at hc

/-- A write inside the buffer keeps what a raise needs (R62). -/
theorem BaseInv.memPutAll {s : State} (hb : BaseInv s) {a : Nat} {bs : List Byte} (hf : a + bs.length ≤ s.maxDataSize.toNat) :
    BaseInv { s with dataBuffer := memPutAll s.dataBuffer a bs } := by
  obtain ⟨hwf, hin⟩ := hb.buffer
  exact { hb with buffer := ⟨memWf_memPutAll bs a hwf, memPutAll_inside bs a hf hin⟩ }

/-- A stalled block meets the invariant, whatever the transfer was (R120, R303). -/
theorem BaseInv.recover {s : State} (e : ErrCode) (hb : BaseInv s) : LiveInv (recover e s) := by
  rw [recover_eq]
  exact .of_noDataStage { hb with } (.inl rfl) rfl fun h => absurd rfl h

/-- Only a status stage has an address deferred (R33). -/
theorem LiveInv.noAddress {s : State} (h : LiveInv s) (hc : s.controlState ≠ .statusIn) : s.pendingAddress = none :=
  Classical.byContradiction fun hn => hc (h.address hn).1

/-- A request that waits for its retry can be dispatched (R220). -/
theorem LiveInv.dispatchable {s : State} (h : LiveInv s) (hp : s.pending ≠ .none) : Dispatchable s := by
  rcases h.pending hp with ⟨hc, ho⟩ | ⟨hc, hct⟩
  · exact ⟨h.toBaseInv, h.noAddress (by simp [hc]), .inl ⟨hc, ho⟩⟩
  · obtain ⟨ho, hcap, hlen, -⟩ := h.rx hc
    exact ⟨h.toBaseInv, h.noAddress (by simp [hc]), .inr ⟨hc, ho, hcap, hlen, hct, (h.count (.inl hc)).2⟩⟩

/-- A request that is answered with a Nak stays where it is (R126). -/
theorem Dispatchable.nak {s : State} (h : Dispatchable s) : LiveInv { s with pending := .fresh } := by
  have haddr : addressInv { s with pending := .fresh } := fun hn => absurd h.noAddress hn
  rcases h.stage with ⟨hc, ho⟩ | ⟨hc, ho, hcap, hlen, hct, hcur⟩
  · exact ⟨{ h with }, by simp [hc], by simp [hc], by simp [hc], fun _ => .inl ⟨hc, ho⟩, haddr⟩
  · exact ⟨{ h with }, fun _ => ⟨ho, hcap, hlen, fun hn => nomatch hn⟩, by simp [hc], fun _ => ⟨hct ▸ le_rfl, hcur⟩,
      fun _ => .inr ⟨hc, hct⟩, haddr⟩

/-- The OUT data of a request that is dispatched lie inside the buffer (R123, R124). -/
theorem Dispatchable.outDataFits {s : State} (h : Dispatchable s) : outDataFits s.setup s := by
  intro ho
  rcases h.stage with ⟨-, hno⟩ | ⟨-, -, hcap, -⟩
  · rw [hno] at ho
    cases ho
  · exact hcap

/-! ## Procedures that keep the invariant -/

/-- A procedure that goes on in `P`, raises only where recovery restores the invariant, and never refuses BUFFER_BOUNDS (R61). -/
def Flow.Safe {α : Type} (P : α → Prop) : Flow α → Prop
  | .ok a => P a
  | .raised _ s => BaseInv s
  | .refused r _ => r ≠ .bufferBounds

@[simp] theorem Flow.safe_ok {α : Type} {P : α → Prop} {a : α} : (Flow.ok a).Safe P ↔ P a := .rfl
@[simp] theorem Flow.safe_raised {α : Type} {P : α → Prop} {e : ErrCode} {s : State} :
    (Flow.raised e s).Safe P ↔ BaseInv s := .rfl
@[simp] theorem Flow.safe_refused {α : Type} {P : α → Prop} {r : RefuseReason} {s : State} :
    (Flow.refused r s).Safe P ↔ r ≠ .bufferBounds := .rfl

theorem Flow.Safe.bind {α β : Type} {P : α → Prop} {Q : β → Prop} {x : Flow α} {f : α → Flow β} (hx : x.Safe P)
    (hf : ∀ a, P a → (f a).Safe Q) : (x.bind f).Safe Q := by
  cases x with
  | ok a => exact hf a hx
  | raised e s => exact hx
  | refused r s => exact hx

theorem Flow.Safe.mono {α : Type} {P Q : α → Prop} {x : Flow α} (hx : x.Safe P) (h : ∀ a, P a → Q a) : x.Safe Q := by
  cases x with
  | ok a => exact h a hx
  | raised e s => exact hx
  | refused r s => exact hx

/-- A raise is recovered into a live block (R303). -/
theorem Flow.Safe.caught {x : Flow State} (hx : x.Safe LiveInv) : (caught x).Safe LiveInv := by
  cases x with
  | ok s => exact hx
  | raised e s => exact BaseInv.recover e hx
  | refused r s => exact hx

/-- A step ends in a live block or in a refusal that is not BUFFER_BOUNDS. -/
def SafeEnd (t : State) : Prop := LiveInv t ∨ ∃ r u, t = State.refuse u r ∧ r ≠ .bufferBounds

theorem Flow.Safe.finish {x : Flow State} {t : State} (hx : x.Safe LiveInv) (h : finish x = .next t) : SafeEnd t := by
  rcases finish_eq_next h with rfl | ⟨e, u, rfl, rfl⟩ | ⟨r, u, rfl, rfl⟩
  · exact .inl hx
  · exact .inl (BaseInv.recover e hx)
  · exact .inr ⟨r, u, rfl, hx⟩

theorem SafeEnd.inv {t : State} (h : SafeEnd t) : t.Inv := by
  rcases h with hl | ⟨r, u, rfl, -⟩
  · exact .inr (liveInv_iff.1 hl).2
  · exact .inl rfl

end Sys2Proof.Machine
end

