-- ==== Sys2Proof/Proofs/CallbackSafe.lean ====
section
/-! SUPPORT. A callback keeps the engine and the refused mark, and none of its commands refuses BUFFER_BOUNDS (43_public_api.md
R264 to R266, R313). -/

namespace Sys2Proof.Machine

/-! ## Refusals of admission -/

theorem earlyRefusal_ne_bufferBounds {w : Half} {s : State} {r : RefuseReason} (h : earlyRefusal w s = some r) :
    r ≠ .bufferBounds := by
  rw [earlyRefusal_eq] at h
  rintro rfl
  split at h
  · cases h
  · split at h <;> cases h

theorem endpointRefusal_ne_bufferBounds {i : Instr} {r : RefuseReason} (h : endpointRefusal i = some r) : r ≠ .bufferBounds := by
  unfold endpointRefusal at h
  rintro rfl
  split at h
  · cases h
  · split at h
    · cases h
    · split at h <;> cases h

/-- Admission has no reason of its own but RESERVED_INPUT (R256). -/
theorem admission_ne_bufferBounds {i : Instr} {s : State} {r : RefuseReason} (h : admission i s = some r) :
    r ≠ .bufferBounds := by
  unfold admission at h
  split at h
  · next he =>
    cases h
    exact earlyRefusal_ne_bufferBounds he
  · split at h
    · exact endpointRefusal_ne_bufferBounds h
    · cases h
      decide

/-- A nested command that is refused by its body is INIT or POLL, or no command at all (R265, R41). -/
theorem nestedBody_refused {i : Instr} {s u : State} {r : RefuseReason} (h : nestedBody i s = .refused r u) :
    r = .reentrant ∨ r = .reservedInput := by
  cases i
  case init | poll =>
    cases h
    exact .inl rfl
  all_goals cases h <;> exact .inr rfl

/-! ## Commands, answers, callbacks -/

theorem nestedBody_safe (i : Instr) (s : State) : (nestedBody i s).Safe (CallKept s) := by
  rcases nestedBody_cases i s with ⟨t, ht⟩ | ⟨r, hr⟩
  · rw [ht]
    exact nestedBody_kept ht
  · rw [hr, Flow.safe_refused]
    rcases nestedBody_refused hr with rfl | rfl <;> decide

theorem runCall_safe (c : Input) (s : State) : (runCall c s).Safe (CallKept s) := by
  unfold runCall
  split
  · next he => exact earlyRefusal_ne_bufferBounds he
  · split
    · simp
    · split
      · next ha => exact admission_ne_bufferBounds ha
      · exact nestedBody_safe _ s

theorem runCalls_safe : ∀ (cs : List Input) (s : State), (runCalls cs s).Safe (CallKept s)
  | [], s => .refl s
  | c :: cs, s => (runCall_safe c s).bind fun t ht => (runCalls_safe cs t).mono fun _ hu => ht.trans hu

/-- What is kept in another context is kept once the context is restored (R264). -/
theorem CallKept.setCtx_restored {s t : State} {c : Context} (h : CallKept (s.setCtx c) t) : CallKept s (t.setCtx s.ctx) :=
  { h with engine := { h.engine with ctx := rfl } }

theorem ask_safe (c : Call) (s : State) : (ask c s).Safe fun r => CallKept s r.2 := by
  have hd : CallKept s (drawAnswer (s.emit (.call c))).2 := (CallKept.emit s (.call c)).trans (.draw (drawAnswer_state _))
  have hctx : (drawAnswer (s.emit (.call c))).2.ctx = s.ctx := hd.engine.ctx
  exact (runCalls_safe _ _).bind fun t ht => hd.trans (hctx ▸ ht.setCtx_restored)

theorem notify_safe (c : Call) (s : State) : (notify c s).Safe (CallKept s) :=
  (ask_safe c s).bind fun _ hr => hr

/-! ## The layers of the invariant over a callback -/

theorem LiveInv.of_callKept {s t : State} (hs : LiveInv s) (h : CallKept s t) : LiveInv t := hs.of_engineKept h.engine h.refusedFor

theorem Dispatchable.of_callKept {s t : State} (hs : Dispatchable s) (h : CallKept s t) : Dispatchable t :=
  hs.of_engineKept h.engine h.refusedFor

end Sys2Proof.Machine
end

