-- ==== Sys2Proof/Proofs/DispatchSafe.lean ====
section
/-! SUPPORT. Dispatch keeps the invariant: where a request's rule can leave the block (41_request_dispatcher.md R171 to R186), and
what its Outcome makes of that (40_control_engine.md R124 to R130). -/

namespace Sys2Proof.Machine

/-! ## Where a rule ends -/

/-- Where the rule of the request in flight leaves the block: it can still be dispatched, or SET_ADDRESS has accepted an address,
which waits for the status stage of a device that is not Configured (R179). -/
def RuleEnd (req : ControlRequest) (r : ReqOutcome × State) : Prop :=
  r.2.setup = req ∧
    (Dispatchable r.2 ∨ (r.1 = .ack none none ∧ BaseInv r.2 ∧ r.2.deviceState ≠ .configured))

theorem RuleEnd.baseInv {req : ControlRequest} {r : ReqOutcome × State} (h : RuleEnd req r) : BaseInv r.2 := by
  rcases h.2 with hd | ⟨-, hb, -⟩
  · exact hd.toBaseInv
  · exact hb

section
variable {s : State} (hs : Dispatchable s)
include hs

theorem Dispatchable.ruleEnd (o : ReqOutcome) {t : State} (h : CallKept s t) : RuleEnd s.setup (o, t) :=
  ⟨h.engine.setup, .inl (hs.of_callKept h)⟩

theorem answered_safe (o : ReqOutcome) : (answered o s).Safe (RuleEnd s.setup) := hs.ruleEnd o (.refl s)

theorem askSlot_safe (slot : Option HandlerId) (mk : HandlerId → Call) : (askSlot slot mk s).Safe (RuleEnd s.setup) := by
  cases slot with
  | none => exact answered_safe hs _
  | some h => exact (ask_safe (mk h) s).bind fun r hr => hs.ruleEnd _ hr

theorem ruleGetStatus_safe (req : ControlRequest) (bs : List Byte) : (ruleGetStatus req bs s).Safe (RuleEnd s.setup) := by
  unfold ruleGetStatus
  split <;> exact answered_safe hs _

/-- The two halt requests trace one HAL action and write one halt bit (R177, R178). -/
theorem answered_setHalt_safe (o : ReqOutcome) (a : Action) (ep : EpAddr) (b : Bool) :
    (answered o ((s.emit a).setHalt ep b)).Safe (RuleEnd s.setup) :=
  hs.ruleEnd o ((CallKept.emit s a).trans (.setHalt _ ep b))

theorem ruleClearFeature_safe (req : ControlRequest) (bs : List Byte) :
    (ruleClearFeature req bs s).Safe (RuleEnd s.setup) := by
  unfold ruleClearFeature
  split
  · exact answered_safe hs _
  · exact answered_setHalt_safe hs _ _ _ _

theorem ruleSetFeature_safe (req : ControlRequest) (bs : List Byte) : (ruleSetFeature req bs s).Safe (RuleEnd s.setup) := by
  unfold ruleSetFeature
  split
  · exact answered_safe hs _
  · exact answered_setHalt_safe hs _ _ _ _

theorem ruleSetAddress_safe (req : ControlRequest) (bs : List Byte) : (ruleSetAddress req bs s).Safe (RuleEnd s.setup) := by
  unfold ruleSetAddress
  split
  · exact answered_safe hs _
  · split
    · exact answered_safe hs _
    · next hc => exact ⟨rfl, .inr ⟨rfl, { hs with }, hc⟩⟩

/-- A device is Configured by an accepted SET_CONFIGURATION exactly if its value is not 0 (R183). -/
theorem Dispatchable.configure (c : Byte) : Dispatchable (configure c s) := by
  refine { hs with config := ?_ }
  rw [configInv, configure_deviceState, configure_activeConfig]
  by_cases hc : c = 0
  · rw [if_pos hc]
    by_cases hd : s.deviceState = .default <;> simp [hc, hd]
  · rw [if_neg hc]
    simpa using hc

theorem ruleSetConfiguration_safe (req : ControlRequest) (bs : List Byte) :
    (ruleSetConfiguration req bs s).Safe (RuleEnd s.setup) := by
  unfold ruleSetConfiguration
  split
  · exact answered_safe hs _
  · split
    · exact answered_safe hs _
    · split
      · exact answered_safe hs _
      · refine (ask_safe _ s).bind fun r hr => ?_
        split
        · exact hs.ruleEnd _ hr
        · exact hs.ruleEnd _ hr
        · exact ⟨hr.engine.setup, .inl ((hs.of_callKept hr).configure _)⟩

theorem ruleSetInterface_safe (req : ControlRequest) (bs : List Byte) : (ruleSetInterface req bs s).Safe (RuleEnd s.setup) := by
  unfold ruleSetInterface
  split <;> exact answered_safe hs _

/-- Every rule, by its row (R170). -/
theorem ruleOf_safe (i : Instr) (req : ControlRequest) (bs : List Byte) : (ruleOf i req bs s).Safe (RuleEnd s.setup) := by
  cases i
  case getStatus => exact ruleGetStatus_safe hs req bs
  case clearFeature => exact ruleClearFeature_safe hs req bs
  case setFeature => exact ruleSetFeature_safe hs req bs
  case setAddress => exact ruleSetAddress_safe hs req bs
  case setConfiguration => exact ruleSetConfiguration_safe hs req bs
  case setInterface => exact ruleSetInterface_safe hs req bs
  case getDescriptor | setDescriptor | classRequest | vendorRequest => exact askSlot_safe hs _ _
  all_goals exact answered_safe hs _

end

/-! ## What the Outcome makes of it -/

/-- The response of `len` asked for puts the block in the IN data stage (R129, R130). -/
theorem responseState_inDataStage (len : Nat) (d : List Byte) (c : Option Token) (s : State) :
    inDataStage (responseState len d c s).controlState := by
  unfold responseState
  dsimp only
  split
  · exact .inr (.inr rfl)
  · split
    · exact .inr (.inl rfl)
    · exact .inl rfl

/-- The first packet is a part of the response, and the response a part of what the buffer holds (R127). -/
theorem responseState_live {s : State} (hs : Dispatchable s) {d : List Byte} (c : Option Token)
    (hin : hasInData s.setup = true) (hf : min d.length s.setup.length.toNat ≤ s.maxDataSize.toNat) :
    LiveInv (responseState s.setup.length.toNat d c s) := by
  have hlen : s.setup.length.toNat < 65536 := s.setup.length.isLt
  have ht : (u32 (min d.length s.setup.length.toNat)).toNat = min d.length s.setup.length.toNat := u32_toNat (by omega)
  have hn : (u32 (min (min d.length s.setup.length.toNat) s.ep0PacketSize.toNat)).toNat =
      min (min d.length s.setup.length.toNat) s.ep0PacketSize.toNat := u32_toNat (by omega)
  have htake : 0 + (d.take (min d.length s.setup.length.toNat)).length ≤ s.maxDataSize.toNat := by
    rw [List.length_take]
    omega
  have hb := hs.toBaseInv.memPutAll htake
  refine .of_inDataStage { hb with } (responseState_inDataStage _ d c s) rfl hs.noAddress ⟨hin, ?_, ?_⟩ ⟨?_, rfl⟩
  · exact ht ▸ Nat.min_le_right _ _
  · exact ht ▸ hf
  · exact hn ▸ ht ▸ Nat.min_le_left _ _

theorem statusState_live {s : State} (hb : BaseInv s) (c : Option Token)
    (ha : s.pendingAddress ≠ none → s.deviceState ≠ .configured) : LiveInv (statusState c s) := by
  exact .of_noDataStage { hb with } (.inr (.inl rfl)) rfl fun hn => ⟨rfl, ha hn⟩

theorem ackIn_safe {s : State} (hs : Dispatchable s) (data : Option (List Byte)) (c : Option Token)
    (hin : hasInData s.setup = true) : (ackIn s.setup data c s).Safe LiveInv := by
  cases data with
  | none => exact hs.toBaseInv
  | some d =>
    by_cases hf : min d.length s.setup.length.toNat ≤ s.maxDataSize.toNat
    · rw [ackIn_fits c hs.buffer.1 hf]
      exact responseState_live hs c hin hf
    · rw [ackIn, if_pos (Nat.lt_of_not_le hf)]
      exact hs.toBaseInv

theorem applyOutcome_ack (req : ControlRequest) (data : Option (List Byte)) (c : Option Token) (s : State) :
    applyOutcome req (.ack data c) s = if hasInData req = true then ackIn req data c s else .ok (statusState c s) := rfl

/-- An Outcome that a rule can give keeps the invariant: only a status stage can have an address deferred (R125 to R128). -/
theorem applyOutcome_safe {req : ControlRequest} {r : ReqOutcome × State} (h : RuleEnd req r) :
    (applyOutcome req r.1 r.2).Safe LiveInv := by
  obtain ⟨o, s⟩ := r
  have hb : BaseInv s := h.baseInv
  obtain ⟨rfl, hd | ⟨ho, -, hcfg⟩⟩ := h
  · cases o with
    | fail e => exact hb
    | nak => exact hd.nak
    | ack data c =>
      rw [applyOutcome_ack]
      split
      · next hin => exact ackIn_safe hd data c hin
      · exact statusState_live hb c fun hn => absurd hd.noAddress hn
  · obtain rfl : o = .ack none none := ho
    rw [applyOutcome_ack]
    split
    · exact hb
    · exact statusState_live hb none fun _ => hcfg

/-- Dispatch keeps the invariant (R124). -/
theorem dispatch_safe {s : State} (hs : Dispatchable s) : (dispatch s).Safe LiveInv := by
  rw [dispatch, dispatchWith_fits _ hs.outDataFits]
  exact (ruleOf_safe hs _ _ _).bind fun _ => applyOutcome_safe

end Sys2Proof.Machine
end

