-- ==== Sys2Proof/Proofs/EventSafe.lean ====
section
/-! SUPPORT. Every event and the poll cycle keep the invariant: the EP0 events (40_control_engine.md R121 to R140), the other
events (42_event_dispatcher.md R213 to R219), POLL with its retry (R210, R220). -/

namespace Sys2Proof.Machine

/-! ## CompleteTransfer -/

/-- The deferred address is applied to a device that is not Configured, which has no active configuration (R140). -/
theorem BaseInv.addressedState {s : State} (hb : BaseInv s) (ha : s.pendingAddress ≠ none → s.deviceState ≠ .configured) :
    BaseInv (addressedState s) := by
  unfold Machine.addressedState
  split
  · exact hb
  · next a hpa =>
    refine { hb with config := iff_of_false ?_ (mt hb.config.2 (ha (by simp [hpa]))) }
    dsimp only
    split <;> decide

theorem addressedState_kept (s : State) :
    (addressedState s).controlState = s.controlState ∧ (addressedState s).pending = s.pending ∧
      (addressedState s).pendingAddress = none := by
  unfold addressedState
  split
  · next h => exact ⟨rfl, rfl, h⟩
  · exact ⟨rfl, rfl, rfl⟩

/-- The end of a status stage (R140). -/
theorem completeTransfer_safe {s : State} (hb : BaseInv s) (hc : s.controlState = .idle) (hp : s.pending = .none)
    (ha : s.pendingAddress ≠ none → s.deviceState ≠ .configured) : (completeTransfer s).Safe LiveInv := by
  obtain ⟨hc', hp', ha'⟩ := addressedState_kept s
  have hb' := hb.addressedState ha
  rw [completeTransfer, applyAddress_eq]
  split
  · exact .of_noDataStage hb' (.inl (hc'.trans hc)) (hp'.trans hp) fun hn => absurd ha' hn
  · have hl : LiveInv { addressedState s with completion := none } :=
      .of_noDataStage { hb' with } (.inl (hc'.trans hc)) (hp'.trans hp) fun hn => absurd ha' hn
    exact (notify_safe _ _).mono fun _ => hl.of_callKept

/-- A status stage that completes: the block is Idle before the address is applied (R133, R138). -/
theorem LiveInv.completeTransfer_safe {s : State} (hs : LiveInv s) (hp : s.pending = .none) :
    (completeTransfer { s with controlState := .idle }).Safe LiveInv :=
  Machine.completeTransfer_safe { hs with } rfl hp fun hn => (hs.address hn).2

/-! ## EVT_SETUP -/

/-- BeginOut expects bytes, since the request has OUT data (R123). -/
theorem beginOut_safe {s : State} (hb : BaseInv s) (hp : s.pending = .none) (ha : s.pendingAddress = none)
    (ho : hasOutData s.setup = true) : (beginOut s).Safe LiveInv := by
  unfold beginOut
  split
  · exact hb
  · next hcap =>
    have hlen : s.setup.length.toNat < 65536 := s.setup.length.isLt
    have ht : (u32 s.setup.length.toNat).toNat = s.setup.length.toNat := u32_toNat (by omega)
    have hpos : 0 < s.setup.length.toNat := by
      simp only [hasOutData, hasData, Bool.and_eq_true, decide_eq_true_eq] at ho
      exact ho.2
    exact ⟨{ hb with }, fun _ => ⟨ho, Nat.le_of_not_lt hcap, ht, fun _ => ht.symm ▸ hpos⟩, by simp [inDataStage],
      fun _ => ⟨Nat.zero_le _, rfl⟩, fun hn => absurd hp hn, fun hn => absurd ha hn⟩

/-- A SETUP cancels what was in flight, so its own request starts from Idle with nothing deferred (R121). -/
theorem bodyEvtSetup_safe (p : List Byte) {s : State} (hs : LiveInv s) : (bodyEvtSetup p s).Safe LiveInv := by
  unfold bodyEvtSetup parseInto
  split
  · exact { hs with }
  · next r _ =>
    rw [Flow.bind_ok]
    split
    · next ho => exact beginOut_safe { hs with } rfl rfl ho
    · next ho => exact dispatch_safe ⟨{ hs with }, rfl, .inl ⟨rfl, Bool.eq_false_iff.2 ho⟩⟩

/-! ## EVT_EP0_RX -/

/-- A packet that does not overflow the total lies inside the buffer; the last one completes the request (R132). -/
theorem rxInData_safe (p : List Byte) {s : State} (hs : LiveInv s) (hc : s.controlState = .rxData) (hp : s.pending = .none) :
    (rxInData p s).Safe LiveInv := by
  obtain ⟨ho, hcap, hlen, -⟩ := hs.rx hc
  obtain ⟨hle, hcur⟩ := hs.count (.inl hc)
  have ha : s.pendingAddress = none := hs.noAddress (by simp [hc])
  unfold rxInData
  dsimp only
  split
  · exact hs.toBaseInv
  · next hover =>
    have hfit : s.dataCursor.toNat + p.length ≤ s.maxDataSize.toNat := by
      rw [hcur]
      omega
    have hsum : (u32 (s.transferredCount.toNat + p.length)).toNat = s.transferredCount.toNat + p.length :=
      u32_toNat (by have := s.totalLen.isLt; omega)
    have hb := hs.toBaseInv.memPutAll hfit
    have hcur' : u32 (s.dataCursor.toNat + p.length) = u32 (s.transferredCount.toNat + p.length) := by rw [hcur]
    rw [bufWrite, if_pos hfit, Flow.bind_ok]
    split
    · next hdone =>
      exact dispatch_safe ⟨{ hb with }, ha,
        .inr ⟨hc, ho, hcap, hlen, BitVec.eq_of_toNat_eq (hsum.trans hdone), hcur'⟩⟩
    · next hmiss =>
      split
      · exact { hb with }
      · refine ⟨{ hb with }, fun _ => ⟨ho, hcap, hlen, fun _ => ?_⟩, by simp [hc], fun _ => ⟨?_, hcur'⟩,
          fun hn => absurd hp hn, fun hn => absurd ha hn⟩ <;> dsimp only <;> omega

theorem bodyEvtEp0Rx_safe (p : List Byte) {s : State} (hs : LiveInv s) : (bodyEvtEp0Rx p s).Safe LiveInv := by
  have hs' : LiveInv (s.emit (.readEndpoint ep0Out p)) := hs.of_callKept (.emit _ _)
  unfold bodyEvtEp0Rx
  dsimp only
  split
  · exact hs'.toBaseInv
  · next hp =>
    have hp : s.pending = .none := Classical.not_not.1 hp
    split
    · next hc => exact rxInData_safe p hs' hc hp
    · unfold rxInStatus
      split
      · exact hs'.toBaseInv
      · exact hs'.completeTransfer_safe hp
    all_goals exact hs'.toBaseInv

/-! ## EVT_EP0_TX -/

theorem afterPacket_inDataStage {c : ControlState} (hc : inDataStage c) (n sent total size : Nat) :
    inDataStage (afterPacket c n sent total size) := by
  unfold afterPacket
  split
  · exact .inr (.inr rfl)
  · exact hc

/-- The next packet is a part of what is missing, so it lies inside the response (R130). -/
theorem sendNext_safe {s : State} (hs : LiveInv s) (hc : inDataStage s.controlState) (hp : s.pending = .none) :
    (sendNext s).Safe LiveInv := by
  obtain ⟨hin, hreq, hcap⟩ := hs.tx hc
  obtain ⟨hle, hcur⟩ := hs.count (.inr hc)
  have ha : s.pendingAddress = none := hs.noAddress fun hst => by simp [hst, inDataStage] at hc
  have hn : s.transferredCount.toNat + nextPacket s ≤ s.totalLen.toNat := by
    unfold nextPacket
    omega
  have hsum : (u32 (s.transferredCount.toNat + nextPacket s)).toNat = s.transferredCount.toNat + nextPacket s :=
    u32_toNat (by have := s.totalLen.isLt; omega)
  rcases sendNext_cases s with ⟨-, e⟩ | ⟨hout, -⟩
  · rw [e]
    refine LiveInv.of_inDataStage { hs with } (afterPacket_inDataStage hc _ _ _ _) hp ha ⟨hin, hreq, hcap⟩ ⟨?_, ?_⟩
    · exact hsum.trans_le hn
    · exact congrArg (fun w : Word => u32 (w.toNat + nextPacket s)) hcur
  · rw [hcur] at hout
    omega

theorem bodyEvtEp0Tx_safe {s : State} (hs : LiveInv s) : (bodyEvtEp0Tx s).Safe LiveInv := by
  unfold bodyEvtEp0Tx
  split
  · exact hs.toBaseInv
  · next hp =>
    have hp : s.pending = .none := Classical.not_not.1 hp
    split
    · next hc => exact sendNext_safe hs (.inl hc) hp
    · next hc => exact sendNext_safe hs (.inr (.inl hc)) hp
    · next hc =>
      exact LiveInv.of_noDataStage { hs with } (.inr (.inr rfl)) hp fun hn => absurd (hs.noAddress (by simp [hc])) hn
    · exact hs.completeTransfer_safe hp
    all_goals exact hs.toBaseInv

/-! ## The other events -/

/-- A bus reset leaves nothing in flight and nothing configured (R214). -/
theorem LiveInv.busReset {s : State} (hs : LiveInv s) : LiveInv (busReset s) :=
  .of_noDataStage { hs with config := by simp [configInv] } (.inl rfl) rfl fun hn => absurd rfl hn

theorem notifyEvent_safe (e : DeviceEvent) {s : State} (hs : LiveInv s) : (notifyEvent e s).Safe LiveInv := by
  unfold notifyEvent
  split
  · exact hs
  · exact (notify_safe _ s).mono fun _ => hs.of_callKept

theorem notifyEndpoint_safe (kind : Transfer) (ep : EpAddr) {s : State} (hs : LiveInv s) :
    (notifyEndpoint kind ep s).Safe LiveInv := by
  unfold notifyEndpoint
  split
  · exact hs
  · exact (notify_safe _ s).mono fun _ => hs.of_callKept

/-- Process, by its consumer (R212); what is no event is refused. -/
theorem process_safe (i : Instr) {s : State} (hs : LiveInv s) : (process i s).Safe LiveInv := by
  cases i
  case evtReset => exact notifyEvent_safe .reset hs.busReset
  case evtSuspend => exact notifyEvent_safe .suspend hs
  case evtResume => exact notifyEvent_safe .resume hs
  case evtSetup p => exact bodyEvtSetup_safe p hs
  case evtEp0Rx p => exact bodyEvtEp0Rx_safe p hs
  case evtEp0Tx => exact bodyEvtEp0Tx_safe hs
  case evtEpnRx | evtEpnTx => exact notifyEndpoint_safe _ _ hs
  all_goals exact RefuseReason.noConfusion

/-! ## The poll cycle -/

theorem takeEvent_safe (e : EventInput) {s : State} (hs : LiveInv s) : (takeEvent e s).Safe LiveInv := by
  unfold takeEvent
  split
  · simp
  · exact (process_safe _ hs).caught

theorem takeEvents_safe : ∀ (es : List EventInput) {s : State}, LiveInv s → (takeEvents es s).Safe LiveInv
  | [], _, hs => hs
  | e :: es, _, hs => (takeEvent_safe e hs).bind fun _ => takeEvents_safe es

theorem LiveInv.armPending {s : State} (hs : LiveInv s) : LiveInv (armPending s) := by
  unfold Machine.armPending
  split
  · next hp =>
    refine { hs with rx := fun hc => ?_, pending := fun _ => hs.pending (by simp [hp]) }
    obtain ⟨ho, hcap, hlen, -⟩ := hs.rx hc
    exact ⟨ho, hcap, hlen, fun hn => nomatch hn⟩
  · exact hs

/-- The retry dispatches only a request that waits for it (R220). -/
theorem retry_safe {s : State} (hs : LiveInv s) : (retry s).Safe LiveInv := by
  refine Flow.Safe.bind (P := LiveInv) ?_ fun _ h => h.armPending
  split
  · next hp => exact (dispatch_safe (hs.dispatchable (by simp [hp]))).caught
  · exact hs

theorem bodyPoll_safe (batch : List EventInput) {s : State} (hs : LiveInv s) : (bodyPoll batch s).Safe LiveInv :=
  (takeEvents_safe _ (hs.withEnv _)).bind fun _ h1 => (retry_safe h1).bind fun _ h2 => h2.of_callKept (.returned _ _)

end Sys2Proof.Machine
end

