-- ==== Sys2Proof/Proofs/StepSafe.lean ====
section
/-! SUPPORT. Every command and every step keeps the invariant of R45, and the statement that says so. -/

namespace Sys2Proof.Machine

/-! ## Commands -/

/-- INIT leaves an idle block of its own sizes, with an empty buffer and a legal EP0 packet size (R240, R46). -/
theorem bodyInit_safe (cap : Word) (ep0 : Half) {s : State} (hs : LiveInv s) : (bodyInit cap ep0 s).Safe LiveInv := by
  unfold bodyInit
  split
  · next hsize =>
    refine LiveInv.of_noDataStage ⟨hs.notRefused, ⟨rfl, ?_⟩, ?_, fun _ => hsize, rfl⟩ (.inl rfl) rfl fun hn => absurd rfl hn
    · simp
    · simp [configInv]
  · simp

theorem commandBody_safe (i : Instr) {s : State} (hs : LiveInv s) : (commandBody i s).Safe LiveInv := by
  rcases commandBody_cases i with ⟨cap, ep0, rfl⟩ | ⟨batch, rfl⟩ | hb
  · exact bodyInit_safe cap ep0 hs
  · exact bodyPoll_safe batch hs
  · rw [hb]
    exact (nestedBody_safe i s).mono fun _ => hs.of_callKept

theorem exec_command_safeEnd {i : Instr} {s t : State} (hf : format i = .command) (hs : LiveInv s) (h : exec i s = .next t) :
    SafeEnd t := by
  rw [exec_command hf] at h
  rcases runCommand_cases i (commandBody i) s with ⟨_, e⟩ | ⟨_, r, ha, e⟩ | ⟨_, _, e⟩
  · rw [e] at h
    cases h
  · rw [e] at h
    cases h
    exact .inr ⟨r, s, rfl, admission_ne_bufferBounds ha⟩
  · exact (commandBody_safe i hs).finish (e ▸ h)

/-! ## The step -/

/-- A step from a live block, by its next input: it ends in a live block or in a refusal that is not BUFFER_BOUNDS. -/
theorem step_safeEnd {s t : State} (hs : LiveInv s) (h : step s = .next t) : SafeEnd t := by
  have hr : s.refused = false := (liveInv_iff.1 hs).1
  cases hi : s.env.inputs with
  | nil =>
    rw [step_idle hr hi] at h
    cases h
    exact .inl hs
  | cons inp rest =>
    by_cases hc : wordClass inp.word = 0
    · rw [step_event hr hi hc] at h
      cases h
      exact .inl (hs.withEnv _)
    · cases hd : decodeCommand s.limits inp.word inp.beside with
      | ok i =>
        rw [step_command hr hi hd] at h
        exact exec_command_safeEnd (format_of_decodeCommand hd) (hs.withEnv _) h
      | error e =>
        rw [step_undecodable hr hi hc (by simp [hd])] at h
        cases h
        refine .inr ⟨_, _, rfl, ?_⟩
        cases he : earlyRefusal inp.word (s.withInputs rest) with
        | none => decide
        | some r => exact earlyRefusal_ne_bufferBounds he

/-! ## The statement -/

/-- Settles O15: a state with a step is not refused, so it is live, and a step from a live block ends in one or in a refusal. -/
theorem stepKeepsInvariant : Obligations.StepKeepsInvariant := by
  unfold Obligations.StepKeepsInvariant
  intro s t hs h
  rcases hs with hr | hb
  · rw [step_stuck hr] at h
    cases h
  · exact (step_safeEnd (liveInv_iff.2 ⟨(step_cases h).1, hb⟩) h).inv

end Sys2Proof.Machine
end

