-- ==== Sys2Proof/Proofs/BufferAccess.lean ====
section
/-! SUPPORT. The data buffer seen from outside (20_memory.md R61, R62): reads and writes inside and outside its capacity, what a
store of bytes leaves of a buffer, and that no step from a state of R45 reaches outside it (R313). -/

namespace Sys2Proof.Machine

/-! ## No step reaches outside the buffer -/

theorem SafeEnd.refusedFor_ne_bufferBounds {t : State} (h : SafeEnd t) : t.refusedFor ≠ some .bufferBounds := by
  rcases h with hl | ⟨r, u, rfl, hr⟩
  · rw [hl.notRefused]
    exact nofun
  · rw [State.refuse_refusedFor]
    exact fun h => hr (Option.some.inj h)

/-- Settles O16: a step from a live block ends in a live block or in a refusal for another reason. -/
theorem bufferBoundsUnreachable : Obligations.BufferBoundsUnreachable := by
  unfold Obligations.BufferBoundsUnreachable
  intro s t hs h
  have hr : s.refused = false := (step_cases h).1
  have hb : blockInv s := hs.resolve_left (by simp [hr])
  exact (step_safeEnd (liveInv_iff.2 ⟨hr, hb⟩) h).refusedFor_ne_bufferBounds

/-! ## Read after write -/

theorem memGetAll_getElem (m : List Host.Cell) (a n : Nat) {i : Nat} (h : i < (memGetAll m a n).length) :
    (memGetAll m a n)[i] = memGet m (a + i) := by
  rw [← List.getD_eq_getElem _ fillByte h, memGetAll_getD m n a i (memGetAll_length m n a ▸ h)]

section
variable {m : List Host.Cell} (hwf : memWf m = true) (a : Nat) (bs : List Byte)
include hwf

theorem memGet_memPutAll_inside {i : Nat} (h : i < bs.length) : memGet (memPutAll m a bs) (a + i) = bs[i] := by
  rw [memGet_memPutAll bs a (a + i) hwf, if_pos (by omega), Nat.add_sub_cancel_left, List.getD_eq_getElem _ _ h]

theorem memGet_memPutAll_outside {x : Nat} (h : x < a ∨ a + bs.length ≤ x) : memGet (memPutAll m a bs) x = memGet m x := by
  rw [memGet_memPutAll bs a x hwf, if_neg (by omega)]

end

theorem bufRead_outside {addr n : Nat} {s : State} (h : s.maxDataSize.toNat < addr + n) :
    bufRead addr n s = .refused .bufferBounds s := if_neg (by omega)

theorem bufWrite_outside {addr : Nat} {bs : List Byte} {s : State} (h : s.maxDataSize.toNat < addr + bs.length) :
    bufWrite addr bs s = .refused .bufferBounds s := if_neg (by omega)

/-- Settles O11: MemWrite stores the bytes at their offsets and keeps the others, MemRead reads byte by byte. -/
theorem bufferReadWrite : Obligations.BufferReadWrite := by
  unfold Obligations.BufferReadWrite
  intro s addr
  refine ⟨fun bs => ⟨fun hwf hfit => ?_, bufWrite_outside⟩, fun n => ⟨fun hfit => ?_, bufRead_outside⟩⟩
  · exact ⟨memPutAll s.dataBuffer addr bs, if_pos hfit, fun _ => memGet_memPutAll_inside hwf addr bs,
      fun _ => memGet_memPutAll_outside hwf addr bs⟩
  · exact ⟨memGetAll s.dataBuffer addr n, if_pos hfit, memGetAll_length .., fun _ => memGetAll_getElem _ _ _⟩

/-! ## What a store leaves of the buffer -/

/-- `m'` is `m` with at most `n` bytes stored from `a` on. -/
def StoredAt (a n : Nat) (m m' : List Host.Cell) : Prop := ∃ bs : List Byte, bs.length ≤ n ∧ m' = memPutAll m a bs

theorem StoredAt.refl (a n : Nat) (m : List Host.Cell) : StoredAt a n m m := ⟨[], Nat.zero_le n, rfl⟩

theorem StoredAt.memGet_outside {a n x : Nat} {m m' : List Host.Cell} (h : StoredAt a n m m') (hwf : memWf m = true)
    (hx : x < a ∨ a + n ≤ x) : memGet m' x = memGet m x := by
  obtain ⟨bs, hle, rfl⟩ := h
  exact memGet_memPutAll_outside hwf a bs (by omega)

theorem StoredAt.memWf {a n : Nat} {m m' : List Host.Cell} (h : StoredAt a n m m') (hwf : memWf m = true) :
    memWf m' = true := by
  obtain ⟨bs, -, rfl⟩ := h
  exact memWf_memPutAll bs a hwf

end Sys2Proof.Machine
end

