-- ==== Sys2Proof/Proofs/BlindProcedures.lean ====
section
/-! SUPPORT. Callbacks and request rules are blind to the data stage (41_request_dispatcher.md R171 to R186, 43_public_api.md R264
to R266): they neither read nor write the control state, the two counters and the data buffer. -/

namespace Sys2Proof.Machine

/-! ## The data stage -/

/-- What `sameButStale` reads: the control state, the two counters and the data buffer. -/
structure DataStage where
  controlState : ControlState
  transferredCount : Word
  totalLen : Word
  dataBuffer : List Host.Cell

/-- The data stage of a state. -/
def State.dataStage (s : State) : DataStage where
  controlState := s.controlState
  transferredCount := s.transferredCount
  totalLen := s.totalLen
  dataBuffer := s.dataBuffer

/-- The state with another data stage. -/
def DataStage.on (x : DataStage) (s : State) : State :=
  { s with
    controlState := x.controlState
    transferredCount := x.transferredCount
    totalLen := x.totalLen
    dataBuffer := x.dataBuffer }

/-- The same behind an answer. -/
def DataStage.onAnswer {β : Type} (x : DataStage) (r : β × State) : β × State := (r.1, x.on r.2)

@[simp] theorem DataStage.on_dataStage (s : State) : s.dataStage.on s = s := rfl
@[simp] theorem DataStage.dataStage_on (x : DataStage) (s : State) : (x.on s).dataStage = x := rfl

/-! ## Blind procedures -/

/-- The end of a procedure with another data stage; `put` says where its result holds one. -/
def Flow.withDataStage {α : Type} (put : DataStage → α → α) (x : DataStage) : Flow α → Flow α
  | .ok a => .ok (put x a)
  | .raised e s => .raised e (x.on s)
  | .refused r s => .refused r (x.on s)

/-- `f` neither reads nor writes the data stage. -/
def Blind {α : Type} (put : DataStage → α → α) (f : State → Flow α) : Prop :=
  ∀ (x : DataStage) (s : State), f (x.on s) = (f s).withDataStage put x

theorem Blind.bind {α β : Type} {put : DataStage → α → α} {put' : DataStage → β → β} {f : State → Flow α} {g : α → Flow β}
    (hf : Blind put f) (hg : ∀ x a, g (put x a) = (g a).withDataStage put' x) : Blind put' fun s => (f s).bind g := by
  intro x s
  dsimp only
  rw [hf x s]
  cases f s with
  | ok a => exact hg x a
  | raised e t => rfl
  | refused r t => rfl

theorem DataStage.dataStage_of_eq_on {x : DataStage} {s : State} (h : s = x.on s) : s.dataStage = x := congrArg State.dataStage h

/-- A blind procedure keeps the data stage, however it ends. -/
theorem Blind.kept {α : Type} {put : DataStage → α → α} {f : State → Flow α} (hf : Blind put f) (s : State) :
    (∃ a, f s = .ok a ∧ a = put s.dataStage a) ∨ (∃ e t, f s = .raised e t ∧ t.dataStage = s.dataStage) ∨
      ∃ r t, f s = .refused r t ∧ t.dataStage = s.dataStage := by
  have h := hf s.dataStage s
  rw [DataStage.on_dataStage] at h
  cases hs : f s with
  | ok a =>
    rw [hs] at h
    exact .inl ⟨a, rfl, Flow.ok.inj h⟩
  | raised e t =>
    rw [hs] at h
    exact .inr (.inl ⟨e, t, rfl, DataStage.dataStage_of_eq_on (Flow.raised.inj h).2⟩)
  | refused r t =>
    rw [hs] at h
    exact .inr (.inr ⟨r, t, rfl, DataStage.dataStage_of_eq_on (Flow.refused.inj h).2⟩)

/-! ## Callbacks -/

theorem drawAnswer_on (x : DataStage) (s : State) : drawAnswer (x.on s) = x.onAnswer (drawAnswer s) := by
  unfold drawAnswer
  cases h : s.env.answers <;> simp [DataStage.on, DataStage.onAnswer, h]

theorem drawWritten_on (x : DataStage) (s : State) : drawWritten (x.on s) = x.onAnswer (drawWritten s) := by
  unfold drawWritten
  cases h : s.env.writeResults <;> simp [DataStage.on, DataStage.onAnswer, h]

theorem drawRead_on (x : DataStage) (s : State) : drawRead (x.on s) = x.onAnswer (drawRead s) := by
  unfold drawRead
  cases h : s.env.readResults <;> simp [DataStage.on, DataStage.onAnswer, h]

theorem drawInfo_on (x : DataStage) (s : State) : drawInfo (x.on s) = x.onAnswer (drawInfo s) := by
  unfold drawInfo
  cases h : s.env.infoResults <;> simp [DataStage.on, DataStage.onAnswer, h]

theorem nestedBody_blind (i : Instr) : Blind DataStage.on (nestedBody i) := by
  intro x s
  cases i
  case epWrite ep bytes =>
    simp only [nestedBody, bodyEpWrite, drawWritten_on]
    rfl
  case epRead ep =>
    simp only [nestedBody, bodyEpRead, drawRead_on]
    rfl
  case getInfo =>
    simp only [nestedBody, bodyGetInfo, drawInfo_on]
    rfl
  case regEvent e h => cases e <;> rfl
  all_goals rfl

theorem runCall_blind (c : Input) : Blind DataStage.on (runCall c) := by
  intro x s
  have he : earlyRefusal c.word (x.on s) = earlyRefusal c.word s := rfl
  have hl : (x.on s).limits = s.limits := rfl
  have ha : ∀ i, admission i (x.on s) = admission i s := fun _ => rfl
  simp only [runCall, he, hl, ha]
  split
  · rfl
  · split
    · rfl
    · split
      · rfl
      · exact nestedBody_blind _ x s

theorem runCalls_blind : ∀ cs : List Input, Blind DataStage.on (runCalls cs)
  | [] => fun _ _ => rfl
  | c :: cs => (runCall_blind c).bind (runCalls_blind cs)

theorem ask_blind (c : Call) : Blind DataStage.onAnswer (ask c) := by
  intro x s
  have hd : drawAnswer ((x.on s).emit (.call c)) = x.onAnswer (drawAnswer (s.emit (.call c))) :=
    drawAnswer_on x (s.emit (.call c))
  simp only [ask, hd]
  exact (runCalls_blind (drawAnswer (s.emit (.call c))).1.calls).bind (fun _ _ => rfl) x
    ((drawAnswer (s.emit (.call c))).2.setCtx .inCallback)

theorem notify_blind (c : Call) : Blind DataStage.on (notify c) := (ask_blind c).bind fun _ _ => rfl

theorem notifyEvent_blind (e : DeviceEvent) : Blind DataStage.on (notifyEvent e) := by
  intro x s
  have hcb : (x.on s).evtCb e = s.evtCb e := by cases e <;> rfl
  simp only [notifyEvent, hcb]
  split
  · rfl
  · exact notify_blind _ x s

theorem notifyEndpoint_blind (kind : Transfer) (ep : EpAddr) : Blind DataStage.on (notifyEndpoint kind ep) := by
  intro x s
  have hcb : (x.on s).epCb ep.num = s.epCb ep.num := rfl
  simp only [notifyEndpoint, hcb]
  split
  · rfl
  · exact notify_blind _ x s

/-! ## The end of a status stage -/

theorem addressedState_on (x : DataStage) (s : State) : addressedState (x.on s) = x.on (addressedState s) := by
  unfold addressedState
  cases h : s.pendingAddress <;> simp [DataStage.on, h]

theorem completeTransfer_blind : Blind DataStage.on completeTransfer := by
  intro x s
  have hc : (x.on (addressedState s)).completion = (addressedState s).completion := rfl
  simp only [completeTransfer, applyAddress_eq, addressedState_on, hc]
  split
  · rfl
  · next tok _ => exact notify_blind (.complete tok (addressedState s).setup) x { addressedState s with completion := none }

/-! ## Request rules -/

theorem askSlot_blind (slot : State → Option HandlerId) (hslot : ∀ (x : DataStage) s, slot (x.on s) = slot s)
    (mk : HandlerId → Call) : Blind DataStage.onAnswer fun s => askSlot (slot s) mk s := by
  intro x s
  dsimp only
  rw [hslot]
  cases slot s with
  | none => rfl
  | some h => exact (ask_blind (mk h)).bind (fun _ _ => rfl) x s

theorem statusBytes_on (req : ControlRequest) (x : DataStage) (s : State) : statusBytes req (x.on s) = statusBytes req s := rfl

theorem featureEndpoint_on (req : ControlRequest) (x : DataStage) (s : State) :
    featureEndpoint req (x.on s) = featureEndpoint req s := rfl

section
variable (req : ControlRequest) (bs : List Byte)

theorem ruleGetStatus_blind : Blind DataStage.onAnswer (ruleGetStatus req bs) := by
  intro x s
  simp only [ruleGetStatus, statusBytes_on]
  split <;> rfl

theorem ruleClearFeature_blind : Blind DataStage.onAnswer (ruleClearFeature req bs) := by
  intro x s
  simp only [ruleClearFeature, featureEndpoint_on]
  split <;> rfl

theorem ruleSetFeature_blind : Blind DataStage.onAnswer (ruleSetFeature req bs) := by
  intro x s
  simp only [ruleSetFeature, featureEndpoint_on]
  split <;> rfl

theorem ruleSetAddress_blind : Blind DataStage.onAnswer (ruleSetAddress req bs) := by
  intro x s
  have hd : (x.on s).deviceState = s.deviceState := rfl
  simp only [ruleSetAddress, hd]
  split
  · rfl
  · split <;> rfl

theorem ruleSetConfiguration_blind : Blind DataStage.onAnswer (ruleSetConfiguration req bs) := by
  intro x s
  have hd : (x.on s).deviceState = s.deviceState := rfl
  have hcb : (x.on s).configCb = s.configCb := rfl
  simp only [ruleSetConfiguration, hd, hcb]
  split
  · rfl
  · split
    · rfl
    · split
      · rfl
      · next h _ =>
        refine (ask_blind (.config h (lowByte req.value))).bind (fun y r => ?_) x s
        dsimp only [DataStage.onAnswer]
        split <;> rfl

theorem ruleSetInterface_blind : Blind DataStage.onAnswer (ruleSetInterface req bs) := by
  intro x s
  simp only [ruleSetInterface]
  split <;> rfl

/-- Every rule, by its row (R170). -/
theorem ruleOf_blind (i : Instr) : Blind DataStage.onAnswer (ruleOf i req bs) := by
  cases i
  case getStatus => exact ruleGetStatus_blind req bs
  case clearFeature => exact ruleClearFeature_blind req bs
  case setFeature => exact ruleSetFeature_blind req bs
  case setAddress => exact ruleSetAddress_blind req bs
  case setConfiguration => exact ruleSetConfiguration_blind req bs
  case setInterface => exact ruleSetInterface_blind req bs
  case getDescriptor | setDescriptor => exact askSlot_blind State.descriptorCb (fun _ _ => rfl) _
  case classRequest | vendorRequest => exact askSlot_blind State.controlCb (fun _ _ => rfl) _
  all_goals exact fun _ _ => rfl

end

end Sys2Proof.Machine
end

