-- ==== Sys2Proof/Proofs/BufferFrame.lean ====
section
/-! SUPPORT. What a procedure leaves of the data buffer (20_memory.md R62): the canonical form, and the bytes it cannot change
(40_control_engine.md R121 to R132), with the two statements about it. -/

namespace Sys2Proof.Machine

/-! ## The buffer a procedure leaves -/

/-- `P` holds of the data buffer, however the procedure ends. -/
def Flow.Leaves (P : List Host.Cell → Prop) : Flow State → Prop
  | .ok s | .raised _ s | .refused _ s => P s.dataBuffer

@[simp] theorem Flow.leaves_ok {P : List Host.Cell → Prop} {s : State} : (Flow.ok s).Leaves P ↔ P s.dataBuffer := .rfl
@[simp] theorem Flow.leaves_raised {P : List Host.Cell → Prop} {e : ErrCode} {s : State} :
    (Flow.raised e s).Leaves P ↔ P s.dataBuffer := .rfl
@[simp] theorem Flow.leaves_refused {P : List Host.Cell → Prop} {r : RefuseReason} {s : State} :
    (Flow.refused r s).Leaves P ↔ P s.dataBuffer := .rfl

section
variable {P Q : List Host.Cell → Prop} {x : Flow State} (hx : x.Leaves P)
include hx

theorem Flow.Leaves.mono (h : ∀ m, P m → Q m) : x.Leaves Q := by
  cases x <;> exact h _ hx

theorem Flow.Leaves.bind {f : State → Flow State} (hf : ∀ s, P s.dataBuffer → (f s).Leaves P) : (x.bind f).Leaves P := by
  cases x with
  | ok s => exact hf s hx
  | raised e s => exact hx
  | refused r s => exact hx

theorem Flow.Leaves.caught : (caught x).Leaves P := by
  cases x with
  | ok s => exact hx
  | raised e s => simpa using hx
  | refused r s => exact hx

theorem Flow.Leaves.finish {t : State} (h : finish x = .next t) : P t.dataBuffer := by
  rcases finish_eq_next h with rfl | ⟨e, u, rfl, rfl⟩ | ⟨r, u, rfl, rfl⟩
  · exact hx
  · simpa using hx
  · exact hx

end

/-- A blind procedure leaves the buffer it found. -/
theorem Blind.leaves {f : State → Flow State} (hf : Blind DataStage.on f) (s : State) : (f s).Leaves (· = s.dataBuffer) := by
  rcases hf.kept s with ⟨t, e, ht⟩ | ⟨_, t, e, ht⟩ | ⟨_, t, e, ht⟩ <;> rw [e]
  · exact congrArg DataStage.dataBuffer (DataStage.dataStage_of_eq_on ht)
  · exact congrArg DataStage.dataBuffer ht
  · exact congrArg DataStage.dataBuffer ht

/-! ## Outcomes and Dispatch -/

/-- An Outcome that carries no response (R171). -/
def ReqOutcome.NoData (o : ReqOutcome) : Prop := ∀ d c, o ≠ .ack (some d) c

/-- Only a response to an IN request is stored (R127). -/
theorem applyOutcome_leaves_same {req : ControlRequest} {o : ReqOutcome} (h : hasInData req = false ∨ o.NoData) (s : State) :
    (applyOutcome req o s).Leaves (· = s.dataBuffer) := by
  cases o with
  | fail e => exact rfl
  | nak => exact rfl
  | ack data c =>
    rw [applyOutcome_ack]
    split
    · next hin =>
      cases data with
      | none => exact rfl
      | some d => exact absurd rfl ((h.resolve_left (by simp [hin])) d c)
    · exact rfl

/-- A response is stored from offset 0 on, cut to the length asked for (R127). -/
theorem applyOutcome_leaves_stored (req : ControlRequest) (o : ReqOutcome) {s : State} (hwf : memWf s.dataBuffer = true) :
    (applyOutcome req o s).Leaves (StoredAt 0 req.length.toNat s.dataBuffer) := by
  cases o with
  | fail e => exact .refl ..
  | nak => exact .refl ..
  | ack data c =>
    rw [applyOutcome_ack]
    split
    · cases data with
      | none => exact .refl ..
      | some d =>
        by_cases hf : min d.length req.length.toNat ≤ s.maxDataSize.toNat
        · rw [ackIn_fits c hwf hf]
          exact ⟨d.take (min d.length req.length.toNat), by simp, rfl⟩
        · rw [ackIn, if_pos (Nat.lt_of_not_le hf)]
          exact .refl ..
    · exact .refl ..

/-- Dispatch changes the buffer only where the Outcome of the rule does: MemRead keeps it, and the rule is blind to it (R124). -/
theorem dispatchWith_leaves {P : List Host.Cell → Prop} {req : ControlRequest} {i : Instr} {s : State} (hP : P s.dataBuffer)
    (h : ∀ bs o t, ruleOf i req bs s = .ok (o, t) → t.dataBuffer = s.dataBuffer → (applyOutcome req o t).Leaves P) :
    (dispatchWith req (ruleOf i) s).Leaves P := by
  have hrule : ∀ bs, ((ruleOf i req bs s).bind fun r => applyOutcome req r.1 r.2).Leaves P := by
    intro bs
    rcases (ruleOf_blind req bs i).kept s with ⟨⟨o, t⟩, e, ht⟩ | ⟨_, t, e, ht⟩ | ⟨_, t, e, ht⟩ <;> rw [e]
    · exact h bs o t e (congrArg (fun r => r.2.dataBuffer) ht)
    · have hb : t.dataBuffer = s.dataBuffer := congrArg DataStage.dataBuffer ht
      rwa [Flow.bind_raised, Flow.leaves_raised, hb]
    · have hb : t.dataBuffer = s.dataBuffer := congrArg DataStage.dataBuffer ht
      rwa [Flow.bind_refused, Flow.leaves_refused, hb]
  unfold dispatchWith
  split
  · rcases bufRead_cases 0 req.length.toNat s with ⟨_, e⟩ | ⟨_, e⟩ <;> rw [e]
    · exact hrule _
    · exact hP
  · exact hrule _

theorem ReqOutcome.noData_fail (e : ErrCode) : (ReqOutcome.fail e).NoData := fun _ _ => nofun
theorem ReqOutcome.noData_nak : ReqOutcome.nak.NoData := fun _ _ => nofun
theorem ReqOutcome.noData_ackNone (c : Option Token) : (ReqOutcome.ack none c).NoData := fun _ _ => nofun

/-- A rule that, if it goes on, has no response to give. -/
def Flow.NoData (x : Flow (ReqOutcome × State)) : Prop := ∀ r, x = .ok r → r.1.NoData

theorem answered_noData {o : ReqOutcome} (h : o.NoData) (s : State) : (answered o s).NoData := by
  intro r hr
  cases hr
  exact h

/-- The rows that answer no data (R174, R177 to R179, R183, R185, R186). -/
theorem ruleOf_noData {i : Instr} (hi : answersNoData i = true) (req : ControlRequest) (bs : List Byte) (s : State) :
    (ruleOf i req bs s).NoData := by
  have hfail : ∀ e t, (answered (.fail e) t).NoData := fun e => answered_noData (ReqOutcome.noData_fail e)
  have hack : ∀ t, (answered (.ack none none) t).NoData := answered_noData (ReqOutcome.noData_ackNone none)
  cases i
  case clearFeature =>
    dsimp only [ruleOf, ruleClearFeature]
    split
    · exact hfail _ _
    · exact hack _
  case setFeature =>
    dsimp only [ruleOf, ruleSetFeature]
    split
    · exact hfail _ _
    · exact hack _
  case setAddress =>
    dsimp only [ruleOf, ruleSetAddress]
    split
    · exact hfail _ _
    · split
      · exact hfail _ _
      · exact hack _
  case setConfiguration =>
    dsimp only [ruleOf, ruleSetConfiguration]
    split
    · exact hfail _ _
    · split
      · exact hfail _ _
      · split
        · exact hfail _ _
        · intro r hr
          obtain ⟨a, -, hr⟩ := Flow.bind_eq_ok hr
          split at hr
          · exact hfail _ _ r hr
          · exact answered_noData ReqOutcome.noData_nak _ r hr
          · exact hack _ r hr
  case setInterface =>
    dsimp only [ruleOf, ruleSetInterface]
    split
    · exact hack _
    · exact hfail _ _
  case stdOther | reservedType => exact hfail _ _
  all_goals cases hi

theorem dispatchWith_leaves_same {req : ControlRequest} {i : Instr} (h : hasInData req = false ∨ answersNoData i = true)
    (s : State) : (dispatchWith req (ruleOf i) s).Leaves (· = s.dataBuffer) :=
  dispatchWith_leaves rfl fun _ _ t e ht => ht ▸ applyOutcome_leaves_same (h.imp_right fun hi => ruleOf_noData hi _ _ _ _ e) t

theorem dispatchWith_leaves_stored (req : ControlRequest) (i : Instr) {s : State} (hwf : memWf s.dataBuffer = true) :
    (dispatchWith req (ruleOf i) s).Leaves (StoredAt 0 req.length.toNat s.dataBuffer) :=
  dispatchWith_leaves (.refl ..) fun _ o _ _ ht => ht ▸ applyOutcome_leaves_stored req o (ht ▸ hwf)

/-! ## The EP0 events -/

theorem bodyEvtSetup_unparsed {p : List Byte} (hp : parseSetup p = none) (s : State) :
    bodyEvtSetup p s = .raised .pvSetupLength ((cancelTransfer s).emit (.readEndpoint ep0Out p)) := by
  simp only [bodyEvtSetup, parseInto, hp, Flow.bind_raised]

theorem bodyEvtSetup_parsed {p : List Byte} {r : ControlRequest} (hp : parseSetup p = some r) (s : State) :
    bodyEvtSetup p s = if hasOutData r = true then beginOut (setupState p r s) else dispatch (setupState p r s) := by
  simp only [bodyEvtSetup, parseInto, hp, Flow.bind_ok]
  rfl

/-- EVT_SETUP changes the buffer only where its request is dispatched (R121). -/
theorem bodyEvtSetup_leaves {P : List Host.Cell → Prop} {p : List Byte} {s : State} (hP : P s.dataBuffer)
    (h : ∀ t : State, parseSetup p = some t.setup → t.dataBuffer = s.dataBuffer → (dispatch t).Leaves P) :
    (bodyEvtSetup p s).Leaves P := by
  cases hp : parseSetup p with
  | none => exact bodyEvtSetup_unparsed hp s ▸ hP
  | some r =>
    rw [bodyEvtSetup_parsed hp]
    split
    · unfold beginOut
      split <;> exact hP
    · exact h _ hp rfl

/-- An OUT packet changes the buffer by its bytes, and where it completes a request that is dispatched (R132). -/
theorem rxInData_leaves {P : List Host.Cell → Prop} {p : List Byte} {s : State} (hP : P s.dataBuffer)
    (hstore : P (memPutAll s.dataBuffer s.dataCursor.toNat p))
    (h : ∀ t : State, t.setup = s.setup → t.dataBuffer = memPutAll s.dataBuffer s.dataCursor.toNat p → (dispatch t).Leaves P) :
    (rxInData p s).Leaves P := by
  unfold rxInData
  dsimp only
  split
  · exact hP
  · rcases bufWrite_cases s.dataCursor.toNat p s with ⟨_, e⟩ | ⟨_, e⟩ <;> rw [e]
    · rw [Flow.bind_ok]
      split
      · exact h _ rfl rfl
      · split <;> exact hstore
    · exact hP

/-- EVT_EP0_RX changes the buffer only in RxData with no Nak pending (R131). -/
theorem bodyEvtEp0Rx_leaves {P : List Host.Cell → Prop} {p : List Byte} {s : State} (hP : P s.dataBuffer)
    (h : s.controlState = .rxData → s.pending = .none → (rxInData p (s.emit (.readEndpoint ep0Out p))).Leaves P) :
    (bodyEvtEp0Rx p s).Leaves P := by
  unfold bodyEvtEp0Rx
  dsimp only
  split
  · exact hP
  · next hp =>
    split
    · next hc => exact h hc (Classical.not_not.1 hp)
    · unfold rxInStatus
      split
      · exact hP
      · exact (completeTransfer_blind.leaves _).mono fun _ e => e ▸ hP
    all_goals exact hP

theorem sendNext_leaves_same (s : State) : (sendNext s).Leaves (· = s.dataBuffer) := by
  rcases sendNext_cases s with ⟨_, e⟩ | ⟨_, e⟩ <;> rw [e] <;> exact rfl

theorem bodyEvtEp0Tx_leaves_same (s : State) : (bodyEvtEp0Tx s).Leaves (· = s.dataBuffer) := by
  unfold bodyEvtEp0Tx
  split
  · exact rfl
  · split
    case h_1 | h_2 => exact sendNext_leaves_same s
    case h_4 => exact completeTransfer_blind.leaves { s with controlState := .idle }
    all_goals exact rfl

/-! ## Instructions by format -/

section
variable {P : List Host.Cell → Prop} {i : Instr} {s t : State} (hP : P s.dataBuffer) (he : exec i s = .next t)
include hP he

theorem exec_event_leaves (hf : format i = .event) (h : (process i s).Leaves P) : P t.dataBuffer := by
  rw [exec_event hf, runEvent] at he
  split at he
  · cases he
  · split at he
    · cases he
      exact hP
    · exact h.finish he

omit hP in
theorem exec_event_leaves_same (hf : format i = .event) (h : (process i s).Leaves (· = s.dataBuffer)) :
    t.dataBuffer = s.dataBuffer :=
  exec_event_leaves (P := (· = s.dataBuffer)) rfl he hf h

theorem exec_command_leaves (hf : format i = .command) (h : (commandBody i s).Leaves P) : P t.dataBuffer := by
  rw [exec_command hf] at he
  rcases runCommand_cases i (commandBody i) s with ⟨_, e⟩ | ⟨_, r, _, e⟩ | ⟨_, _, e⟩ <;> rw [e] at he
  · cases he
  · cases he
    exact hP
  · exact h.finish he

omit hP in
theorem exec_request_leaves (hf : format i = .request)
    (h : (dispatchWith (withKey s.setup (encodeWord i)) (ruleOf i) s).Leaves P) : P t.dataBuffer := by
  rw [exec_request hf, runRequest] at he
  split at he
  · cases he
  · exact h.finish he

end

/-! ## The canonical form -/

/-- The canonical form of a buffer (log 6). -/
def Canonical (m : List Host.Cell) : Prop := memWf m = true

theorem dispatchWith_canonical (req : ControlRequest) (i : Instr) {s : State} (h : Canonical s.dataBuffer) :
    (dispatchWith req (ruleOf i) s).Leaves Canonical :=
  (dispatchWith_leaves_stored req i h).mono fun _ hm => hm.memWf h

theorem dispatch_canonical {s : State} (h : Canonical s.dataBuffer) : (dispatch s).Leaves Canonical :=
  dispatchWith_canonical _ _ h

theorem Blind.canonical {f : State → Flow State} (hf : Blind DataStage.on f) {s : State} (h : Canonical s.dataBuffer) :
    (f s).Leaves Canonical :=
  (hf.leaves s).mono fun _ e => e ▸ h

/-- Process, by its consumer (R212). -/
theorem process_canonical (i : Instr) {s : State} (h : Canonical s.dataBuffer) : (process i s).Leaves Canonical := by
  cases i
  case evtReset => exact (notifyEvent_blind .reset).canonical (s := busReset s) h
  case evtSuspend => exact (notifyEvent_blind .suspend).canonical h
  case evtResume => exact (notifyEvent_blind .resume).canonical h
  case evtEpnRx | evtEpnTx => exact (notifyEndpoint_blind _ _).canonical h
  case evtSetup p => exact bodyEvtSetup_leaves h fun t _ ht => dispatch_canonical (ht ▸ h)
  case evtEp0Rx p =>
    have hstore : Canonical (memPutAll s.dataBuffer s.dataCursor.toNat p) := memWf_memPutAll p _ h
    exact bodyEvtEp0Rx_leaves h fun _ _ => rxInData_leaves h hstore fun t _ ht => dispatch_canonical (ht ▸ hstore)
  case evtEp0Tx => exact (bodyEvtEp0Tx_leaves_same s).mono fun _ e => e ▸ h
  all_goals exact h

theorem takeEvent_canonical (e : EventInput) {s : State} (h : Canonical s.dataBuffer) : (takeEvent e s).Leaves Canonical := by
  unfold takeEvent
  split
  · exact h
  · exact (process_canonical _ h).caught

theorem takeEvents_canonical : ∀ (es : List EventInput) {s : State}, Canonical s.dataBuffer → (takeEvents es s).Leaves Canonical
  | [], _, h => h
  | e :: es, _, h => (takeEvent_canonical e h).bind fun _ => takeEvents_canonical es

theorem armPending_dataBuffer (s : State) : (armPending s).dataBuffer = s.dataBuffer := by
  unfold armPending
  split <;> rfl

theorem retry_canonical {s : State} (h : Canonical s.dataBuffer) : (retry s).Leaves Canonical := by
  refine Flow.Leaves.bind (P := Canonical) ?_ fun t ht => Flow.leaves_ok.2 ((armPending_dataBuffer t).symm ▸ ht)
  split
  · exact (dispatch_canonical h).caught
  · exact h

theorem bodyPoll_canonical (batch : List EventInput) {s : State} (h : Canonical s.dataBuffer) :
    (bodyPoll batch s).Leaves Canonical := by
  have hb := takeEvents_canonical (s.env.eventQueue ++ batch) (s := { s with env := { s.env with eventQueue := [] } }) h
  exact hb.bind fun _ h1 => (retry_canonical h1).bind fun _ h2 => Flow.leaves_ok.2 h2

/-- INIT empties the buffer (R240); every other command but POLL has a body that is blind to it. -/
theorem commandBody_canonical (i : Instr) {s : State} (h : Canonical s.dataBuffer) : (commandBody i s).Leaves Canonical := by
  rcases commandBody_cases i with ⟨cap, ep0, rfl⟩ | ⟨batch, rfl⟩ | hb
  · dsimp only [commandBody, bodyInit]
    split
    · exact rfl
    · exact h
  · exact bodyPoll_canonical batch h
  · rw [hb]
    exact (nestedBody_blind i).canonical h

theorem exec_canonical {i : Instr} {s t : State} (h : Canonical s.dataBuffer) (he : exec i s = .next t) :
    Canonical t.dataBuffer := by
  cases hf : format i with
  | event => exact exec_event_leaves h he hf (process_canonical i h)
  | command => exact exec_command_leaves h he hf (commandBody_canonical i h)
  | request => exact exec_request_leaves he hf (dispatchWith_canonical _ i h)

/-- Settles O12: a step waits, refuses where it stands or runs one command, and every store keeps the canonical form. -/
theorem bufferStaysCanonical : Obligations.BufferStaysCanonical := by
  unfold Obligations.BufferStaysCanonical
  refine fun s t h => ⟨fun hs => ?_, fun i he => exec_canonical h he⟩
  obtain ⟨-, ⟨-, rfl⟩ | ⟨inp, rest, -, rfl | ⟨r, rfl⟩ | ⟨i, -, he⟩⟩⟩ := step_cases hs
  · exact h
  · exact h
  · exact h
  · exact exec_canonical (s := s.withInputs rest) h he

/-! ## The bytes an instruction can change -/

theorem hasInData_of_hasOutData {r : ControlRequest} (h : hasOutData r = true) : hasInData r = false := by
  simp only [hasOutData, hasInData, Bool.and_eq_true, Bool.not_eq_true'] at h ⊢
  simp [h.1]

/-- In RxData a packet stores its bytes at the cursor, and the request it completes has no response (R132, R45). -/
theorem exec_evtEp0Rx_stored {p : List Byte} {s t : State} (hs : blockInv s) (he : exec (.evtEp0Rx p) s = .next t) :
    StoredAt s.dataCursor.toNat p.length s.dataBuffer t.dataBuffer := by
  obtain ⟨-, hrx, -⟩ := hs
  refine exec_event_leaves (.refl ..) he rfl (bodyEvtEp0Rx_leaves (.refl ..) fun hc _ => ?_)
  have hin : hasInData s.setup = false := hasInData_of_hasOutData (hrx hc).1
  have hstore : StoredAt s.dataCursor.toNat p.length s.dataBuffer (memPutAll s.dataBuffer s.dataCursor.toNat p) :=
    ⟨p, le_rfl, rfl⟩
  refine rxInData_leaves (.refl ..) hstore fun t ht hb => ?_
  exact (dispatchWith_leaves_same (.inl (ht ▸ hin)) t).mono fun _ e => e ▸ hb ▸ hstore

/-- What EVT_SETUP stores is the response to the request it brings (R121, R127). -/
theorem exec_evtSetup_stored {p : List Byte} {r : ControlRequest} {s t : State} (hr : parseSetup p = some r)
    (hwf : memWf s.dataBuffer = true) (he : exec (.evtSetup p) s = .next t) :
    StoredAt 0 r.length.toNat s.dataBuffer t.dataBuffer := by
  refine exec_event_leaves (.refl ..) he rfl (bodyEvtSetup_leaves (.refl ..) fun u hu hb => ?_)
  obtain rfl : u.setup = r := Option.some.inj (hu.symm.trans hr)
  exact hb ▸ dispatchWith_leaves_stored u.setup _ (hb ▸ hwf)

/-- Settles O13: each form by what its procedure leaves of the buffer. -/
theorem bufferFrame : Obligations.BufferFrame := by
  unfold Obligations.BufferFrame
  refine ⟨fun i s t he h a => ?_, fun p s t hs he a => (exec_evtEp0Rx_stored hs he).memGet_outside hs.1.1,
    fun i s t hf hwf he a ha => ?_, fun p r s t hr hwf he a ha => ?_⟩
  · refine congrArg (memGet · a) (?_ : t.dataBuffer = s.dataBuffer)
    obtain ⟨hf, hi, hp⟩ | rfl | rfl | rfl | rfl | ⟨n, rfl⟩ | ⟨n, rfl⟩ | ⟨⟨p, rfl⟩, hq⟩ | ⟨hf, hq⟩ | ⟨p, rfl, hq⟩ := h
    · exact (commandsKeepEngine i s t hf hi hp he).dataBuffer
    · exact exec_event_leaves_same he rfl ((notifyEvent_blind .reset).leaves (busReset s))
    · exact exec_event_leaves_same he rfl ((notifyEvent_blind .suspend).leaves s)
    · exact exec_event_leaves_same he rfl ((notifyEvent_blind .resume).leaves s)
    · exact exec_event_leaves_same he rfl (bodyEvtEp0Tx_leaves_same s)
    · exact exec_event_leaves_same he rfl ((notifyEndpoint_blind _ _).leaves s)
    · exact exec_event_leaves_same he rfl ((notifyEndpoint_blind _ _).leaves s)
    · exact exec_event_leaves_same he rfl
        (bodyEvtEp0Rx_leaves rfl fun hc hp => absurd hq (by simp [hc, hp]))
    · exact exec_request_leaves (P := (· = s.dataBuffer)) he hf (dispatchWith_leaves_same hq s)
    · exact exec_event_leaves_same he rfl
        (bodyEvtSetup_leaves rfl fun u hu hb => hb ▸ dispatchWith_leaves_same (.inl (hq _ hu)) u)
  · exact (exec_request_leaves he hf (dispatchWith_leaves_stored _ i hwf)).memGet_outside hwf
      (.inr ((Nat.zero_add _).trans_le ha))
  · exact (exec_evtSetup_stored hr hwf he).memGet_outside hwf (.inr ((Nat.zero_add _).trans_le ha))

end Sys2Proof.Machine
end

