-- ==== Sys2Proof/Proofs/AlikeProcedures.lean ====
section
/-! SUPPORT. States that differ only in bytes of the data buffer that the transfer in flight has not written (20_memory.md R63),
and procedures that end alike in two such states: the blind ones do. -/

namespace Sys2Proof.Machine

/-! ## States that differ in stale bytes -/

/-- The state with another data buffer. -/
def State.withBuffer (s : State) (m : List Host.Cell) : State := { s with dataBuffer := m }

@[simp] theorem withBuffer_setup (s : State) (m : List Host.Cell) : (s.withBuffer m).setup = s.setup := rfl
@[simp] theorem withBuffer_dataCursor (s : State) (m : List Host.Cell) : (s.withBuffer m).dataCursor = s.dataCursor := rfl
@[simp] theorem withBuffer_limits (s : State) (m : List Host.Cell) : (s.withBuffer m).limits = s.limits := rfl
@[simp] theorem withBuffer_dataBuffer (s : State) (m : List Host.Cell) : (s.withBuffer m).dataBuffer = m := rfl

/-- The buffer `m` has the bytes that the transfer in flight has written (R63). -/
def DataStage.Agrees (x : DataStage) (m : List Host.Cell) : Prop :=
  (x.controlState = .rxData → ∀ a, a < x.transferredCount.toNat → memGet m a = memGet x.dataBuffer a) ∧
    (inDataStage x.controlState → ∀ a, a < x.totalLen.toNat → memGet m a = memGet x.dataBuffer a)

theorem sameButStale_refl (s : State) : sameButStale s s := ⟨rfl, fun _ _ _ => rfl, fun _ _ _ => rfl⟩

theorem DataStage.Agrees.sameButStale {s : State} {m : List Host.Cell} (h : s.dataStage.Agrees m) :
    sameButStale s (s.withBuffer m) :=
  ⟨rfl, h.1, h.2⟩

theorem exists_withBuffer_of_sameButStale {s s' : State} (h : sameButStale s s') :
    ∃ m, s' = s.withBuffer m ∧ s.dataStage.Agrees m :=
  ⟨s'.dataBuffer, h.1, h.2⟩

/-- Outside the data stages every byte is stale. -/
theorem DataStage.Agrees.of_noDataStage {x : DataStage}
    (hc : x.controlState = .idle ∨ x.controlState = .statusIn ∨ x.controlState = .statusOut) (m : List Host.Cell) :
    x.Agrees m := by
  rcases hc with hc | hc | hc <;> constructor <;> simp [hc]

theorem sameButStale_recover (e : ErrCode) {s s' : State} (h : sameButStale s s') : sameButStale (recover e s) (recover e s') := by
  obtain ⟨m, rfl, -⟩ := exists_withBuffer_of_sameButStale h
  exact (DataStage.Agrees.of_noDataStage (x := (recover e s).dataStage) (.inl rfl) m).sameButStale

/-! ## Procedures that end alike -/

/-- Two procedures end the same way, in results that `Q` relates or in states that differ only in stale bytes. -/
inductive Flow.Alike {α : Type} (Q : α → α → Prop) : Flow α → Flow α → Prop where
  | ok {a b : α} (h : Q a b) : Alike Q (.ok a) (.ok b)
  | raised (e : ErrCode) {s t : State} (h : sameButStale s t) : Alike Q (.raised e s) (.raised e t)
  | refused (r : RefuseReason) {s t : State} (h : sameButStale s t) : Alike Q (.refused r s) (.refused r t)

section
variable {α β : Type} {Q : α → α → Prop} {R : β → β → Prop} {x y : Flow α} (h : x.Alike Q y)
include h

theorem Flow.Alike.bind {f g : α → Flow β} (hf : ∀ a b, Q a b → (f a).Alike R (g b)) : (x.bind f).Alike R (y.bind g) := by
  cases h with
  | ok h => exact hf _ _ h
  | raised e h => exact .raised e h
  | refused r h => exact .refused r h

/-- What both procedures are known to keep may be used of both results. -/
theorem Flow.Alike.and_safe {P P' : α → Prop} (hx : x.Safe P) (hy : y.Safe P') :
    x.Alike (fun a b => P a ∧ P' b ∧ Q a b) y := by
  cases h with
  | ok h => exact .ok ⟨hx, hy, h⟩
  | raised e h => exact .raised e h
  | refused r h => exact .refused r h

end

section
variable {x y : Flow State} (h : x.Alike sameButStale y)
include h

theorem Flow.Alike.caught : (caught x).Alike sameButStale (caught y) := by
  cases h with
  | ok h => exact .ok h
  | raised e h => exact .ok (sameButStale_recover e h)
  | refused r h => exact .refused r h

theorem Flow.Alike.finish {t : State} (ht : finish x = .next t) : ∃ t', finish y = .next t' ∧ sameButStale t t' := by
  cases h with
  | ok h =>
    cases ht
    exact ⟨_, rfl, h⟩
  | raised e h =>
    cases ht
    exact ⟨_, rfl, sameButStale_recover e h⟩
  | refused r h =>
    cases ht
    obtain ⟨m, rfl, hm⟩ := exists_withBuffer_of_sameButStale h
    exact ⟨_, rfl, DataStage.Agrees.sameButStale hm⟩

end

/-! ## Blind procedures -/

/-- The same answer, and states that differ only in stale bytes. -/
def SameAnswer {β : Type} (r r' : β × State) : Prop := r.1 = r'.1 ∧ sameButStale r.2 r'.2

section
variable {s : State} {m : List Host.Cell} (h : s.dataStage.Agrees m)
include h

theorem sameButStale_of_dataStage_eq {t : State} (ht : t.dataStage = s.dataStage) :
    sameButStale t (DataStage.on { s.dataStage with dataBuffer := m } t) := by
  rw [← ht] at h ⊢
  exact h.sameButStale

/-- A blind procedure does not see stale bytes, and keeps the others. -/
theorem Blind.alike_of {α : Type} {put : DataStage → α → α} {f : State → Flow α} {Q : α → α → Prop} (hf : Blind put f)
    (hQ : ∀ a, a = put s.dataStage a → Q a (put { s.dataStage with dataBuffer := m } a)) :
    (f s).Alike Q (f (s.withBuffer m)) := by
  have hm : f (s.withBuffer m) = (f s).withDataStage put { s.dataStage with dataBuffer := m } :=
    hf { s.dataStage with dataBuffer := m } s
  rw [hm]
  rcases hf.kept s with ⟨a, e, ha⟩ | ⟨c, t, e, ht⟩ | ⟨r, t, e, ht⟩ <;> rw [e]
  · exact .ok (hQ a ha)
  · exact .raised c (sameButStale_of_dataStage_eq h ht)
  · exact .refused r (sameButStale_of_dataStage_eq h ht)

theorem Blind.alike {f : State → Flow State} (hf : Blind DataStage.on f) :
    (f s).Alike sameButStale (f (s.withBuffer m)) :=
  hf.alike_of h fun _ ht => sameButStale_of_dataStage_eq h (DataStage.dataStage_of_eq_on ht)

theorem Blind.alike_answer {β : Type} {f : State → Flow (β × State)} (hf : Blind DataStage.onAnswer f) :
    (f s).Alike SameAnswer (f (s.withBuffer m)) :=
  hf.alike_of h fun _ hr => ⟨rfl, sameButStale_of_dataStage_eq h (DataStage.dataStage_of_eq_on (congrArg Prod.snd hr))⟩

end

end Sys2Proof.Machine
end

