-- ==== Sys2Proof/Proofs/StaleBytes.lean ====
section
/-! SUPPORT. Bytes of the data buffer that the transfer in flight has not written never matter (20_memory.md R63): every event,
the poll cycle and the step end alike in two states that differ only in them, and the statement that says so. -/

namespace Sys2Proof.Machine

/-! ## Dispatch -/

/-- A store makes its bytes the same; the others stay the same where they were. -/
theorem memGet_memPutAll_congr {m m' : List Host.Cell} (hm : memWf m = true) (hm' : memWf m' = true) {k a : Nat} {bs : List Byte}
    (h : a < k ∨ k + bs.length ≤ a → memGet m' a = memGet m a) :
    memGet (memPutAll m' k bs) a = memGet (memPutAll m k bs) a := by
  rw [memGet_memPutAll bs k a hm, memGet_memPutAll bs k a hm']
  split
  · rfl
  · exact h (by omega)

/-- The whole response has just been stored (R127). -/
theorem responseState_sameButStale {req : ControlRequest} {d : List Byte} (c : Option Token) {s : State} {m : List Host.Cell}
    (hm : memWf s.dataBuffer = true) (hm' : memWf m = true) :
    sameButStale (responseState req.length.toNat d c s) (responseState req.length.toNat d c (s.withBuffer m)) := by
  have hlen : req.length.toNat < 65536 := req.length.isLt
  have ht : (u32 (min d.length req.length.toNat)).toNat = min d.length req.length.toNat := u32_toNat (by omega)
  have hin : inDataStage (responseState req.length.toNat d c s).controlState := responseState_inDataStage _ d c s
  refine DataStage.Agrees.sameButStale (m := memPutAll m 0 (d.take (min d.length req.length.toNat)))
    ⟨fun hc => ?_, fun _ a ha => ?_⟩
  · simp [inDataStage, show (responseState req.length.toNat d c s).controlState = .rxData from hc] at hin
  · have ha : a < min d.length req.length.toNat := ht ▸ ha
    exact memGet_memPutAll_congr hm hm' fun hout => by
      rw [List.length_take] at hout
      omega

theorem applyOutcome_alike (req : ControlRequest) (o : ReqOutcome) {s s' : State} (h : sameButStale s s')
    (hm : memWf s.dataBuffer = true) (hm' : memWf s'.dataBuffer = true) :
    (applyOutcome req o s).Alike sameButStale (applyOutcome req o s') := by
  obtain ⟨m, rfl, hag⟩ := exists_withBuffer_of_sameButStale h
  cases o with
  | fail e => exact .raised e h
  | nak => exact .ok (DataStage.Agrees.sameButStale (s := { s with pending := .fresh }) hag)
  | ack data c =>
    rw [applyOutcome_ack, applyOutcome_ack]
    split
    · cases data with
      | none => exact .raised _ h
      | some d =>
        by_cases hf : min d.length req.length.toNat ≤ s.maxDataSize.toNat
        · rw [ackIn_fits c hm hf, ackIn_fits (s := s.withBuffer m) c hm' hf]
          exact .ok (responseState_sameButStale c hm hm')
        · have hover : s.maxDataSize.toNat < min d.length req.length.toNat := Nat.lt_of_not_le hf
          have e : ackIn req (some d) c s = .raised .pvInOverflow s := if_pos hover
          have e' : ackIn req (some d) c (s.withBuffer m) = .raised .pvInOverflow (s.withBuffer m) := if_pos hover
          rw [e, e']
          exact .raised _ h
    · exact .ok (DataStage.Agrees.of_noDataStage (x := (statusState c s).dataStage) (.inr (.inl rfl)) m).sameButStale

/-- The OUT data of a request that is dispatched have all been received (R124, R132). -/
theorem outDataOf_withBuffer {s : State} {m : List Host.Cell} (hs : Dispatchable s) (h : s.dataStage.Agrees m) :
    outDataOf s.setup (s.withBuffer m) = outDataOf s.setup s := by
  unfold outDataOf
  obtain ⟨-, ho⟩ | ⟨hc, ho, -, htotal, hct, -⟩ := hs.stage
  · simp [ho]
  · rw [if_pos ho, if_pos ho]
    exact memGetAll_congr fun a _ ha => h.1 hc a (by
      have hall : s.dataStage.transferredCount.toNat = s.setup.length.toNat :=
        (congrArg BitVec.toNat hct).trans htotal
      omega)

theorem dispatch_alike {s : State} {m : List Host.Cell} (hs : Dispatchable s) (hs' : Dispatchable (s.withBuffer m))
    (h : s.dataStage.Agrees m) : (dispatch s).Alike sameButStale (dispatch (s.withBuffer m)) := by
  have hrule := (ruleOf_blind s.setup (outDataOf s.setup s) (decodeKey (requestKey s.setup))).alike_answer h
  rw [dispatch, dispatch, dispatchWith_fits _ hs.outDataFits, dispatchWith_fits _ hs'.outDataFits,
    withBuffer_setup, outDataOf_withBuffer hs h]
  refine (hrule.and_safe (ruleOf_safe hs _ _ _) (ruleOf_safe hs' _ _ _)).bind ?_
  rintro ⟨o, t⟩ ⟨o', t'⟩ ⟨ht, ht', ho, hst⟩
  obtain rfl : o = o' := ho
  exact applyOutcome_alike s.setup o hst ht.baseInv.buffer.1 ht'.baseInv.buffer.1

/-! ## The events -/

/-- After an OUT packet has been stored (R132). -/
def State.stored (p : List Byte) (s : State) : State :=
  { s with
    dataBuffer := memPutAll s.dataBuffer s.dataCursor.toNat p
    dataCursor := u32 (s.dataCursor.toNat + p.length)
    transferredCount := u32 (s.transferredCount.toNat + p.length) }

/-- A packet that fits the total is stored; the last one completes the request (R132). -/
theorem rxInData_fits {p : List Byte} {s : State} (ht : s.transferredCount.toNat + p.length ≤ s.totalLen.toNat)
    (hcap : s.dataCursor.toNat + p.length ≤ s.maxDataSize.toNat) :
    rxInData p s =
      if s.transferredCount.toNat + p.length = s.totalLen.toNat then dispatch (s.stored p)
      else if p.length < s.ep0PacketSize.toNat then .raised .pvOutShort (s.stored p)
      else .ok (s.stored p) := by
  have hno : ¬ s.totalLen.toNat < s.transferredCount.toNat + p.length := by omega
  simp only [rxInData, hno, if_false, bufWrite, if_pos hcap, Flow.bind_ok]
  rfl

/-- The request that the last packet completes can be dispatched (R132). -/
theorem LiveInv.stored_dispatchable {p : List Byte} {s : State} (hs : LiveInv s) (hc : s.controlState = .rxData)
    (hdone : s.transferredCount.toNat + p.length = s.totalLen.toNat) : Dispatchable (s.stored p) := by
  obtain ⟨ho, hcap, hlen, -⟩ := hs.rx hc
  obtain ⟨-, hcur⟩ := hs.count (.inl hc)
  have hfit : s.dataCursor.toNat + p.length ≤ s.maxDataSize.toNat := by
    rw [hcur]
    omega
  have hsum : (u32 (s.transferredCount.toNat + p.length)).toNat = s.totalLen.toNat :=
    (u32_toNat (by have := s.totalLen.isLt; omega)).trans hdone
  have hcur' : u32 (s.dataCursor.toNat + p.length) = u32 (s.transferredCount.toNat + p.length) := by rw [hcur]
  exact ⟨{ hs.toBaseInv.memPutAll hfit with }, hs.noAddress (by simp [hc]),
    .inr ⟨hc, ho, hcap, hlen, BitVec.eq_of_toNat_eq hsum, hcur'⟩⟩

/-- A status stage that completes: nothing is in flight any more (R133, R138, R140). -/
theorem completeTransfer_idle_alike (s : State) (m : List Host.Cell) :
    (completeTransfer { s with controlState := .idle }).Alike sameButStale
      (completeTransfer { s.withBuffer m with controlState := .idle }) :=
  completeTransfer_blind.alike (s := { s with controlState := .idle }) (.of_noDataStage (.inl rfl) m)

theorem rxInStatus_alike (p : List Byte) {s : State} {m : List Host.Cell} (h : s.dataStage.Agrees m) :
    (rxInStatus p s).Alike sameButStale (rxInStatus p (s.withBuffer m)) := by
  unfold rxInStatus
  split
  · exact .raised _ h.sameButStale
  · exact completeTransfer_idle_alike s m

section
variable {p : List Byte} {s : State}

theorem bodyEvtEp0Rx_rxData (hp : s.pending = .none) (hc : s.controlState = .rxData) :
    bodyEvtEp0Rx p s = rxInData p (s.emit (.readEndpoint ep0Out p)) := by
  simp [bodyEvtEp0Rx, hp, hc]

theorem bodyEvtEp0Rx_statusOut (hp : s.pending = .none) (hc : s.controlState = .statusOut) :
    bodyEvtEp0Rx p s = rxInStatus p (s.emit (.readEndpoint ep0Out p)) := by
  simp [bodyEvtEp0Rx, hp, hc]

theorem bodyEvtEp0Rx_unexpected (h : s.pending ≠ .none ∨ (s.controlState ≠ .rxData ∧ s.controlState ≠ .statusOut)) :
    bodyEvtEp0Rx p s = .raised .pvUnexpectedRx (s.emit (.readEndpoint ep0Out p)) := by
  rcases h with hp | ⟨hrx, hst⟩
  · exact if_pos hp
  · simp only [bodyEvtEp0Rx, State.emit_controlState]
    cases hc : s.controlState
    case rxData => exact absurd hc hrx
    case statusOut => exact absurd hc hst
    all_goals exact ite_self _

end

section
variable {s : State} (hp : s.pending = .none)
include hp

theorem bodyEvtEp0Tx_data (hc : s.controlState = .txData ∨ s.controlState = .zeroTxData) : bodyEvtEp0Tx s = sendNext s := by
  rcases hc with hc | hc <;> exact (if_neg (not_not.2 hp)).trans (by rw [hc])

theorem bodyEvtEp0Tx_lastData (hc : s.controlState = .lastData) :
    bodyEvtEp0Tx s = .ok { s with controlState := .statusOut } :=
  (if_neg (not_not.2 hp)).trans (by rw [hc])

theorem bodyEvtEp0Tx_statusIn (hc : s.controlState = .statusIn) :
    bodyEvtEp0Tx s = completeTransfer { s with controlState := .idle } :=
  (if_neg (not_not.2 hp)).trans (by rw [hc])

end

theorem bodyEvtEp0Tx_unexpected {s : State}
    (h : s.pending ≠ .none ∨ s.controlState = .idle ∨ s.controlState = .rxData ∨ s.controlState = .statusOut) :
    bodyEvtEp0Tx s = .raised .pvUnexpectedTx s := by
  rcases h with hp | hc | hc | hc
  · exact if_pos hp
  all_goals simp [bodyEvtEp0Tx, hc]

theorem beginOut_alike {s : State} {m : List Host.Cell} (h : s.dataStage.Agrees m) :
    (beginOut s).Alike sameButStale (beginOut (s.withBuffer m)) := by
  by_cases hlong : s.maxDataSize.toNat < s.setup.length.toNat
  · have e : beginOut s = .raised .pvOutTooLong s := if_pos hlong
    have e' : beginOut (s.withBuffer m) = .raised .pvOutTooLong (s.withBuffer m) := if_pos hlong
    rw [e, e']
    exact .raised _ h.sameButStale
  · rw [beginOut, beginOut, if_neg hlong, if_neg (by exact hlong)]
    exact .ok ⟨rfl, fun _ _ ha => absurd ha (Nat.not_lt_zero _), fun hin => absurd hin (by simp [inDataStage])⟩

theorem sendNext_fits {s : State} (h : s.dataCursor.toNat + nextPacket s ≤ s.maxDataSize.toNat) :
    sendNext s = .ok (sentState (nextPacket s) s) := by
  rcases sendNext_cases s with ⟨-, e⟩ | ⟨hout, -⟩
  · exact e
  · exact absurd h (Nat.not_le.2 hout)

theorem nextPacket_withBuffer (s : State) (m : List Host.Cell) : nextPacket (s.withBuffer m) = nextPacket s := rfl

theorem sentState_withBuffer {n : Nat} {s : State} {m : List Host.Cell}
    (h : memGetAll m s.dataCursor.toNat n = memGetAll s.dataBuffer s.dataCursor.toNat n) :
    sentState n (s.withBuffer m) = (sentState n s).withBuffer m := by
  simp only [sentState, withBuffer_dataBuffer, withBuffer_dataCursor, h]
  rfl

section
variable {s : State} {m : List Host.Cell} (hs : LiveInv s) (hs' : LiveInv (s.withBuffer m)) (h : s.dataStage.Agrees m)
include hs hs' h

/-- The bytes received so far and those of the packet are the same (R132). -/
theorem stored_sameButStale {p : List Byte} (hc : s.controlState = .rxData)
    (ht : s.transferredCount.toNat + p.length ≤ s.totalLen.toNat) :
    sameButStale (s.stored p) ((s.withBuffer m).stored p) := by
  have hcur : s.dataCursor = s.transferredCount := (hs.count (.inl hc)).2
  have hsum : (u32 (s.transferredCount.toNat + p.length)).toNat = s.transferredCount.toNat + p.length :=
    u32_toNat (by have := s.totalLen.isLt; omega)
  refine ⟨rfl, fun _ a ha => ?_, fun hin => absurd hin (by simp [State.stored, hc, inDataStage])⟩
  have ha : a < s.transferredCount.toNat + p.length := hsum ▸ ha
  refine memGet_memPutAll_congr hs.buffer.1 hs'.buffer.1 fun hout => h.1 hc a ?_
  rw [withBuffer_dataCursor, hcur] at hout
  exact (by omega : a < s.transferredCount.toNat)

theorem rxInData_alike (p : List Byte) (hc : s.controlState = .rxData) :
    (rxInData p s).Alike sameButStale (rxInData p (s.withBuffer m)) := by
  obtain ⟨-, hcap, hlen, -⟩ := hs.rx hc
  obtain ⟨-, hcur⟩ := hs.count (.inl hc)
  by_cases hover : s.totalLen.toNat < s.transferredCount.toNat + p.length
  · have e : rxInData p s = .raised .pvOutOverflow s := if_pos hover
    have e' : rxInData p (s.withBuffer m) = .raised .pvOutOverflow (s.withBuffer m) := if_pos hover
    rw [e, e']
    exact .raised _ h.sameButStale
  · have ht : s.transferredCount.toNat + p.length ≤ s.totalLen.toNat := Nat.le_of_not_lt hover
    have hfit : s.dataCursor.toNat + p.length ≤ s.maxDataSize.toNat := by
      rw [hcur]
      omega
    have hst := stored_sameButStale hs hs' h hc ht
    have hfits := rxInData_fits ht hfit
    have hfits' := rxInData_fits (s := s.withBuffer m) ht hfit
    by_cases hdone : s.transferredCount.toNat + p.length = s.totalLen.toNat
    · obtain ⟨m', e, hag⟩ := exists_withBuffer_of_sameButStale hst
      have hd' : Dispatchable ((s.withBuffer m).stored p) := hs'.stored_dispatchable hc hdone
      rw [hfits.trans (if_pos hdone), hfits'.trans (if_pos hdone)]
      rw [e] at hd' ⊢
      exact dispatch_alike (hs.stored_dispatchable hc hdone) hd' hag
    · by_cases hshort : p.length < s.ep0PacketSize.toNat
      · rw [hfits.trans ((if_neg hdone).trans (if_pos hshort)), hfits'.trans ((if_neg hdone).trans (if_pos hshort))]
        exact .raised _ hst
      · rw [hfits.trans ((if_neg hdone).trans (if_neg hshort)), hfits'.trans ((if_neg hdone).trans (if_neg hshort))]
        exact .ok hst

omit hs' in
/-- The next packet is a part of the response (R130). -/
theorem sendNext_alike (hc : inDataStage s.controlState) : (sendNext s).Alike sameButStale (sendNext (s.withBuffer m)) := by
  obtain ⟨-, -, hcap⟩ := hs.tx hc
  obtain ⟨hle, hcur⟩ := hs.count (.inr hc)
  have hn : s.dataCursor.toNat + nextPacket s ≤ s.totalLen.toNat := by
    rw [hcur, nextPacket]
    omega
  have hfit : s.dataCursor.toNat + nextPacket s ≤ s.maxDataSize.toNat := hn.trans hcap
  have hbytes : memGetAll m s.dataCursor.toNat (nextPacket s) = memGetAll s.dataBuffer s.dataCursor.toNat (nextPacket s) :=
    memGetAll_congr fun a _ ha => h.2 hc a (Nat.lt_of_lt_of_le ha hn)
  rw [sendNext_fits hfit, sendNext_fits (s := s.withBuffer m) hfit, nextPacket_withBuffer, sentState_withBuffer hbytes]
  refine .ok (DataStage.Agrees.sameButStale ⟨fun hrx => ?_, fun _ => h.2 hc⟩)
  have hin : inDataStage (sentState (nextPacket s) s).controlState := afterPacket_inDataStage hc _ _ _ _
  simp [inDataStage, show (sentState (nextPacket s) s).controlState = .rxData from hrx] at hin

theorem bodyEvtEp0Rx_alike (p : List Byte) : (bodyEvtEp0Rx p s).Alike sameButStale (bodyEvtEp0Rx p (s.withBuffer m)) := by
  by_cases hp : s.pending = .none
  · by_cases hrx : s.controlState = .rxData
    · rw [bodyEvtEp0Rx_rxData hp hrx, bodyEvtEp0Rx_rxData (s := s.withBuffer m) hp hrx]
      exact rxInData_alike (hs.of_callKept (.emit s (.readEndpoint ep0Out p))) (hs'.of_callKept (.emit _ _)) h p hrx
    · by_cases hst : s.controlState = .statusOut
      · rw [bodyEvtEp0Rx_statusOut hp hst, bodyEvtEp0Rx_statusOut (s := s.withBuffer m) hp hst]
        exact rxInStatus_alike p (s := s.emit (.readEndpoint ep0Out p)) h
      · rw [bodyEvtEp0Rx_unexpected (.inr ⟨hrx, hst⟩), bodyEvtEp0Rx_unexpected (s := s.withBuffer m) (.inr ⟨hrx, hst⟩)]
        exact .raised _ (DataStage.Agrees.sameButStale (s := s.emit (.readEndpoint ep0Out p)) h)
  · rw [bodyEvtEp0Rx_unexpected (.inl hp), bodyEvtEp0Rx_unexpected (s := s.withBuffer m) (.inl hp)]
    exact .raised _ (DataStage.Agrees.sameButStale (s := s.emit (.readEndpoint ep0Out p)) h)

omit hs' in
theorem bodyEvtEp0Tx_alike : (bodyEvtEp0Tx s).Alike sameButStale (bodyEvtEp0Tx (s.withBuffer m)) := by
  by_cases hp : s.pending = .none
  · cases hc : s.controlState
    case txData =>
      rw [bodyEvtEp0Tx_data hp (.inl hc), bodyEvtEp0Tx_data (s := s.withBuffer m) hp (.inl hc)]
      exact sendNext_alike hs h (.inl hc)
    case zeroTxData =>
      rw [bodyEvtEp0Tx_data hp (.inr hc), bodyEvtEp0Tx_data (s := s.withBuffer m) hp (.inr hc)]
      exact sendNext_alike hs h (.inr (.inl hc))
    case lastData =>
      rw [bodyEvtEp0Tx_lastData hp hc, bodyEvtEp0Tx_lastData (s := s.withBuffer m) hp hc]
      exact .ok (DataStage.Agrees.sameButStale (s := { s with controlState := .statusOut })
        (.of_noDataStage (.inr (.inr rfl)) m))
    case statusIn =>
      rw [bodyEvtEp0Tx_statusIn hp hc, bodyEvtEp0Tx_statusIn (s := s.withBuffer m) hp hc]
      exact completeTransfer_idle_alike s m
    all_goals
      have hq : s.controlState = .idle ∨ s.controlState = .rxData ∨ s.controlState = .statusOut := by simp [hc]
      rw [bodyEvtEp0Tx_unexpected (.inr hq), bodyEvtEp0Tx_unexpected (s := s.withBuffer m) (.inr hq)]
      exact .raised _ h.sameButStale
  · rw [bodyEvtEp0Tx_unexpected (.inl hp), bodyEvtEp0Tx_unexpected (s := s.withBuffer m) (.inl hp)]
    exact .raised _ h.sameButStale

omit h in
theorem bodyEvtSetup_alike (p : List Byte) : (bodyEvtSetup p s).Alike sameButStale (bodyEvtSetup p (s.withBuffer m)) := by
  have hidle : ∀ t : State, t.controlState = .idle → t.dataStage.Agrees m := fun _ hc => .of_noDataStage (.inl hc) m
  cases hp : parseSetup p with
  | none =>
    rw [bodyEvtSetup_unparsed hp, bodyEvtSetup_unparsed hp]
    exact .raised _ (hidle ((cancelTransfer s).emit (.readEndpoint ep0Out p)) rfl).sameButStale
  | some r =>
    rw [bodyEvtSetup_parsed hp, bodyEvtSetup_parsed hp]
    split
    · exact beginOut_alike (hidle (setupState p r s) rfl)
    · next ho =>
      have hno : hasOutData r = false := Bool.eq_false_iff.2 ho
      exact dispatch_alike (s := setupState p r s) ⟨{ hs with }, rfl, .inl ⟨rfl, hno⟩⟩ ⟨{ hs' with }, rfl, .inl ⟨rfl, hno⟩⟩
        (hidle _ rfl)

/-- Process, by its consumer (R212). -/
theorem process_alike (i : Instr) : (process i s).Alike sameButStale (process i (s.withBuffer m)) := by
  cases i
  case evtReset => exact (notifyEvent_blind .reset).alike (s := busReset s) (.of_noDataStage (.inl rfl) m)
  case evtSuspend => exact (notifyEvent_blind .suspend).alike h
  case evtResume => exact (notifyEvent_blind .resume).alike h
  case evtSetup p => exact bodyEvtSetup_alike hs hs' p
  case evtEp0Rx p => exact bodyEvtEp0Rx_alike hs hs' h p
  case evtEp0Tx => exact bodyEvtEp0Tx_alike hs h
  case evtEpnRx | evtEpnTx => exact (notifyEndpoint_blind _ _).alike h
  all_goals exact .refused _ h.sameButStale

/-! ## The poll cycle -/

theorem takeEvent_alike (e : EventInput) : (takeEvent e s).Alike sameButStale (takeEvent e (s.withBuffer m)) := by
  unfold takeEvent
  rw [withBuffer_limits]
  split
  · exact .refused _ h.sameButStale
  · exact (process_alike hs hs' h _).caught

end

/-- What a block and its twin are between events: both live, the same but for stale bytes. -/
def Twins (s s' : State) : Prop := LiveInv s ∧ LiveInv s' ∧ sameButStale s s'

theorem takeEvents_alike : ∀ (es : List EventInput) {s s' : State}, Twins s s' →
    (takeEvents es s).Alike Twins (takeEvents es s')
  | [], _, _, h => .ok h
  | e :: es, s, s', ⟨hs, hs', h⟩ => by
    obtain ⟨m, rfl, hm⟩ := exists_withBuffer_of_sameButStale h
    exact ((takeEvent_alike hs hs' hm e).and_safe (takeEvent_safe e hs) (takeEvent_safe e hs')).bind
      fun _ _ => takeEvents_alike es

theorem retry_armed {s : State} (hp : s.pending = .armed) :
    retry s = (caught (dispatch s)).bind fun t => .ok (armPending t) := by
  rw [retry, if_pos hp]

theorem retry_notArmed {s : State} (hp : s.pending ≠ .armed) : retry s = .ok (armPending s) := by
  rw [retry, if_neg hp, Flow.bind_ok]

theorem armPending_on (x : DataStage) (s : State) : armPending (x.on s) = x.on (armPending s) := by
  by_cases hp : s.pending = .fresh
  · have e : armPending s = { s with pending := .armed } := if_pos hp
    have e' : armPending (x.on s) = { x.on s with pending := .armed } := if_pos hp
    rw [e, e']
    rfl
  · have e : armPending s = s := if_neg hp
    have e' : armPending (x.on s) = x.on s := if_neg hp
    rw [e, e']

theorem armPending_blind : Blind DataStage.on fun s => .ok (armPending s) := fun x s => congrArg Flow.ok (armPending_on x s)

theorem armPending_alike {s s' : State} (h : sameButStale s s') :
    (Flow.ok (armPending s)).Alike sameButStale (.ok (armPending s')) := by
  obtain ⟨m, rfl, hm⟩ := exists_withBuffer_of_sameButStale h
  exact armPending_blind.alike hm

/-- The retry dispatches only a request that waits for it (R220). -/
theorem retry_alike {s s' : State} (h : Twins s s') : (retry s).Alike sameButStale (retry s') := by
  obtain ⟨hs, hs', h⟩ := h
  obtain ⟨m, rfl, hm⟩ := exists_withBuffer_of_sameButStale h
  by_cases hp : s.pending = .armed
  · have hwait : s.pending ≠ .none := by simp [hp]
    rw [retry_armed hp, retry_armed (s := s.withBuffer m) hp]
    exact (dispatch_alike (hs.dispatchable hwait) (hs'.dispatchable hwait) hm).caught.bind fun _ _ => armPending_alike
  · rw [retry_notArmed hp, retry_notArmed (s := s.withBuffer m) hp]
    exact armPending_alike h

theorem bodyPoll_alike (batch : List EventInput) {s : State} {m : List Host.Cell} (hs : LiveInv s)
    (hs' : LiveInv (s.withBuffer m)) (h : s.dataStage.Agrees m) :
    (bodyPoll batch s).Alike sameButStale (bodyPoll batch (s.withBuffer m)) := by
  have htake := takeEvents_alike (s.env.eventQueue ++ batch) (s := { s with env := { s.env with eventQueue := [] } })
    ⟨hs.withEnv _, hs'.withEnv { s.env with eventQueue := [] }, DataStage.Agrees.sameButStale h⟩
  refine htake.bind fun t t' ht => (retry_alike ht).bind fun u u' hu => ?_
  obtain ⟨m', rfl, hm'⟩ := exists_withBuffer_of_sameButStale hu
  exact .ok (DataStage.Agrees.sameButStale hm')

/-! ## Commands -/

section
variable {s t : State} {m : List Host.Cell} (hs : LiveInv s) (hs' : LiveInv (s.withBuffer m)) (h : s.dataStage.Agrees m)
include hs hs' h

/-- INIT gives both the same empty buffer (R240); every other command but POLL has a body that is blind to it. -/
theorem commandBody_alike (i : Instr) : (commandBody i s).Alike sameButStale (commandBody i (s.withBuffer m)) := by
  rcases commandBody_cases i with ⟨cap, ep0, rfl⟩ | ⟨batch, rfl⟩ | hb
  · dsimp only [commandBody, bodyInit]
    split
    · exact .ok (sameButStale_refl _)
    · exact .refused _ h.sameButStale
  · exact bodyPoll_alike batch hs hs' h
  · rw [hb]
    exact (nestedBody_blind i).alike h

theorem exec_command_sameButStale {i : Instr} (hf : format i = .command) (he : exec i s = .next t) :
    ∃ t', exec i (s.withBuffer m) = .next t' ∧ sameButStale t t' := by
  have hr : (s.withBuffer m).refused = false := (liveInv_iff.1 hs').1
  rw [exec_command hf] at he ⊢
  rcases runCommand_cases i (commandBody i) s with ⟨_, e⟩ | ⟨_, r, ha, e⟩ | ⟨_, ha, e⟩ <;> rw [e] at he
  · cases he
  · cases he
    have ha' : admission i (s.withBuffer m) = some r := ha
    exact ⟨(s.withBuffer m).refuse r, by simp [runCommand, hr, ha'], DataStage.Agrees.sameButStale (s := s.refuse r) h⟩
  · rw [runCommand_admitted (s := s.withBuffer m) _ hr ha]
    exact (commandBody_alike hs hs' h i).finish he

/-! ## The step -/

/-- A step, by its next input. -/
theorem step_sameButStale (he : step s = .next t) : ∃ t', step (s.withBuffer m) = .next t' ∧ sameButStale t t' := by
  have hr : s.refused = false := (liveInv_iff.1 hs).1
  have hr' : (s.withBuffer m).refused = false := (liveInv_iff.1 hs').1
  cases hi : s.env.inputs with
  | nil =>
    rw [step_idle hr hi] at he
    cases he
    exact ⟨_, step_idle hr' hi, h.sameButStale⟩
  | cons inp rest =>
    by_cases hc : wordClass inp.word = 0
    · rw [step_event hr hi hc] at he
      cases he
      exact ⟨_, step_event hr' hi hc, DataStage.Agrees.sameButStale (s := arrive inp (s.withInputs rest)) h⟩
    · cases hd : decodeCommand s.limits inp.word inp.beside with
      | ok i =>
        rw [step_command hr hi hd] at he
        rw [step_command (s := s.withBuffer m) hr' hi hd]
        exact exec_command_sameButStale (s := s.withInputs rest) (hs.withEnv _) (hs'.withEnv _) h (format_of_decodeCommand hd) he
      | error e =>
        have hno : ∀ i, decodeCommand s.limits inp.word inp.beside ≠ .ok i := by simp [hd]
        rw [step_undecodable hr hi hc hno] at he
        cases he
        exact ⟨_, step_undecodable hr' hi hc hno, DataStage.Agrees.sameButStale (s := (s.withInputs rest).refuse _) h⟩

end

/-! ## The statement -/

/-- Settles O60: a state with a step is live, so is its twin, and a step ends alike in both. -/
theorem staleBytesNeverMatter : Obligations.StaleBytesNeverMatter := by
  unfold Obligations.StaleBytesNeverMatter
  intro s s' t hs hs' hst he
  obtain ⟨m, rfl, hm⟩ := exists_withBuffer_of_sameButStale hst
  have hr : s.refused = false := (step_cases he).1
  have hr' : (s.withBuffer m).refused = false := hr
  have hb : blockInv s := hs.resolve_left (by simp [hr])
  have hb' : blockInv (s.withBuffer m) := hs'.resolve_left (by simp [hr'])
  exact step_sameButStale (liveInv_iff.2 ⟨hr, hb⟩) (liveInv_iff.2 ⟨hr', hb'⟩) hm he

end Sys2Proof.Machine
end

