-- ==== Sys2Proof/Proofs/ArgumentDecoders.lean ====
section
/-! SUPPORT. What each argument decoder accepts (30_encoding.md R94 to R96, R101): exactly the byte of a legal operand, and it
answers the instruction with that operand. -/

namespace Sys2Proof

open Sys2Proof.Machine

/-! ## Tests on the way -/

section
variable {α ε : Type} {p : Prop} [Decidable p] {x : Except ε α} {e : ε} {a : α}

theorem ite_error_eq_ok_iff : (if p then .error e else x) = .ok a ↔ ¬p ∧ x = .ok a := by
  by_cases hp : p <;> simp [hp]

theorem ite_else_error_eq_ok_iff : (if p then x else .error e) = .ok a ↔ p ∧ x = .ok a := by
  by_cases hp : p <;> simp [hp]

end

/-! ## Endpoint addresses -/

theorem decodeEp_eq_some_iff {b : Byte} {ep : EpAddr} : decodeEp b = some ep ↔ b = encodeEp ep := by
  constructor
  · intro h
    exact (encodeEp_of_decodeEp b ep h).symm
  · rintro rfl
    exact decodeEp_encodeEp ep

@[simp] theorem encodeEp_inj {a b : EpAddr} : encodeEp a = encodeEp b ↔ a = b := by
  rw [← decodeEp_eq_some_iff, decodeEp_encodeEp, Option.some.injEq]

/-- A byte is that of an endpoint address, or it decodes to none (R94). -/
theorem decodeEp_cases (b : Byte) : (∃ ep, b = encodeEp ep) ∨ (decodeEp b = none ∧ ∀ ep, b ≠ encodeEp ep) := by
  cases h : decodeEp b with
  | none => exact .inr ⟨rfl, fun ep hb => by simp [hb] at h⟩
  | some ep => exact .inl ⟨ep, decodeEp_eq_some_iff.1 h⟩

/-- The byte of an endpoint address, by its fields (R94). -/
theorem eq_encodeEp_iff {b : Byte} {d : Dir} {n : BitVec 4} :
    b = encodeEp { dir := d, num := n } ↔ b.extractLsb' 4 3 = 0 ∧ dirOfBit (b.getLsbD 7) = d ∧ b.extractLsb' 0 4 = n := by
  simp [← decodeEp_eq_some_iff, decodeEp]

theorem epValid_iff {lim : Limits} {ep : EpAddr} : ep.valid lim = true ↔ ep.num.toNat < lim.numEp := decide_eq_true_iff

theorem validEpByte_iff {lim : Limits} {b : Byte} : validEpByte lim b ↔ ∃ ep, b = encodeEp ep ∧ ep.valid lim = true := by
  constructor
  · rintro ⟨hz, hn⟩
    exact ⟨{ dir := dirOfBit (b.getLsbD 7), num := b.extractLsb' 0 4 }, eq_encodeEp_iff.2 ⟨hz, rfl, rfl⟩, epValid_iff.2 hn⟩
  · rintro ⟨⟨d, n⟩, hb, hv⟩
    obtain ⟨hz, -, rfl⟩ := eq_encodeEp_iff.1 hb
    exact ⟨hz, epValid_iff.1 hv⟩

/-! ## Events -/

theorem decodeDeviceEvent_eq_ok_iff {i j : Instr} {arg : Byte} {p : List Byte} :
    decodeDeviceEvent i arg p = .ok j ↔ arg = 0 ∧ p = [] ∧ i = j := by
  simp only [decodeDeviceEvent, ite_error_eq_ok_iff, ne_eq, not_not, Except.ok.injEq]

theorem decodeSetupEvent_eq_ok_iff {arg : Byte} {p : List Byte} {i : Instr} :
    decodeSetupEvent arg p = .ok i ↔ arg = 0 ∧ p.length ≤ maxSetupPayload ∧ .evtSetup p = i := by
  simp only [decodeSetupEvent, ite_error_eq_ok_iff, ne_eq, not_not, Except.ok.injEq, not_lt]

/-- RX reads an OUT address; the number says which event it is and how much payload it has (R95, R96). -/
theorem decodeRxEvent_eq_ok_iff {lim : Limits} {arg : Byte} {p : List Byte} {i : Instr} :
    decodeRxEvent lim arg p = .ok i ↔
      ∃ n, arg = encodeEp { dir := .out, num := n } ∧ n.toNat < lim.numEp ∧
        (if n = 0 then p.length ≤ lim.ep0Size else p = []) ∧ (if n = 0 then .evtEp0Rx p else .evtEpnRx n) = i := by
  rcases decodeEp_cases arg with ⟨⟨d, m⟩, rfl⟩ | ⟨hd, hne⟩
  · simp only [decodeRxEvent, decodeEp_encodeEp, ite_error_eq_ok_iff, encodeEp_inj, EpAddr.mk.injEq, not_or, ne_eq, not_not,
      Bool.not_eq_false, epValid_iff, and_assoc, exists_and_left, exists_eq_left']
    refine and_congr_right fun _ => and_congr_right fun _ => ?_
    by_cases hm : m = 0
    · simp only [hm, if_true, ite_error_eq_ok_iff, not_lt, Except.ok.injEq]
    · simp only [hm, if_false, ite_error_eq_ok_iff, not_not, Except.ok.injEq]
  · simp [decodeRxEvent, hd, hne]

/-- TX reads an IN address and has no payload; the number says which event it is (R95, R96). -/
theorem decodeTxEvent_eq_ok_iff {lim : Limits} {arg : Byte} {p : List Byte} {i : Instr} :
    decodeTxEvent lim arg p = .ok i ↔
      ∃ n, arg = encodeEp { dir := .inn, num := n } ∧ n.toNat < lim.numEp ∧ p = [] ∧
        (if n = 0 then .evtEp0Tx else .evtEpnTx n) = i := by
  rcases decodeEp_cases arg with ⟨⟨d, m⟩, rfl⟩ | ⟨hd, hne⟩
  · simp only [decodeTxEvent, decodeEp_encodeEp, ite_error_eq_ok_iff, encodeEp_inj, EpAddr.mk.injEq, not_or, ne_eq, not_not,
      Bool.not_eq_false, epValid_iff, and_assoc, exists_and_left, exists_eq_left', ← apply_ite Except.ok, Except.ok.injEq]
  · simp [decodeTxEvent, hd, hne]

/-! ## Commands -/

theorem decodePlain_eq_ok_iff {i j : Instr} {arg : Byte} : decodePlain i arg = .ok j ↔ arg = 0 ∧ i = j := by
  simp only [decodePlain, ite_else_error_eq_ok_iff, Except.ok.injEq]

theorem decodeEpCommand_eq_ok_iff {lim : Limits} {f : EpAddr → Instr} {arg : Byte} {i : Instr} :
    decodeEpCommand lim f arg = .ok i ↔ ∃ ep, arg = encodeEp ep ∧ ep.valid lim = true ∧ f ep = i := by
  rcases decodeEp_cases arg with ⟨ep, rfl⟩ | ⟨hd, hne⟩
  · simp only [decodeEpCommand, decodeEp_encodeEp, ite_else_error_eq_ok_iff, encodeEp_inj, exists_eq_left', Except.ok.injEq]
  · simp [decodeEpCommand, hd, hne]

theorem decodeFlagCommand_eq_ok_iff {f : Bool → Instr} {arg : Byte} {i : Instr} :
    decodeFlagCommand f arg = .ok i ↔ ∃ b, arg = flagByte b ∧ f b = i := by
  rw [decodeFlagCommand, ite_else_error_eq_ok_iff, Except.ok.injEq]
  constructor
  · rintro ⟨hz, rfl⟩
    exact ⟨arg.getLsbD 0, (flagByte_getLsbD_zero arg hz).symm, rfl⟩
  · rintro ⟨b, rfl, rfl⟩
    cases b <;> exact ⟨rfl, rfl⟩

theorem decodeRegEndpoint_eq_ok_iff {lim : Limits} {arg : Byte} {h : Option HandlerId} {i : Instr} :
    decodeRegEndpoint lim arg h = .ok i ↔ ∃ n : BitVec 4, arg = n.setWidth 8 ∧ n.toNat < lim.numEp ∧ .regEndpoint n h = i := by
  have hfields : ∀ n : BitVec 4, (n.setWidth 8).extractLsb' 4 4 = 0 ∧ (n.setWidth 8).extractLsb' 0 4 = n := by decide
  rw [decodeRegEndpoint, ite_else_error_eq_ok_iff, Except.ok.injEq]
  constructor
  · rintro ⟨⟨hz, hn⟩, rfl⟩
    exact ⟨arg.extractLsb' 0 4, (setWidth_lowNibble arg hz).symm, hn, rfl⟩
  · rintro ⟨n, rfl, hn, rfl⟩
    obtain ⟨hz, hlow⟩ := hfields n
    rw [hlow]
    exact ⟨⟨hz, hn⟩, rfl⟩

theorem deviceEventOfCode_deviceEventCode (e : DeviceEvent) : deviceEventOfCode (deviceEventCode e) = some e := by
  cases e <;> rfl

theorem decodeRegEvent_eq_ok_iff {arg : Byte} {h : Option HandlerId} {i : Instr} :
    decodeRegEvent arg h = .ok i ↔ ∃ e, arg = deviceEventCode e ∧ .regEvent e h = i := by
  constructor
  · intro hd
    unfold decodeRegEvent at hd
    split at hd
    · next e he => exact ⟨e, (deviceEventCode_of_deviceEventOfCode arg e he).symm, Except.ok.inj hd⟩
    · cases hd
  · rintro ⟨e, rfl, rfl⟩
    rw [decodeRegEvent, deviceEventOfCode_deviceEventCode]

end Sys2Proof
end

