-- ==== Sys2Proof/Proofs/InputWords.lean ====
section
/-! SUPPORT. The input words of 30_encoding.md R93 to R101: a legal event or command is decoded from its own word, and exactly the
legal words decode. -/

namespace Sys2Proof.Machine

/-! ## Legality by the operands -/

theorem wf_evtEp0Rx_iff {lim : Limits} {p : List Byte} :
    (Instr.evtEp0Rx p).wf lim = true ↔ 0 < lim.numEp ∧ p.length ≤ lim.ep0Size := by
  rw [Instr.wf, Bool.and_eq_true, decide_eq_true_iff, decide_eq_true_iff]

theorem wf_evtEpnRx_iff {lim : Limits} {n : BitVec 4} : (Instr.evtEpnRx n).wf lim = true ↔ n ≠ 0 ∧ n.toNat < lim.numEp := by
  rw [Instr.wf, Bool.and_eq_true, decide_eq_true_iff, decide_eq_true_iff]

theorem wf_evtEpnTx_iff {lim : Limits} {n : BitVec 4} : (Instr.evtEpnTx n).wf lim = true ↔ n ≠ 0 ∧ n.toNat < lim.numEp := by
  rw [Instr.wf, Bool.and_eq_true, decide_eq_true_iff, decide_eq_true_iff]

/-! ## A legal input is decoded from its word -/

/-- Settles O3: the word spells the event's kind and address, which the decoder of that kind accepts. -/
theorem eventRoundTrip : Obligations.EventRoundTrip := by
  unfold Obligations.EventRoundTrip
  intro lim i hf hw
  cases i <;> cases hf <;>
    simp only [encode, encodeWord, encodeBeside, decodeEvent, wordClass_inputWord, wordCode_inputWord, lowByte_inputWord, if_true]
  case evtReset | evtSuspend | evtResume => exact decodeDeviceEvent_eq_ok_iff.2 ⟨rfl, rfl, rfl⟩
  case evtSetup p => exact decodeSetupEvent_eq_ok_iff.2 ⟨rfl, of_decide_eq_true hw, rfl⟩
  case evtEp0Rx p =>
    obtain ⟨hn, hp⟩ := wf_evtEp0Rx_iff.1 hw
    exact decodeRxEvent_eq_ok_iff.2 ⟨0, rfl, hn, hp, rfl⟩
  case evtEpnRx n =>
    obtain ⟨hne, hn⟩ := wf_evtEpnRx_iff.1 hw
    exact decodeRxEvent_eq_ok_iff.2 ⟨n, rfl, hn, (if_neg hne).mpr rfl, if_neg hne⟩
  case evtEp0Tx => exact decodeTxEvent_eq_ok_iff.2 ⟨0, rfl, of_decide_eq_true hw, rfl, rfl⟩
  case evtEpnTx n =>
    obtain ⟨hne, hn⟩ := wf_evtEpnTx_iff.1 hw
    exact decodeTxEvent_eq_ok_iff.2 ⟨n, rfl, hn, rfl, if_neg hne⟩

/-- Settles O4: the word spells the command's code and argument, which the decoder of that code accepts. -/
theorem commandRoundTrip : Obligations.CommandRoundTrip := by
  unfold Obligations.CommandRoundTrip
  intro lim i hf hw
  cases i <;> cases hf <;>
    simp only [encode, encodeWord, encodeBeside, decodeCommand, wordClass_inputWord, wordCode_inputWord, lowByte_inputWord, if_true]
  case init | poll | regControl | regConfig | regDescriptor | getInfo => exact decodePlain_eq_ok_iff.2 ⟨rfl, rfl⟩
  case regEndpoint n h => exact decodeRegEndpoint_eq_ok_iff.2 ⟨n, rfl, of_decide_eq_true hw, rfl⟩
  case regEvent e h => exact decodeRegEvent_eq_ok_iff.2 ⟨e, rfl, rfl⟩
  case epConfig ep ty mps => exact decodeEpCommand_eq_ok_iff.2 ⟨ep, rfl, hw, rfl⟩
  case epWrite ep bytes => exact decodeEpCommand_eq_ok_iff.2 ⟨ep, rfl, hw, rfl⟩
  case epDeconfig ep | epRead ep | epStall ep | epUnstall ep => exact decodeEpCommand_eq_ok_iff.2 ⟨ep, rfl, hw, rfl⟩
  case enable b | connect b => exact decodeFlagCommand_eq_ok_iff.2 ⟨b, rfl, rfl⟩

/-! ## The event words -/

/-- R98's list, as the words of the events. -/
theorem encodeWord_evtEpnRx (n : BitVec 4) : encodeWord (.evtEpnRx n) = 0x0400 + n.setWidth 16 := by
  revert n
  decide

theorem encodeWord_evtEpnTx (n : BitVec 4) : encodeWord (.evtEpnTx n) = 0x0580 + n.setWidth 16 := by
  revert n
  decide

/-- Settles O1: R98's numbers are the events' words, so each is read as its event by the round trip O3. -/
theorem eventWords : Obligations.EventWords := by
  unfold Obligations.EventWords
  refine ⟨⟨rfl, rfl, rfl, fun _ => rfl, fun _ => rfl, rfl, fun n => ⟨encodeWord_evtEpnRx n, encodeWord_evtEpnTx n⟩⟩, ?_⟩
  intro lim hnum
  have hread : ∀ i, format i = .event → i.wf lim = true → decodeEvent lim (encodeWord i) (encodeBeside i).bytes = .ok i :=
    eventRoundTrip lim
  refine ⟨hread .evtReset rfl rfl, hread .evtSuspend rfl rfl, hread .evtResume rfl rfl, fun p hp => ?_, fun p hp => ?_,
    hread .evtEp0Tx rfl (decide_eq_true hnum), fun n hpos hlt => ?_⟩
  · exact hread (.evtSetup p) rfl (decide_eq_true hp)
  · exact hread (.evtEp0Rx p) rfl (wf_evtEp0Rx_iff.2 ⟨hnum, hp⟩)
  · have hne : n ≠ 0 := by
      rintro rfl
      cases hpos
    rw [← encodeWord_evtEpnRx, ← encodeWord_evtEpnTx]
    exact ⟨hread (.evtEpnRx n) rfl (wf_evtEpnRx_iff.2 ⟨hne, hlt⟩), hread (.evtEpnTx n) rfl (wf_evtEpnTx_iff.2 ⟨hne, hlt⟩)⟩

/-- Settles O2, each word by evaluation of its decoder. -/
theorem decodedWords : Obligations.DecodedWords := by
  unfold Obligations.DecodedWords
  decide

end Sys2Proof.Machine
end

