-- ==== Sys2Proof/Proofs/LegalWords.lean ====
section
/-! SUPPORT. Exactly the legal words of 30_encoding.md R95, R96 and R101 decode, each to a legal instruction of that word. -/

namespace Sys2Proof.Machine

/-- The decoders read the code as a natural, the legality by bit positions as four bits. -/
theorem toNat_wordCode_eq_iff {w : Half} (k : BitVec 4) : (wordCode w).toNat = k.toNat ↔ wordCode w = k := BitVec.toNat_eq.symm

/-! ## Events -/

theorem exists_decodeRxEvent_iff {lim : Limits} {arg : Byte} {p : List Byte} :
    (∃ i, decodeRxEvent lim arg p = .ok i) ↔
      arg.getLsbD 7 = false ∧ validEpByte lim arg ∧ if arg.extractLsb' 0 4 = 0 then p.length ≤ lim.ep0Size else p = [] := by
  have hdir : dirOfBit (arg.getLsbD 7) = .out ↔ arg.getLsbD 7 = false := by cases arg.getLsbD 7 <;> decide
  simp only [decodeRxEvent_eq_ok_iff, eq_encodeEp_iff, hdir, validEpByte]
  constructor
  · rintro ⟨_, n, ⟨hz, hd, rfl⟩, hn, hp, -⟩
    exact ⟨hd, ⟨hz, hn⟩, hp⟩
  · rintro ⟨hd, ⟨hz, hn⟩, hp⟩
    exact ⟨_, _, ⟨hz, hd, rfl⟩, hn, hp, rfl⟩

theorem exists_decodeTxEvent_iff {lim : Limits} {arg : Byte} {p : List Byte} :
    (∃ i, decodeTxEvent lim arg p = .ok i) ↔ arg.getLsbD 7 = true ∧ validEpByte lim arg ∧ p = [] := by
  have hdir : dirOfBit (arg.getLsbD 7) = .inn ↔ arg.getLsbD 7 = true := by cases arg.getLsbD 7 <;> decide
  simp only [decodeTxEvent_eq_ok_iff, eq_encodeEp_iff, hdir, validEpByte]
  constructor
  · rintro ⟨_, n, ⟨hz, hd, rfl⟩, hn, hp, -⟩
    exact ⟨hd, ⟨hz, hn⟩, hp⟩
  · rintro ⟨hd, ⟨hz, hn⟩, hp⟩
    exact ⟨_, _, ⟨hz, hd, rfl⟩, hn, hp, rfl⟩

/-- A legal event word (R95, R96), by its kind: the argument is one that the decoder of that kind accepts. -/
theorem legalEvent_iff {lim : Limits} {w : Half} {p : List Byte} :
    legalEvent lim w p ↔
      wordClass w = 0 ∧
        (((wordCode w).toNat ≤ 2 ∧ lowByte w = 0 ∧ p = []) ∨
          ((wordCode w).toNat = 3 ∧ lowByte w = 0 ∧ p.length ≤ maxSetupPayload) ∨
          ((wordCode w).toNat = 4 ∧ ∃ i, decodeRxEvent lim (lowByte w) p = .ok i) ∨
          ((wordCode w).toNat = 5 ∧ ∃ i, decodeTxEvent lim (lowByte w) p = .ok i)) := by
  have hbit : (lowByte w).getLsbD 7 = w.getLsbD 7 := by simp [lowByte]
  have hnum : (lowByte w).extractLsb' 0 4 = w.extractLsb' 0 4 := by
    ext i hi
    simp [lowByte]
  have h3 : (wordCode w).toNat = 3 ↔ wordCode w = 3 := toNat_wordCode_eq_iff 3
  have h4 : (wordCode w).toNat = 4 ↔ wordCode w = 4 := toNat_wordCode_eq_iff 4
  have h5 : (wordCode w).toNat = 5 ↔ wordCode w = 5 := toNat_wordCode_eq_iff 5
  rw [exists_decodeRxEvent_iff, exists_decodeTxEvent_iff, hbit, hnum, h3, h4, h5]
  rfl

theorem exists_decodeEvent_iff {lim : Limits} {w : Half} {p : List Byte} :
    (∃ i, decodeEvent lim w p = .ok i) ↔ legalEvent lim w p := by
  rw [legalEvent_iff]
  unfold decodeEvent
  by_cases hc : wordClass w = 0
  · simp only [hc, if_true, true_and]
    generalize (wordCode w).toNat = kind
    split
    case h_1 | h_2 | h_3 => simp [decodeDeviceEvent_eq_ok_iff]
    case h_4 => simp [decodeSetupEvent_eq_ok_iff]
    case h_5 | h_6 => simp
    case h_7 =>
      simp only [imp_false] at *
      have hkind : ¬kind ≤ 2 ∧ kind ≠ 3 ∧ kind ≠ 4 ∧ kind ≠ 5 := by omega
      simp [hkind]
  · simp only [hc, if_false, false_and, iff_false]
    split <;> simp

/-- `i` is a legal event and its word has this kind and this low byte (R95). -/
def IsEventWith (lim : Limits) (kind : Nat) (arg : Byte) (i : Instr) : Prop :=
  format i = .event ∧ i.wf lim = true ∧ encodeWord i = inputWord 0 (BitVec.ofNat 4 kind) arg

theorem decodeRxEvent_isEventWith {lim : Limits} {arg : Byte} {p : List Byte} {i : Instr}
    (h : decodeRxEvent lim arg p = .ok i) : IsEventWith lim 4 arg i := by
  obtain ⟨n, rfl, hn, hp, rfl⟩ := decodeRxEvent_eq_ok_iff.1 h
  by_cases hz : n = 0
  · subst hz
    exact ⟨rfl, wf_evtEp0Rx_iff.2 ⟨hn, hp⟩, rfl⟩
  · rw [if_neg hz]
    exact ⟨rfl, wf_evtEpnRx_iff.2 ⟨hz, hn⟩, rfl⟩

theorem decodeTxEvent_isEventWith {lim : Limits} {arg : Byte} {p : List Byte} {i : Instr}
    (h : decodeTxEvent lim arg p = .ok i) : IsEventWith lim 5 arg i := by
  obtain ⟨n, rfl, hn, -, rfl⟩ := decodeTxEvent_eq_ok_iff.1 h
  by_cases hz : n = 0
  · subst hz
    exact ⟨rfl, decide_eq_true hn, rfl⟩
  · rw [if_neg hz]
    exact ⟨rfl, wf_evtEpnTx_iff.2 ⟨hz, hn⟩, rfl⟩

/-- What an event word decodes to is a legal event with the word's own class, kind and low byte. -/
theorem decodeEvent_isEventWith {lim : Limits} {w : Half} {p : List Byte} {i : Instr} (h : decodeEvent lim w p = .ok i) :
    wordClass w = 0 ∧ IsEventWith lim (wordCode w).toNat (lowByte w) i := by
  unfold decodeEvent at h
  split at h
  · next hc =>
    refine ⟨hc, ?_⟩
    generalize (wordCode w).toNat = kind at h ⊢
    split at h
    case h_1 | h_2 | h_3 =>
      obtain ⟨ha, -, rfl⟩ := decodeDeviceEvent_eq_ok_iff.1 h
      exact ⟨rfl, rfl, by rw [ha]; rfl⟩
    case h_4 =>
      obtain ⟨ha, hp, rfl⟩ := decodeSetupEvent_eq_ok_iff.1 h
      exact ⟨rfl, decide_eq_true hp, by rw [ha]; rfl⟩
    case h_5 => exact decodeRxEvent_isEventWith h
    case h_6 => exact decodeTxEvent_isEventWith h
    case h_7 => cases h
  · split at h <;> cases h

/-- The word an event was decoded from is its own (R95). -/
theorem encodeWord_of_decodeEvent {lim : Limits} {w : Half} {p : List Byte} {i : Instr} (h : decodeEvent lim w p = .ok i) :
    encodeWord i = w := by
  obtain ⟨hc, -, -, hw⟩ := decodeEvent_isEventWith h
  rw [hw, ← hc, BitVec.ofNat_toNat, BitVec.setWidth_eq, inputWord_fields]

/-! ## Commands -/

/-- What R101 asks of `arg8`, by the code. -/
def legalArg (lim : Limits) (code : Nat) (arg : Byte) : Prop :=
  if code ≤ 4 ∨ code = 15 then arg = 0
  else if code = 5 then arg.toNat < 16 ∧ arg.toNat < lim.numEp
  else if code = 6 then arg.toNat ≤ 2
  else if code ≤ 12 then validEpByte lim arg
  else arg.toNat ≤ 1

theorem legalCommand_iff {lim : Limits} {w : Half} :
    legalCommand lim w ↔ wordClass w = 1 ∧ legalArg lim (wordCode w).toNat (lowByte w) := by
  have h5 : (wordCode w).toNat = 5 ↔ wordCode w = 5 := toNat_wordCode_eq_iff 5
  have h6 : (wordCode w).toNat = 6 ↔ wordCode w = 6 := toNat_wordCode_eq_iff 6
  have h15 : (wordCode w).toNat = 15 ↔ wordCode w = 15 := toNat_wordCode_eq_iff 15
  simp only [legalArg, h5, h6, h15]
  rfl

theorem exists_decodeEpCommand_iff {lim : Limits} {f : EpAddr → Instr} {arg : Byte} :
    (∃ i, decodeEpCommand lim f arg = .ok i) ↔ validEpByte lim arg := by
  simp only [decodeEpCommand_eq_ok_iff, validEpByte_iff]
  constructor
  · rintro ⟨_, ep, ha, hv, -⟩
    exact ⟨ep, ha, hv⟩
  · rintro ⟨ep, ha, hv⟩
    exact ⟨_, ep, ha, hv, rfl⟩

theorem exists_decodeRegEndpoint_iff {lim : Limits} {arg : Byte} {h : Option HandlerId} :
    (∃ i, decodeRegEndpoint lim arg h = .ok i) ↔ arg.toNat < 16 ∧ arg.toNat < lim.numEp := by
  simp only [decodeRegEndpoint_eq_ok_iff]
  constructor
  · rintro ⟨_, n, rfl, hn, -⟩
    rw [BitVec.toNat_setWidth_of_le (by decide)]
    exact ⟨n.isLt, hn⟩
  · rintro ⟨h16, hn⟩
    have hnum : (BitVec.ofNat 4 arg.toNat).toNat = arg.toNat := Nat.mod_eq_of_lt h16
    refine ⟨_, BitVec.ofNat 4 arg.toNat, BitVec.eq_of_toNat_eq ?_, hnum.symm ▸ hn, rfl⟩
    rw [BitVec.toNat_setWidth_of_le (by decide), hnum]

theorem exists_decodeRegEvent_iff {arg : Byte} {h : Option HandlerId} :
    (∃ i, decodeRegEvent arg h = .ok i) ↔ arg.toNat ≤ 2 := by
  have hcodes : ∀ b : Byte, b.toNat ≤ 2 →
      b = deviceEventCode .reset ∨ b = deviceEventCode .suspend ∨ b = deviceEventCode .resume := by
    decide
  simp only [decodeRegEvent_eq_ok_iff]
  constructor
  · rintro ⟨_, e, rfl, -⟩
    cases e <;> decide
  · intro ha
    rcases hcodes arg ha with he | he | he <;> exact ⟨_, _, he, rfl⟩

theorem exists_decodeFlagCommand_iff {f : Bool → Instr} {arg : Byte} :
    (∃ i, decodeFlagCommand f arg = .ok i) ↔ arg.toNat ≤ 1 := by
  have hcodes : ∀ b : Byte, (∃ v, b = flagByte v) ↔ b.toNat ≤ 1 := by decide
  simp only [decodeFlagCommand_eq_ok_iff, ← hcodes]
  constructor
  · rintro ⟨_, v, ha, -⟩
    exact ⟨v, ha⟩
  · rintro ⟨v, ha⟩
    exact ⟨_, v, ha, rfl⟩

theorem exists_decodeCommand_iff {lim : Limits} {w : Half} {b : Beside} :
    (∃ i, decodeCommand lim w b = .ok i) ↔ legalCommand lim w := by
  rw [legalCommand_iff]
  unfold decodeCommand
  by_cases hc : wordClass w = 1
  · simp only [hc, if_true, true_and]
    have hlt : (wordCode w).toNat < 16 := (wordCode w).isLt
    generalize (wordCode w).toNat = code at hlt ⊢
    split
    case h_1 | h_2 | h_3 | h_4 | h_5 => simp [decodePlain_eq_ok_iff, legalArg]
    case h_6 => exact exists_decodeRegEndpoint_iff
    case h_7 => exact exists_decodeRegEvent_iff
    case h_8 | h_9 | h_10 | h_11 | h_12 | h_13 => exact exists_decodeEpCommand_iff
    case h_14 | h_15 => exact exists_decodeFlagCommand_iff
    case h_16 =>
      simp only [imp_false] at *
      obtain rfl : code = 15 := by omega
      simp [decodePlain_eq_ok_iff, legalArg]
  · simp only [hc, if_false, false_and, iff_false]
    split <;> simp

theorem wf_of_decodeCommand {lim : Limits} {w : Half} {b : Beside} {i : Instr} (h : decodeCommand lim w b = .ok i) :
    i.wf lim = true := by
  unfold decodeCommand at h
  split at h
  · split at h
    case h_6 =>
      obtain ⟨n, -, hn, rfl⟩ := decodeRegEndpoint_eq_ok_iff.1 h
      exact decide_eq_true hn
    case h_7 =>
      obtain ⟨e, -, rfl⟩ := decodeRegEvent_eq_ok_iff.1 h
      rfl
    case h_8 | h_9 | h_10 | h_11 | h_12 | h_13 =>
      obtain ⟨ep, -, hv, rfl⟩ := decodeEpCommand_eq_ok_iff.1 h
      exact hv
    case h_14 | h_15 =>
      obtain ⟨v, -, rfl⟩ := decodeFlagCommand_eq_ok_iff.1 h
      rfl
    all_goals
      obtain ⟨-, rfl⟩ := decodePlain_eq_ok_iff.1 h
      rfl
  · split at h <;> cases h

/-! ## The statement -/

/-- Settles O7: a word of class 0 is read as an event, any other as a command; each decoder accepts exactly the legal words of its
class and answers a legal instruction of that word. -/
theorem legalWords : Obligations.LegalWords := by
  unfold Obligations.LegalWords
  intro lim w b
  unfold decodeInput
  by_cases hc : wordClass w = 0
  · have hcmd : ¬legalCommand lim w := fun h => absurd (hc.symm.trans (legalCommand_iff.1 h).1) (by decide)
    rw [if_pos hc, exists_decodeEvent_iff]
    refine ⟨(or_iff_left hcmd).symm, fun i hi => ?_⟩
    obtain ⟨-, hf, hw, -⟩ := decodeEvent_isEventWith hi
    exact ⟨hw, encodeWord_of_decodeEvent hi, by rw [hf]; decide⟩
  · have hev : ¬legalEvent lim w b.bytes := fun h => hc h.1
    rw [if_neg hc, exists_decodeCommand_iff]
    exact ⟨(or_iff_right hev).symm, fun i hi =>
      ⟨wf_of_decodeCommand hi, encodeWord_of_decodeCommand hi, by rw [format_of_decodeCommand hi]; decide⟩⟩

end Sys2Proof.Machine
end

