-- ==== Sys2Proof/Proofs/RequestKey.lean ====
section
/-! SUPPORT. The request key (30_encoding.md R81, R84, R102): every key is a code, a direction, a type and a recipient, and it
decodes to the one request of those, whose row is the most specific that the key matches. -/

namespace Sys2Proof

/-! ## Keys by their fields -/

/-- A key is put together from its code, direction, type and recipient (R102). -/
theorem keyWord_fields (k : Half) :
    keyWord (highByte k) (dirOfBit (k.getLsbD 7)) (k.extractLsb' 5 2) (k.extractLsb' 0 5) = k := by
  ext i hi
  simp [keyWord, highByte]
  grind

theorem exists_eq_keyWord (k : Half) : ∃ c d t r, k = keyWord c d t r := ⟨_, _, _, _, (keyWord_fields k).symm⟩

theorem keyWord_code_type_inj {c c' : Byte} {d d' : Dir} {t t' : BitVec 2} {r r' : BitVec 5}
    (h : keyWord c d t r = keyWord c' d' t' r') : c = c' ∧ t = t' := by
  refine ⟨?_, ?_⟩
  · rw [← highByte_keyWord c d t r, h, highByte_keyWord]
  · rw [← keyWord_type c d t r, h, keyWord_type]

/-- The mask of a row that names a type: the type bits stay (R102). -/
theorem keyWord_and_typeMask (c : Byte) (d : Dir) (t : BitVec 2) (r : BitVec 5) :
    keyWord c d t r &&& 0x0060 = keyWord 0 .out t 0 := Laws.TableRow.typeBits c d t r

/-- The mask of a row that names a type and a code: both stay (R102). -/
theorem keyWord_and_codeMask (c : Byte) (d : Dir) (t : BitVec 2) (r : BitVec 5) :
    keyWord c d t r &&& 0xFF60 = keyWord c .out t 0 := by
  have mask : (0xFF60 : Half) = BitVec.allOnes 8 ++ (0#1 ++ (BitVec.allOnes 2 ++ 0#5)) := by decide
  rw [mask, keyWord, BitVec.and_append, BitVec.and_append, BitVec.and_append]
  simp only [BitVec.and_allOnes, BitVec.and_zero]
  rfl

/-! ## The request a key decodes to -/

section
variable (c : Byte) (d : Dir) (r : BitVec 5)

theorem decodeKey_keyWord_standard : decodeKey (keyWord c d 0 r) = decodeStdRequest c d r := by
  simp only [decodeKey, highByte_keyWord, keyWord_dir, keyWord_type, keyWord_recipient, dirOfBit_dirBit]
  rfl

theorem decodeKey_keyWord_class : decodeKey (keyWord c d 1 r) = .classRequest c d r := by
  simp only [decodeKey, highByte_keyWord, keyWord_dir, keyWord_type, keyWord_recipient, dirOfBit_dirBit]
  rfl

theorem decodeKey_keyWord_vendor : decodeKey (keyWord c d 2 r) = .vendorRequest c d r := by
  simp only [decodeKey, highByte_keyWord, keyWord_dir, keyWord_type, keyWord_recipient, dirOfBit_dirBit]
  rfl

theorem decodeKey_keyWord_reserved : decodeKey (keyWord c d 3 r) = .reservedType c d r := by
  simp only [decodeKey, highByte_keyWord, keyWord_dir, keyWord_type, keyWord_recipient, dirOfBit_dirBit]
  rfl

theorem decodeStdRequest_other (h : stdHandled c = false) : decodeStdRequest c d r = .stdOther c d r := by
  have hc : stdHandled (BitVec.ofNat 8 c.toNat) = false := by rw [BitVec.ofNat_toNat, BitVec.setWidth_eq, h]
  unfold decodeStdRequest
  split
  case h_11 => rfl
  all_goals
    next he =>
    rw [he] at hc
    cases hc

end

end Sys2Proof

namespace Sys2Proof.Machine

/-- Settles O5: the key is the word of code, direction, type and recipient, and decoding reads the four back. -/
theorem requestRoundTrip : Obligations.RequestRoundTrip := by
  unfold Obligations.RequestRoundTrip
  intro lim i hf hw
  cases i
  case stdOther c d r =>
    have hc : stdHandled c = false := by simpa [Instr.wf] using hw
    exact (decodeKey_keyWord_standard c d r).trans (decodeStdRequest_other c d r hc)
  case classRequest c d r => exact decodeKey_keyWord_class c d r
  case vendorRequest c d r => exact decodeKey_keyWord_vendor c d r
  case reservedType c d r => exact decodeKey_keyWord_reserved c d r
  case getStatus d r | clearFeature d r | setFeature d r | setAddress d r | getDescriptor d r | setDescriptor d r =>
    exact decodeKey_keyWord_standard _ d r
  case getConfiguration d r | setConfiguration d r | getInterface d r | setInterface d r =>
    exact decodeKey_keyWord_standard _ d r
  all_goals cases hf

/-! ## Rows -/

/-- `i` is the legal request of a code, direction, type and recipient, and its row names the type, and the code where the standard
gives the code a row of its own (R84, R102). -/
structure IsRequestOf (c : Byte) (d : Dir) (t : BitVec 2) (r : BitVec 5) (i : Instr) : Prop where
  word : encodeWord i = keyWord c d t r
  wf : ∀ lim, i.wf lim = true
  row : tableRow i = if t = 0 ∧ stdHandled c = true then (keyWord c .out 0 0, 0xFF60) else (keyWord 0 .out t 0, 0x0060)

theorem decodeStdRequest_isRequestOf (c : Byte) (d : Dir) (r : BitVec 5) : IsRequestOf c d 0 r (decodeStdRequest c d r) := by
  cases h : stdHandled c with
  | false =>
    rw [decodeStdRequest_other c d r h]
    exact ⟨rfl, fun _ => by simp [Instr.wf, h], (if_neg (by simp [h])).symm⟩
  | true =>
    have hc : c ∈ [0x00#8, 0x01#8, 0x03#8, 0x05#8, 0x06#8, 0x07#8, 0x08#8, 0x09#8, 0x0A#8, 0x0B#8] := List.contains_iff_mem.1 h
    simp only [List.mem_cons, List.not_mem_nil, or_false] at hc
    rcases hc with rfl | rfl | rfl | rfl | rfl | rfl | rfl | rfl | rfl | rfl <;> exact ⟨rfl, fun _ => rfl, rfl⟩

theorem decodeKey_isRequestOf (c : Byte) (d : Dir) (t : BitVec 2) (r : BitVec 5) :
    IsRequestOf c d t r (decodeKey (keyWord c d t r)) := by
  have htypes : ∀ u : BitVec 2, u = 0 ∨ u = 1 ∨ u = 2 ∨ u = 3 := by decide
  rcases htypes t with rfl | rfl | rfl | rfl
  · rw [decodeKey_keyWord_standard]
    exact decodeStdRequest_isRequestOf c d r
  · rw [decodeKey_keyWord_class]
    exact ⟨rfl, fun _ => rfl, rfl⟩
  · rw [decodeKey_keyWord_vendor]
    exact ⟨rfl, fun _ => rfl, rfl⟩
  · rw [decodeKey_keyWord_reserved]
    exact ⟨rfl, fun _ => rfl, rfl⟩

/-- A request row names a standard code that has a row of its own, or no code but a type (R102). -/
theorem tableRow_request_cases {j : Instr} (hj : format j = .request) :
    (∃ c, stdHandled c = true ∧ tableRow j = (keyWord c .out 0 0, 0xFF60)) ∨ ∃ t, tableRow j = (keyWord 0 .out t 0, 0x0060) := by
  cases j
  case getStatus => exact .inl ⟨0x00, rfl, rfl⟩
  case clearFeature => exact .inl ⟨0x01, rfl, rfl⟩
  case setFeature => exact .inl ⟨0x03, rfl, rfl⟩
  case setAddress => exact .inl ⟨0x05, rfl, rfl⟩
  case getDescriptor => exact .inl ⟨0x06, rfl, rfl⟩
  case setDescriptor => exact .inl ⟨0x07, rfl, rfl⟩
  case getConfiguration => exact .inl ⟨0x08, rfl, rfl⟩
  case setConfiguration => exact .inl ⟨0x09, rfl, rfl⟩
  case getInterface => exact .inl ⟨0x0A, rfl, rfl⟩
  case setInterface => exact .inl ⟨0x0B, rfl, rfl⟩
  case stdOther => exact .inr ⟨0, rfl⟩
  case classRequest => exact .inr ⟨1, rfl⟩
  case vendorRequest => exact .inr ⟨2, rfl⟩
  case reservedType => exact .inr ⟨3, rfl⟩
  all_goals cases hj

/-- A request matches its own row. -/
theorem IsRequestOf.matches_row {c : Byte} {d : Dir} {t : BitVec 2} {r : BitVec 5} {i : Instr} (h : IsRequestOf c d t r i) :
    keyWord c d t r &&& (tableRow i).2 = (tableRow i).1 := by
  rw [h.row]
  split
  · next hs =>
    rw [keyWord_and_codeMask, hs.1]
  · exact keyWord_and_typeMask c d t r

/-- A key matches the row of its own request and, if that names a code, the less specific row of its type. -/
theorem IsRequestOf.row_of_matches {c : Byte} {d : Dir} {t : BitVec 2} {r : BitVec 5} {i j : Instr} (h : IsRequestOf c d t r i)
    (hj : format j = .request) (hm : keyWord c d t r &&& (tableRow j).2 = (tableRow j).1) :
    tableRow j = tableRow i ∨ ((tableRow j).2 = 0x0060 ∧ (tableRow i).2 = 0xFF60) := by
  rcases tableRow_request_cases hj with ⟨c', hc', hrow⟩ | ⟨t', hrow⟩
  · rw [hrow, keyWord_and_codeMask] at hm
    obtain ⟨rfl, rfl⟩ := keyWord_code_type_inj hm
    exact .inl (by rw [hrow, h.row, if_pos ⟨rfl, hc'⟩])
  · rw [hrow, keyWord_and_typeMask] at hm
    obtain ⟨-, rfl⟩ := keyWord_code_type_inj hm
    rw [hrow, h.row]
    split
    · exact .inr ⟨rfl, rfl⟩
    · exact .inl rfl

/-- Settles O6: every key is the word of its fields, and decodes to the request of those. -/
theorem keySelectsOneRow : Obligations.KeySelectsOneRow := by
  unfold Obligations.KeySelectsOneRow
  refine ⟨fun _ => rfl, fun k => ?_⟩
  obtain ⟨c, d, t, r, rfl⟩ := exists_eq_keyWord k
  have h := decodeKey_isRequestOf c d t r
  exact ⟨format_decodeKey _, h.wf, h.word, h.matches_row, fun _ hj hm => h.row_of_matches hj hm⟩

end Sys2Proof.Machine
end

