-- ==== Sys2Proof/Proofs/SetupPacket.lean ====
section
/-! SUPPORT. The SETUP packet (30_encoding.md R80, R81), the pseudo-events that spell one (R105), and the codes of the enumerations
(R87 to R92). -/

namespace Sys2Proof

/-! ## Bytes of a u16 -/

theorem toNat_le16 (a b : Byte) : (le16 a b).toNat = a.toNat + 256 * b.toNat := by
  have happ : le16 a b = b ++ a := by
    ext i hi
    simp [le16]
    grind
  have ha : a.toNat < 2 ^ 8 := a.isLt
  rw [happ, BitVec.toNat_append, ← Nat.shiftLeft_add_eq_or_of_lt ha, Nat.shiftLeft_eq]
  omega

theorem toNat_lowByte (h : Half) : (lowByte h).toNat = h.toNat % 256 := BitVec.extractLsb'_toNat 0 8 h

theorem toNat_highByte (h : Half) : (highByte h).toNat = h.toNat / 256 := by
  have hlt : h.toNat < 65536 := h.isLt
  rw [highByte, BitVec.extractLsb'_toNat, Nat.shiftRight_eq_div_pow]
  omega

/-! ## The packet -/

theorem parseSetup_eq_none_of_length {p : List Byte} (h : p.length ≠ 8) : parseSetup p = none := by
  unfold parseSetup
  split
  · exact absurd rfl h
  · rfl

/-- The packet of a request is read as the request (R80). -/
@[simp] theorem parseSetup_setupBytes (r : ControlRequest) : parseSetup (setupBytes r) = some r := by
  simp [parseSetup, setupBytes]

end Sys2Proof

namespace Sys2Proof.Machine

/-- The subfields of `requestType` (R81). -/
theorem toNat_requestType (q : ControlRequest) :
    q.requestType.toNat = (if reqDir q = .inn then 128 else 0) + 32 * (reqType q).toNat + (reqRecipient q).toNat := by
  have hbyte : ∀ b : Byte, b.toNat =
      (if dirOfBit (b.getLsbD 7) = .inn then 128 else 0) + 32 * (b.extractLsb' 5 2).toNat + (b.extractLsb' 0 5).toNat := by
    decide
  exact hbyte q.requestType

/-- Settles O8: parsing and laying out are inverse, and the fields are read low byte first. -/
theorem setupLayout : Obligations.SetupLayout := by
  unfold Obligations.SetupLayout
  refine ⟨fun b0 b1 b2 b3 b4 b5 b6 b7 => ?_, fun _ h => parseSetup_eq_none_of_length h, parseSetup_setupBytes, toNat_requestType⟩
  exact ⟨_, rfl, rfl, rfl, toNat_le16 b2 b3, toNat_le16 b4 b5, toNat_le16 b6 b7, by simp [setupBytes]⟩

/-! ## Pseudo-events -/

/-- The type of a request by its key (R82, R102). -/
theorem reqType_withKey (q : ControlRequest) (c : Byte) (d : Dir) (t : BitVec 2) (r : BitVec 5) :
    reqType (withKey q (keyWord c d t r)) = t := by
  have h : (lowByte (keyWord c d t r)).extractLsb' 5 2 = (keyWord c d t r).extractLsb' 5 2 := by
    ext i hi
    simp [lowByte]
  simp only [reqType, withKey, h, keyWord_type]

/-- The low byte of a key, by its subfields (R81, R102). -/
theorem toNat_lowByte_keyWord (c : Byte) (d : Dir) (t : BitVec 2) (r : BitVec 5) :
    (lowByte (keyWord c d t r)).toNat = (if d = .inn then 128 else 0) + 32 * t.toNat + r.toNat := by
  have h := toNat_requestType (withKey default (keyWord c d t r))
  rwa [reqDir_withKey, reqType_withKey, reqRecipient_withKey] at h

/-- The request key of a pseudo-event's packet spells its code, direction, type and recipient (R102, R105). -/
theorem decodeKey_of_pseudoSetup (t : BitVec 2) (c : Byte) (d : Dir) (r : BitVec 5) (v i l : Half) :
    (parseSetup (pseudoSetup t c d r v i l)).map (fun q => decodeKey (requestKey q)) = some (decodeKey (keyWord c d t r)) := by
  rw [pseudoSetup, parseSetup_setupBytes, Option.map_some, requestKey_withKey]

/-- Settles O10: the bytes are those of the key and of the three fields, and the packet's key is read by its type and code. -/
theorem pseudoEvents : Obligations.PseudoEvents := by
  unfold Obligations.PseudoEvents
  refine ⟨fun t c d r v i l => ?_, fun d r v i l => ⟨?_, fun c => ?_⟩, rfl, rfl, rfl⟩
  · simp only [pseudoSetup, setupBytes, withKey, List.map_cons, List.map_nil]
    rw [toNat_lowByte_keyWord]
    simp only [highByte_keyWord, toNat_lowByte, toNat_highByte]
  · simp only [decodeKey_of_pseudoSetup, decodeKey_keyWord_standard, List.map_cons, List.map_nil]
    rfl
  · rw [decodeKey_of_pseudoSetup, decodeKey_of_pseudoSetup, decodeKey_keyWord_class, decodeKey_keyWord_vendor]
    exact ⟨rfl, rfl⟩

/-! ## Enumerations -/

/-- Settles O9: each enumeration's codes, value by value. -/
theorem enumCodes : Obligations.EnumCodes := by
  unfold Obligations.EnumCodes
  refine ⟨⟨rfl, rfl, fun c => ?_⟩, ⟨rfl, rfl, fun c => ?_⟩, ⟨rfl, rfl, fun c => ?_⟩, ⟨rfl, fun c => ?_⟩,
    ⟨rfl, deviceEventOfCode_deviceEventCode⟩, rfl, fun c => ?_⟩
  all_goals cases c <;> rfl

end Sys2Proof.Machine
end

