-- ==== Sys2Proof/Proofs/RequestAlone.lean ====
section
/-! SUPPORT. Dispatch with a given request does not look at the SETUP register (40_control_engine.md R124 to R130,
41_request_dispatcher.md R171 to R186), so a request row executed by itself is Dispatch with the row's key in it (log 12). -/

namespace Sys2Proof.Machine

/-! ## Procedures that do not look at the SETUP register -/

/-- `s` with another SETUP register. -/
def State.withSetup (q : ControlRequest) (s : State) : State := { s with setup := q }

/-- The same behind a result. -/
def withSetupBehind {β : Type} (q : ControlRequest) (r : β × State) : β × State := (r.1, r.2.withSetup q)

/-- The end of a procedure with another SETUP register; `put` says where its result holds one. -/
def Flow.withSetup {α : Type} (put : ControlRequest → α → α) (q : ControlRequest) : Flow α → Flow α
  | .ok a => .ok (put q a)
  | .raised e s => .raised e (s.withSetup q)
  | .refused r s => .refused r (s.withSetup q)

/-- `f` neither reads nor writes the SETUP register. -/
def SetupBlind {α : Type} (put : ControlRequest → α → α) (f : State → Flow α) : Prop :=
  ∀ (q : ControlRequest) (s : State), f (s.withSetup q) = (f s).withSetup put q

theorem Flow.bind_withSetup {α β : Type} {put : ControlRequest → α → α} {put' : ControlRequest → β → β} {q : ControlRequest}
    {x x' : Flow α} {g g' : α → Flow β} (hx : x' = x.withSetup put q)
    (hg : ∀ a, g' (put q a) = (g a).withSetup put' q) : x'.bind g' = (x.bind g).withSetup put' q := by
  rw [hx]
  cases x with
  | ok a => exact hg a
  | raised e t => rfl
  | refused r t => rfl

/-- The end of a step with another SETUP register: recovery and refusal do not look at it either (R303, R312). -/
theorem finish_withSetup {x : Flow State} {t : State} (h : finish x = .next t) (q : ControlRequest) :
    finish (x.withSetup State.withSetup q) = .next (t.withSetup q) := by
  rcases finish_eq_next h with rfl | ⟨e, u, rfl, rfl⟩ | ⟨r, u, rfl, rfl⟩ <;> rfl

/-! ## Callbacks -/

theorem drawAnswer_withSetup (q : ControlRequest) (s : State) :
    drawAnswer (s.withSetup q) = withSetupBehind q (drawAnswer s) := by
  unfold drawAnswer
  cases h : s.env.answers <;> simp [State.withSetup, withSetupBehind, h]

theorem drawWritten_withSetup (q : ControlRequest) (s : State) :
    drawWritten (s.withSetup q) = withSetupBehind q (drawWritten s) := by
  unfold drawWritten
  cases h : s.env.writeResults <;> simp [State.withSetup, withSetupBehind, h]

theorem drawRead_withSetup (q : ControlRequest) (s : State) : drawRead (s.withSetup q) = withSetupBehind q (drawRead s) := by
  unfold drawRead
  cases h : s.env.readResults <;> simp [State.withSetup, withSetupBehind, h]

theorem drawInfo_withSetup (q : ControlRequest) (s : State) : drawInfo (s.withSetup q) = withSetupBehind q (drawInfo s) := by
  unfold drawInfo
  cases h : s.env.infoResults <;> simp [State.withSetup, withSetupBehind, h]

theorem nestedBody_setupBlind (i : Instr) : SetupBlind State.withSetup (nestedBody i) := by
  intro q s
  cases i
  case epWrite ep bytes =>
    simp only [nestedBody, bodyEpWrite, drawWritten_withSetup]
    rfl
  case epRead ep =>
    simp only [nestedBody, bodyEpRead, drawRead_withSetup]
    rfl
  case getInfo =>
    simp only [nestedBody, bodyGetInfo, drawInfo_withSetup]
    rfl
  case regEvent e h => cases e <;> rfl
  all_goals rfl

theorem runCall_setupBlind (c : Input) : SetupBlind State.withSetup (runCall c) := by
  intro q s
  have he : earlyRefusal c.word (s.withSetup q) = earlyRefusal c.word s := rfl
  have hl : (s.withSetup q).limits = s.limits := rfl
  have ha : ∀ i, admission i (s.withSetup q) = admission i s := fun _ => rfl
  simp only [runCall, he, hl, ha]
  split
  · rfl
  · split
    · rfl
    · split
      · rfl
      · exact nestedBody_setupBlind _ q s

theorem runCalls_setupBlind : ∀ cs : List Input, SetupBlind State.withSetup (runCalls cs)
  | [] => fun _ _ => rfl
  | c :: cs => fun q s => Flow.bind_withSetup (runCall_setupBlind c q s) fun t => runCalls_setupBlind cs q t

theorem ask_setupBlind (c : Call) : SetupBlind withSetupBehind (ask c) := by
  intro q s
  have hd : drawAnswer ((s.withSetup q).emit (.call c)) = withSetupBehind q (drawAnswer (s.emit (.call c))) :=
    drawAnswer_withSetup q (s.emit (.call c))
  simp only [ask, hd]
  exact Flow.bind_withSetup (runCalls_setupBlind _ q ((drawAnswer (s.emit (.call c))).2.setCtx .inCallback)) fun _ => rfl

/-! ## Request rules -/

theorem askSlot_setupBlind (slot : State → Option HandlerId) (hslot : ∀ (q : ControlRequest) s, slot (s.withSetup q) = slot s)
    (mk : HandlerId → Call) : SetupBlind withSetupBehind fun s => askSlot (slot s) mk s := by
  intro q s
  dsimp only
  rw [hslot]
  cases slot s with
  | none => rfl
  | some h => exact Flow.bind_withSetup (ask_setupBlind (mk h) q s) fun _ => rfl

section
variable (req : ControlRequest) (bs : List Byte)

theorem ruleGetStatus_setupBlind : SetupBlind withSetupBehind (ruleGetStatus req bs) := by
  intro q s
  have hb : statusBytes req (s.withSetup q) = statusBytes req s := rfl
  simp only [ruleGetStatus, hb]
  split <;> rfl

theorem ruleClearFeature_setupBlind : SetupBlind withSetupBehind (ruleClearFeature req bs) := by
  intro q s
  have he : featureEndpoint req (s.withSetup q) = featureEndpoint req s := rfl
  simp only [ruleClearFeature, he]
  split <;> rfl

theorem ruleSetFeature_setupBlind : SetupBlind withSetupBehind (ruleSetFeature req bs) := by
  intro q s
  have he : featureEndpoint req (s.withSetup q) = featureEndpoint req s := rfl
  simp only [ruleSetFeature, he]
  split <;> rfl

theorem ruleSetAddress_setupBlind : SetupBlind withSetupBehind (ruleSetAddress req bs) := by
  intro q s
  have hd : (s.withSetup q).deviceState = s.deviceState := rfl
  simp only [ruleSetAddress, hd]
  split
  · rfl
  · split <;> rfl

theorem ruleSetConfiguration_setupBlind : SetupBlind withSetupBehind (ruleSetConfiguration req bs) := by
  intro q s
  have hd : (s.withSetup q).deviceState = s.deviceState := rfl
  have hcb : (s.withSetup q).configCb = s.configCb := rfl
  simp only [ruleSetConfiguration, hd, hcb]
  split
  · rfl
  · split
    · rfl
    · split
      · rfl
      · next h _ =>
        refine Flow.bind_withSetup (ask_setupBlind (.config h (lowByte req.value)) q s) fun r => ?_
        dsimp only [withSetupBehind]
        split <;> rfl

theorem ruleSetInterface_setupBlind : SetupBlind withSetupBehind (ruleSetInterface req bs) := by
  intro q s
  simp only [ruleSetInterface]
  split <;> rfl

/-- Every rule, by its row (R170). -/
theorem ruleOf_setupBlind (i : Instr) : SetupBlind withSetupBehind (ruleOf i req bs) := by
  cases i
  case getStatus => exact ruleGetStatus_setupBlind req bs
  case clearFeature => exact ruleClearFeature_setupBlind req bs
  case setFeature => exact ruleSetFeature_setupBlind req bs
  case setAddress => exact ruleSetAddress_setupBlind req bs
  case setConfiguration => exact ruleSetConfiguration_setupBlind req bs
  case setInterface => exact ruleSetInterface_setupBlind req bs
  case getDescriptor | setDescriptor => exact askSlot_setupBlind State.descriptorCb (fun _ _ => rfl) _
  case classRequest | vendorRequest => exact askSlot_setupBlind State.controlCb (fun _ _ => rfl) _
  all_goals exact fun _ _ => rfl

/-! ## Outcomes -/

theorem bufRead_setupBlind (addr n : Nat) : SetupBlind (fun _ a => a) (bufRead addr n) := by
  intro q s
  have hcap : (s.withSetup q).maxDataSize = s.maxDataSize := rfl
  simp only [bufRead, hcap]
  split <;> rfl

theorem bufWrite_setupBlind (addr : Nat) (ds : List Byte) : SetupBlind State.withSetup (bufWrite addr ds) := by
  intro q s
  have hcap : (s.withSetup q).maxDataSize = s.maxDataSize := rfl
  simp only [bufWrite, hcap]
  split <;> rfl

theorem sendNext_setupBlind : SetupBlind State.withSetup sendNext := by
  intro q s
  exact Flow.bind_withSetup (bufRead_setupBlind s.dataCursor.toNat (nextPacket s) q s) fun _ => rfl

theorem ackIn_setupBlind (data : Option (List Byte)) (c : Option Token) : SetupBlind State.withSetup (ackIn req data c) := by
  intro q s
  cases data with
  | none => rfl
  | some d =>
    have hcap : (s.withSetup q).maxDataSize = s.maxDataSize := rfl
    simp only [ackIn, hcap]
    split
    · rfl
    · exact Flow.bind_withSetup (bufWrite_setupBlind 0 _ q { s with pending := .none, completion := c }) fun t =>
        sendNext_setupBlind q
          { t with
            totalLen := u32 (min d.length req.length.toNat)
            dataCursor := 0
            transferredCount := 0
            controlState := inDataState d.length req.length.toNat }

theorem applyOutcome_setupBlind (o : ReqOutcome) : SetupBlind State.withSetup (applyOutcome req o) := by
  intro q s
  cases o with
  | fail e => rfl
  | nak => rfl
  | ack data c =>
    simp only [applyOutcome]
    split
    · exact ackIn_setupBlind req data c q s
    · rfl

/-- Dispatch takes the request it is given, not the one in the SETUP register (R124). -/
theorem dispatchWith_setupBlind (i : Instr) : SetupBlind State.withSetup (dispatchWith req (ruleOf i)) := by
  intro q s
  have hout : (if hasOutData req then bufRead 0 req.length.toNat (s.withSetup q) else .ok []) =
      (if hasOutData req then bufRead 0 req.length.toNat s else .ok []).withSetup (fun _ a => a) q := by
    split
    · exact bufRead_setupBlind _ _ q s
    · rfl
  exact Flow.bind_withSetup hout fun ds => Flow.bind_withSetup (ruleOf_setupBlind req ds i q s) fun r =>
    applyOutcome_setupBlind req r.1 q r.2

end

/-! ## The statement -/

/-- Settles O55: both runs dispatch the same request, and Dispatch does not look at the SETUP register. -/
theorem requestAlone : Obligations.RequestAlone := by
  unfold Obligations.RequestAlone
  intro i s hf hr
  obtain ⟨t, ht⟩ := finish_isNext (dispatchWith (withKey s.setup (encodeWord i)) (ruleOf i) s)
  have hexec : ∀ q, withKey q (encodeWord i) = withKey s.setup (encodeWord i) →
      exec i (s.withSetup q) = .next (t.withSetup q) := by
    intro q hq
    have hr' : (s.withSetup q).refused = false := hr
    have hreq : withKey (s.withSetup q).setup (encodeWord i) = withKey s.setup (encodeWord i) := hq
    rw [exec_request hf, runRequest, hr', hreq, dispatchWith_setupBlind]
    exact finish_withSetup ht q
  refine ⟨⟨t.withSetup (withKey s.setup (encodeWord i)), hexec _ rfl, hexec s.setup rfl⟩, fun ho hlen => ?_⟩
  · have hread : bufRead 0 (withKey s.setup (encodeWord i)).length.toNat s = .refused .bufferBounds s :=
      bufRead_outside (by rw [Nat.zero_add]; exact hlen)
    rw [exec_request hf, runRequest, hr, dispatchWith, if_pos ho, hread]
    rfl

end Sys2Proof.Machine
end

