-- ==== Sys2Proof/Proofs/EngineEvents.lean ====
section
/-! SUPPORT. The three EP0 events of the Control Transfer Engine by themselves (40_control_engine.md R121 to R140): a legal one is its
body, and each body ends in the state the rules name. -/

namespace Sys2Proof.Machine

/-! ## A legal event runs its body -/

theorem length_of_parseSetup {p : List Byte} {r : ControlRequest} (h : parseSetup p = some r) : p.length = 8 :=
  Classical.byContradiction fun hn => by simp [parseSetup_eq_none_of_length hn] at h

section
variable {p : List Byte} {s : State} (hr : s.refused = false)
include hr

theorem exec_evtSetup_legal (hp : p.length ≤ 64) : exec (.evtSetup p) s = finish (bodyEvtSetup p s) :=
  runEvent_legal _ hr (decide_eq_true hp)

/-- A packet that parses is 8 bytes long, so it is legal (R95, R122). -/
theorem exec_evtSetup_parsed {r : ControlRequest} (hp : parseSetup p = some r) :
    exec (.evtSetup p) s =
      finish (if hasOutData r = true then beginOut (setupState p r s) else dispatch (setupState p r s)) := by
  rw [exec_evtSetup_legal hr (by simp [length_of_parseSetup hp]), bodyEvtSetup_parsed hp]

theorem exec_evtEp0Rx_legal (hn : 0 < s.cfg.numEp) (hp : p.length ≤ s.ep0PacketSize.toNat) :
    exec (.evtEp0Rx p) s = finish (bodyEvtEp0Rx p s) :=
  runEvent_legal _ hr (by simp [Instr.wf, State.limits, hn, hp])

theorem exec_evtEp0Tx_legal (hn : 0 < s.cfg.numEp) : exec .evtEp0Tx s = finish (bodyEvtEp0Tx s) :=
  runEvent_legal _ hr (decide_eq_true hn)

/-- A dispatch that ends a step is the request in the SETUP register by itself: its key is already there (R124, log 12). -/
theorem finish_dispatch : finish (dispatch s) = exec (decodeKey (requestKey s.setup)) s := by
  obtain ⟨-, -, hword, -⟩ := keySelectsOneRow.2 (requestKey s.setup)
  rw [exec_request (format_decodeKey _), runRequest, hr, hword, withKey_requestKey]
  rfl

end

/-! ## EVT_SETUP -/

/-- An OUT data stage that fits is awaited (R123). -/
theorem beginOut_fits {s : State} (h : s.setup.length.toNat ≤ s.maxDataSize.toNat) :
    beginOut s =
      .ok
        { s with
          totalLen := s.setup.length.setWidth 32
          dataCursor := 0
          transferredCount := 0
          controlState := .rxData } := by
  rw [beginOut, if_neg (Nat.not_lt.2 h), u32, BitVec.ofNat_toNat]

/-- Settles O24: the body parses and dispatches, and that dispatch is the request by itself. -/
theorem setupDispatches : Obligations.SetupDispatches := by
  unfold Obligations.SetupDispatches
  intro p r s hr hp ho
  rw [exec_evtSetup_parsed hr hp, ho]
  exact finish_dispatch (s := setupState p r s) hr

/-- Settles O25: BeginOut by whether the data stage fits the buffer; a packet of another length does not parse. -/
theorem setupBeginsOut : Obligations.SetupBeginsOut := by
  unfold Obligations.SetupBeginsOut
  intro p s hr
  refine ⟨fun r hp ho => ⟨fun hfit => ?_, fun hlong => ?_⟩, fun hlen hle => ?_⟩
  · rw [exec_evtSetup_parsed hr hp, if_pos ho, beginOut_fits hfit]
    rfl
  · rw [exec_evtSetup_parsed hr hp, if_pos ho, beginOut, if_pos (by exact hlong), finish_raised, recover_eq]
    rfl
  · rw [exec_evtSetup_legal hr hle, bodyEvtSetup_unparsed (parseSetup_eq_none_of_length hlen), finish_raised, recover_eq]
    rfl

/-! ## CompleteTransfer -/

theorem addressedState_env (s : State) : (addressedState s).env = s.env := by
  unfold addressedState
  split <;> rfl

theorem addressedState_ctx (s : State) : (addressedState s).ctx = s.ctx := by
  unfold addressedState
  split <;> rfl

/-- CompleteTransfer with a completion token: the address first, then the callback with the token cleared (R140). -/
theorem completeTransfer_token {s : State} {tok : Token} (hc : s.completion = some tok) :
    completeTransfer s = notify (.complete tok s.setup) { addressedState s with completion := none } := by
  rw [completeTransfer, applyAddress_eq, addressedState]
  cases s.pendingAddress <;> simp only [hc]

/-- CompleteTransfer with a completion token and a scripted answer (R140, R266). -/
theorem completeTransfer_scripted {s u : State} {tok : Token} {a : HandlerAnswer} {rest : List HandlerAnswer}
    (hc : s.completion = some tok) (ha : s.env.answers = a :: rest)
    (hu : runCalls a.calls (calledState (.complete tok s.setup) rest { addressedState s with completion := none }) = .ok u) :
    completeTransfer s = .ok (u.setCtx s.ctx) := by
  have ha' : (addressedState s).env.answers = a :: rest := by rw [addressedState_env, ha]
  rw [completeTransfer_token hc, notify_scripted (s := { addressedState s with completion := none }) ha' hu,
    addressedState_ctx]

/-! ## EVT_EP0_RX -/

/-- Settles O26: the packet is measured against the total, then against the packet size. -/
theorem rxInRxData : Obligations.RxInRxData := by
  unfold Obligations.RxInRxData
  intro p s hr hn hp hpend hc hcur hcap
  have hbody : exec (.evtEp0Rx p) s = finish (rxInData p (s.emit (.readEndpoint ep0Out p))) := by
    rw [exec_evtEp0Rx_legal hr hn hp, bodyEvtEp0Rx_rxData hpend hc]
  have hfits (hle : s.transferredCount.toNat + p.length ≤ s.totalLen.toNat) :=
    rxInData_fits (s := s.emit (.readEndpoint ep0Out p)) hle
      (by rw [State.emit_dataCursor, hcur]; exact hle.trans hcap)
  refine ⟨fun hover => ?_, fun hdone => ?_, fun hmiss hshort => ?_, fun hmiss hfull => ?_⟩
  · rw [hbody, rxInData, if_pos (by exact hover), finish_raised, recover_eq]
    rfl
  · rw [hbody, hfits hdone.le, if_pos (by exact hdone)]
    exact finish_dispatch (s := receivedState p s) hr
  · rw [hbody, hfits hmiss.le, if_neg (by exact hmiss.ne), if_pos (by exact hshort), finish_raised, recover_eq]
    rfl
  · rw [hbody, hfits hmiss.le, if_neg (by exact hmiss.ne), if_neg (by exact hfull.not_lt)]
    rfl

/-- Settles O27: an empty status packet completes the transfer, any other is a violation. -/
theorem rxInStatusOut : Obligations.RxInStatusOut := by
  unfold Obligations.RxInStatusOut
  intro p s hr hn hp hpend hc
  rw [exec_evtEp0Rx_legal hr hn hp, bodyEvtEp0Rx_statusOut hpend hc, rxInStatus]
  refine ⟨fun hempty hcomp => ?_, fun hdata => ?_⟩
  · rw [if_neg (not_not.2 hempty), completeTransfer_silent (by exact hcomp)]
    rfl
  · rw [if_pos hdata, finish_raised, recover_eq]
    rfl

/-- Settles O28: the body raises after the read. -/
theorem rxUnexpected : Obligations.RxUnexpected := by
  unfold Obligations.RxUnexpected
  intro p s hr hn hp h
  rw [exec_evtEp0Rx_legal hr hn hp, bodyEvtEp0Rx_unexpected h, finish_raised, recover_eq]
  rfl

/-! ## EVT_EP0_TX -/

/-- Settles O29: the packet is a part of what is missing, so it lies inside the buffer. -/
theorem txSendsNext : Obligations.TxSendsNext := by
  unfold Obligations.TxSendsNext
  intro s hr hn hpend hc hcur hle hcap
  have hfit : s.dataCursor.toNat + nextPacket s ≤ s.maxDataSize.toNat := by
    rw [hcur, nextPacket]
    omega
  rw [exec_evtEp0Tx_legal hr hn, bodyEvtEp0Tx_data hpend hc, sendNext_fits hfit]
  rfl

/-- Settles O30: the body by the stage it finds. -/
theorem txElsewhere : Obligations.TxElsewhere := by
  unfold Obligations.TxElsewhere
  intro s hr hn
  rw [exec_evtEp0Tx_legal hr hn]
  refine ⟨fun hpend hc => ?_, fun hpend hc hcomp => ?_, fun h => ?_⟩
  · rw [bodyEvtEp0Tx_lastData hpend hc, finish_ok]
  · rw [bodyEvtEp0Tx_statusIn hpend hc, completeTransfer_silent (by exact hcomp), finish_ok]
  · rw [bodyEvtEp0Tx_unexpected h, finish_raised, recover_eq]
    rfl

/-- Settles O31: both status stages end in CompleteTransfer, from Idle. -/
theorem completionCallback : Obligations.CompletionCallback := by
  unfold Obligations.CompletionCallback
  intro s u tok a rest hr hn hpend hcomp hans
  refine ⟨fun hc hu => ?_, fun hc hu => ?_⟩
  · rw [exec_evtEp0Tx_legal hr hn, bodyEvtEp0Tx_statusIn hpend hc,
      completeTransfer_scripted (s := { s with controlState := .idle }) hcomp hans hu]
    rfl
  · rw [exec_evtEp0Rx_legal hr hn (Nat.zero_le _), bodyEvtEp0Rx_statusOut hpend hc, rxInStatus, if_neg (not_not.2 rfl),
      completeTransfer_scripted (s := { s.emit (.readEndpoint ep0Out []) with controlState := .idle }) hcomp hans hu]
    rfl

end Sys2Proof.Machine
end

