-- ==== Sys2Proof/Proofs/NakRetry.lean ====
section
/-! SUPPORT. The retry of a class or vendor request that is answered Nak (40_control_engine.md R126, 41_request_dispatcher.md R173,
42_event_dispatcher.md R220). -/

namespace Sys2Proof.Machine

/-! ## The poll cycle without events -/

/-- POLL is admitted outside a callback of an initialised block (R256). -/
theorem admission_poll (batch : List EventInput) {s : State} (hi : s.initialised = true) (hx : s.ctx = .normal) :
    admission (.poll batch) s = none := by
  simp [admission, earlyRefusal, hi, hx, Instr.wf, endpointRefusal, commandEndpoint]

theorem exec_poll_admitted (batch : List EventInput) {s : State} (hs : s.ready) (hx : s.ctx = .normal) :
    exec (.poll batch) s = finish (bodyPoll batch s) := by
  obtain ⟨hr, hi⟩ := hs
  exact runCommand_admitted _ hr (admission_poll batch hi hx)

/-- Without an event POLL is its retry and the count 0 (R210, R221). -/
theorem bodyPoll_nil {s : State} (hq : s.env.eventQueue = []) :
    bodyPoll [] s = (retry s).bind fun t => .ok { t with returned := .events 0 } := by
  have hs : { s with env := { s.env with eventQueue := [] } } = s := by rw [← hq]
  simp only [bodyPoll, hq, List.append_nil, takeEvents_nil, hs, Flow.bind_ok, List.length_nil]

/-! ## Class and vendor requests -/

/-- The type bits of a request's key are the request's (R82, R102). -/
theorem requestKey_type (r : ControlRequest) : (requestKey r).extractLsb' 5 2 = reqType r := by
  have h := reqType_withKey r (highByte (requestKey r)) (dirOfBit ((requestKey r).getLsbD 7))
    ((requestKey r).extractLsb' 5 2) ((requestKey r).extractLsb' 0 5)
  rw [keyWord_fields, withKey_requestKey] at h
  exact h.symm

/-- Every class and vendor request asks the control callback (R173). -/
theorem ruleOf_decodeKey_control {r : ControlRequest} (h : reqType r = 1 ∨ reqType r = 2) :
    ruleOf (decodeKey (requestKey r)) = askControl := by
  rcases h with h | h <;> simp only [decodeKey, requestKey_type, h] <;> rfl

/-- A callback that issues no command and answers Nak (R126, R264). -/
theorem dispatch_control_nak {s : State} {h : HandlerId} {a : HandlerAnswer} {rest : List HandlerAnswer}
    (ht : reqType s.setup = 1 ∨ reqType s.setup = 2) (hf : outDataFits s.setup s) (hcb : s.controlCb = some h)
    (ha : s.env.answers = a :: rest) (hnak : a.respond = .nak) (hcalls : a.calls = []) :
    dispatch s =
      .ok { askedState (.control h s.setup (outDataOf s.setup s)) rest s with pending := .fresh } := by
  have hrun : runCalls a.calls (calledState (.control h s.setup (outDataOf s.setup s)) rest s) =
      .ok (calledState (.control h s.setup (outDataOf s.setup s)) rest s) := by rw [hcalls, runCalls_nil]
  rw [dispatch, dispatchWith_fits _ hf, ruleOf_decodeKey_control ht, askControl, hcb, askSlot, ask_scripted ha hrun,
    Flow.bind_ok, Flow.bind_ok, normalise, hnak]
  rfl

/-- Settles O23: the dispatch leaves the Nak FRESH, and the end of the retry arms it again. -/
theorem nakStaysPut : Obligations.NakStaysPut := by
  unfold Obligations.NakStaysPut
  intro s h a rest hs hx hq hp ht hf hcb ha hnak hcalls
  rw [exec_poll_admitted [] hs hx, bodyPoll_nil hq, retry_armed hp, dispatch_control_nak ht hf hcb ha hnak hcalls, caught_ok,
    Flow.bind_ok, Flow.bind_ok, finish_ok, armPending, if_pos rfl, askedState, ← hp]

end Sys2Proof.Machine
end

