-- ==== Sys2Proof/Proofs/ZlpRule.lean ====
section
/-! SUPPORT. The packets of an IN data stage (40_control_engine.md R130, R136, R144): `k` TX events after the first packet the block
has sent packet `k`, and the packet that the ZLP rule makes the last one leads to LastData. -/

namespace Sys2Proof.Machine

/-! ## The packets by number -/

/-- How many packets the response `d` to a request for `L` bytes makes (R144). -/
def inCount (L M : Nat) (d : List Byte) : Nat :=
  min d.length L / M + if min d.length L % M ≠ 0 ∨ d.length < L then 1 else 0

/-- Packet `k`: at most `M` bytes of the response, from `k * M` on. -/
def inPacket (L M : Nat) (d : List Byte) (k : Nat) : List Byte := ((d.take (min d.length L)).drop (k * M)).take M

/-- A full packet is not cut by the end of the response. -/
theorem inPacket_full {L M k : Nat} {d : List Byte} (hk : k < min d.length L / M) :
    inPacket L M d k = (d.drop (k * M)).take M := by
  have hle : (k + 1) * M ≤ min d.length L := Nat.mul_le_of_le_div M _ _ hk
  rw [Nat.succ_mul] at hle
  rw [inPacket, List.drop_take, List.take_take, Nat.min_eq_left (by omega)]

/-- The last packet, after the full ones, is what is left. -/
theorem inPacket_rest {L M : Nat} {d : List Byte} (hM : 0 < M) :
    inPacket L M d (min d.length L / M) = (d.take (min d.length L)).drop (min d.length L / M * M) := by
  refine List.take_of_length_le ?_
  have hdiv := Nat.div_add_mod' (min d.length L) M
  have hmod := Nat.mod_lt (min d.length L) hM
  rw [List.length_drop, List.length_take]
  omega

/-- The packets of R144 are those that the block sends (R130). -/
theorem inPackets_eq {L M : Nat} {d : List Byte} (hM : 0 < M) :
    inPackets L M d = (List.range (inCount L M d)).map (inPacket L M d) := by
  have hfull : (List.range (min d.length L / M)).map (fun k => (d.drop (k * M)).take M) =
      (List.range (min d.length L / M)).map (inPacket L M d) :=
    List.map_congr_left fun k hk => (inPacket_full (List.mem_range.1 hk)).symm
  rw [inPackets, inCount, hfull]
  by_cases hmod : min d.length L % M = 0
  · have hempty : inPacket L M d (min d.length L / M) = [] := by
      rw [inPacket_rest hM, Nat.div_mul_cancel (Nat.dvd_of_mod_eq_zero hmod), List.drop_take, Nat.sub_self, List.take_zero]
    by_cases hlt : d.length < L
    · simp [hmod, hlt, List.range_succ, hempty]
    · simp [hmod, hlt]
  · simp [hmod, List.range_succ, inPacket_rest hM]

/-- Before the last packet every packet is full, so the packets before packet `k` are `k * M` bytes. -/
theorem mul_le_of_lt_inCount {L M k : Nat} {d : List Byte} (hk : k < inCount L M d) : k * M ≤ min d.length L := by
  refine Nat.mul_le_of_le_div M k _ ?_
  unfold inCount at hk
  split at hk <;> omega

/-- Packet `k` is the last one exactly where SendNext goes to LastData (R130): everything is sent, and either no ZLP is due or the
packet is short. -/
theorem succ_eq_inCount_iff {L M k : Nat} {d : List Byte} (hM : 0 < M) (hk : k < inCount L M d) :
    (k * M + min (min d.length L - k * M) M = min d.length L ∧
        (¬ d.length < L ∨ min (min d.length L - k * M) M ≠ M)) ↔ k + 1 = inCount L M d := by
  have hle := mul_le_of_lt_inCount hk
  unfold inCount at hk ⊢
  have hdiv := Nat.div_add_mod' (min d.length L) M
  have hmod := Nat.mod_lt (min d.length L) hM
  generalize min d.length L = t at *
  have hsucc : (k + 1) * M = k * M + M := Nat.succ_mul k M
  rcases Nat.lt_trichotomy (k + 1) (t / M) with hlt | heq | hgt
  · have hnext : (k + 1 + 1) * M ≤ t / M * M := Nat.mul_le_mul_right M hlt
    rw [Nat.succ_mul] at hnext
    split <;> omega
  · rw [← heq] at hdiv ⊢
    split <;> omega
  · have hkq : k = t / M := by
      split at hk <;> omega
    have hrest : t % M ≠ 0 ∨ d.length < L := by
      by_contra hn
      rw [if_neg hn] at hk
      omega
    rw [if_pos hrest, ← hkq]
    rw [← hkq] at hdiv
    omega

/-! ## The block by the number of the last packet sent -/

/-- The state in which packet `k` has just been sent (R130). -/
def inStageState (L : Nat) (d : List Byte) (c : Option Token) (s : State) (k : Nat) : State :=
  { responseState L d c s with
    dataCursor := u32 (min (k * s.ep0PacketSize.toNat + s.ep0PacketSize.toNat) (min d.length L))
    transferredCount := u32 (min (k * s.ep0PacketSize.toNat + s.ep0PacketSize.toNat) (min d.length L))
    controlState := if k + 1 = inCount L s.ep0PacketSize.toNat d then .lastData else inDataState d.length L
    trace :=
      s.trace ++ (List.range (k + 1)).map fun j => .writeEndpoint ep0In (inPacket L s.ep0PacketSize.toNat d j) none }

section
variable {L : Nat} {d : List Byte} (c : Option Token) {s : State}

theorem inDataState_eq_txData_iff : inDataState d.length L = .txData ↔ ¬ d.length < L := by
  unfold inDataState
  split <;> simp_all

theorem inStageState_not_last {k : Nat} (hk : k + 1 < inCount L s.ep0PacketSize.toNat d) :
    (inStageState L d c s k).controlState = inDataState d.length L := if_neg hk.ne

/-- Before the last packet the count is that of full packets. -/
theorem inStageState_count {k : Nat} (hL : L < 65536) (hk : k + 1 < inCount L s.ep0PacketSize.toNat d) :
    (inStageState L d c s k).transferredCount.toNat = (k + 1) * s.ep0PacketSize.toNat := by
  have hle := mul_le_of_lt_inCount hk
  have hcount : (inStageState L d c s k).transferredCount.toNat = min ((k + 1) * s.ep0PacketSize.toNat) (min d.length L) := by
    rw [Nat.succ_mul]
    exact u32_toNat (by omega)
  rw [hcount, Nat.min_eq_left hle]

theorem inStageState_total {k : Nat} (hL : L < 65536) : (inStageState L d c s k).totalLen.toNat = min d.length L :=
  u32_toNat (by omega)

/-- The buffer of the IN data stage holds the response, so what is read at packet `k` is packet `k` (R127, R130). -/
theorem memGetAll_response (hm : memWf s.dataBuffer = true) {k : Nat}
    (hk : k * s.ep0PacketSize.toNat ≤ min d.length L) :
    memGetAll (memPutAll s.dataBuffer 0 (d.take (min d.length L))) (k * s.ep0PacketSize.toNat)
        (min (min d.length L - k * s.ep0PacketSize.toNat) s.ep0PacketSize.toNat) =
      inPacket L s.ep0PacketSize.toNat d k := by
  have hlen : (d.take (min d.length L)).length = min d.length L := by simp
  rw [memGetAll_memPutAll hm _ _ _ (by rw [hlen]; omega), inPacket, List.take_eq_take_iff, List.length_drop, hlen]
  omega

/-- The first packet goes with the Ack (R127). -/
theorem inStageState_zero (hM : 0 < s.ep0PacketSize.toNat) (hk : 0 < inCount L s.ep0PacketSize.toNat d) :
    inStageState L d c s 0 = responseState L d c s := by
  have hlast := succ_eq_inCount_iff hM hk
  have hpacket : inPacket L s.ep0PacketSize.toNat d 0 = d.take (min (min d.length L) s.ep0PacketSize.toNat) := by
    rw [inPacket, Nat.zero_mul, List.drop_zero, List.take_take, Nat.min_comm]
  simp only [Nat.zero_mul, Nat.zero_add, Nat.sub_zero, Nat.not_lt] at hlast
  simp only [inStageState, responseState, Nat.zero_mul, Nat.zero_add, Nat.min_comm s.ep0PacketSize.toNat, List.range_one,
    List.map_cons, List.map_nil, hpacket, ← hlast, inDataState]

/-- What SendNext sends after packet `k` is packet `k + 1` (R130). -/
theorem sentState_inStageState (hm : memWf s.dataBuffer = true) (hM : 0 < s.ep0PacketSize.toNat) (hL : L < 65536) {k : Nat}
    (hk : k + 1 < inCount L s.ep0PacketSize.toNat d) :
    sentState (min (min d.length L - (k + 1) * s.ep0PacketSize.toNat) s.ep0PacketSize.toNat) (inStageState L d c s k) =
      inStageState L d c s (k + 1) := by
  have hle := mul_le_of_lt_inCount hk
  have hcount := inStageState_count c hL hk
  have hcursor : (inStageState L d c s k).dataCursor.toNat = (k + 1) * s.ep0PacketSize.toNat := hcount
  have hsize : (inStageState L d c s k).ep0PacketSize = s.ep0PacketSize := rfl
  have hpacket : memGetAll (inStageState L d c s k).dataBuffer ((k + 1) * s.ep0PacketSize.toNat)
      (min (min d.length L - (k + 1) * s.ep0PacketSize.toNat) s.ep0PacketSize.toNat) =
        inPacket L s.ep0PacketSize.toNat d (k + 1) := memGetAll_response hm hle
  have hsum : (k + 1) * s.ep0PacketSize.toNat + min (min d.length L - (k + 1) * s.ep0PacketSize.toNat) s.ep0PacketSize.toNat =
      min ((k + 1) * s.ep0PacketSize.toNat + s.ep0PacketSize.toNat) (min d.length L) := by omega
  have hlast := succ_eq_inCount_iff hM hk
  rw [hsum] at hlast
  rw [sentState, hsize, hcursor, hcount, inStageState_total c hL, inStageState_not_last c hk, hpacket]
  simp only [hsum, inDataState_eq_txData_iff, hlast]
  rw [inStageState, inStageState, List.range_succ (n := k + 1), List.map_append, ← List.append_assoc]
  rfl

variable (hr : s.refused = false) (hn : 0 < s.cfg.numEp) (hm : memWf s.dataBuffer = true) (hM : 0 < s.ep0PacketSize.toNat)
  (hL : L < 65536) (hcap : min d.length L ≤ s.maxDataSize.toNat)
include hr hn hm hM hL hcap

/-- A TX event sends the next packet (R136). -/
theorem exec_evtEp0Tx_inStageState {k : Nat} (hk : k + 1 < inCount L s.ep0PacketSize.toNat d) :
    exec .evtEp0Tx (inStageState L d c s k) = .next (inStageState L d c s (k + 1)) := by
  have hstage : (inStageState L d c s k).controlState = .txData ∨ (inStageState L d c s k).controlState = .zeroTxData := by
    rw [inStageState_not_last c hk, inDataState]
    split <;> simp
  have hcount := inStageState_count c hL hk
  have htotal : (inStageState L d c s k).totalLen.toNat = min d.length L := inStageState_total c hL
  have hsend := txSendsNext (inStageState L d c s k) hr hn rfl hstage rfl
    (by rw [hcount, htotal]; exact mul_le_of_lt_inCount hk) (by rw [htotal]; exact hcap)
  rw [hcount, htotal] at hsend
  exact hsend.trans (congrArg Host.Outcome.next (sentState_inStageState c hm hM hL hk))

/-- Each TX event up to the last packet sends one (R144). -/
theorem txTimes_inStageState : ∀ {n k : Nat}, k + n < inCount L s.ep0PacketSize.toNat d →
    txTimes n (inStageState L d c s k) = .next (inStageState L d c s (k + n))
  | 0, _, _ => rfl
  | n + 1, k, hk => by
    rw [txTimes, exec_evtEp0Tx_inStageState c hr hn hm hM hL hcap (by omega)]
    dsimp only
    rw [txTimes_inStageState (by omega), Nat.add_right_comm, Nat.add_assoc]

end

/-! ## The statement -/

/-- A response of no packet has no bytes and is not shorter than what was asked for. -/
theorem inCount_pos {L M : Nat} {d : List Byte} (hM : 0 < M) (hL : 0 < L) : 0 < inCount L M d := by
  unfold inCount
  split
  · exact Nat.succ_pos _
  · next hno =>
    obtain ⟨hmod, hlt⟩ := not_or.1 hno
    have hpos : 0 < min d.length L := by omega
    exact Nat.add_pos_left (Nat.div_pos (Nat.le_of_dvd hpos (Nat.dvd_of_mod_eq_zero (not_not.1 hmod))) hM) 0

/-- Settles O59: the first packet goes with the Ack, each TX event sends the next one, and the last one leads to LastData. -/
theorem zlpRule : Obligations.ZlpRule := by
  unfold Obligations.ZlpRule
  intro L d c s hr hn hm hM hL hlt hcap
  have hpos := inCount_pos (d := d) hM hL
  obtain ⟨k, hk⟩ : ∃ k, inCount L s.ep0PacketSize.toNat d = k + 1 := Nat.exists_eq_succ_of_ne_zero hpos.ne'
  have hlast : (inStageState L d c s k).controlState = .lastData := if_pos hk.symm
  refine ⟨inStageState L d c s k, ?_, ?_, hlast, (txElsewhere (inStageState L d c s k) hr hn).1 rfl hlast⟩
  · rw [inPackets_eq hM, List.length_map, List.length_range, hk, Nat.add_sub_cancel, ← inStageState_zero c hM hpos,
      txTimes_inStageState c hr hn hm hM hlt hcap (by omega), Nat.zero_add]
  · rw [inPackets_eq hM, hk, List.map_map]
    rfl

end Sys2Proof.Machine
end

