-- ==== Sys2Proof/Proofs/TraceEntries.lean ====
section
/-! SUPPORT. What a procedure adds to the action trace (43_public_api.md R262): only the recovery path annotates (60_exceptions.md
R303, R305), so an event or a request reports at most one error. -/

namespace Sys2Proof.Machine

/-! ## Entries added -/

/-- The trace of `t` is that of `s` and then entries of which each is a `P`. -/
def Adds (P : Action → Prop) (s t : State) : Prop := ∃ v, t.trace = s.trace ++ v ∧ ∀ a ∈ v, P a

/-- An entry that is no annotation of the recovery path (R141). -/
def NotNote (a : Action) : Prop := ∀ c, a ≠ .note c

section
variable {P : Action → Prop} {s t u : State}

theorem Adds.of_trace_eq (h : t.trace = s.trace) : Adds P s t := ⟨[], by rw [h, List.append_nil], nofun⟩

theorem Adds.refl (s : State) : Adds P s s := .of_trace_eq rfl

theorem Adds.emit {a : Action} (h : P a) : Adds P s (s.emit a) := ⟨[a], rfl, by simpa using h⟩

theorem Adds.trans (h : Adds P s t) (g : Adds P t u) : Adds P s u := by
  obtain ⟨v, hv, hvP⟩ := h
  obtain ⟨w, hw, hwP⟩ := g
  refine ⟨v ++ w, by rw [hw, hv, List.append_assoc], fun a ha => ?_⟩
  exact (List.mem_append.1 ha).elim (hvP a) (hwP a)

/-- The entries added are determined. -/
theorem Adds.of_mem (h : Adds P s t) {v : List Action} (hv : t.trace = s.trace ++ v) : ∀ a ∈ v, P a := by
  obtain ⟨w, hw, hwP⟩ := h
  obtain rfl : v = w := List.append_cancel_left (hv.symm.trans hw)
  exact hwP

/-- A draw traces nothing. -/
theorem Adds.draw (h : ∃ e : Env, t = { s with env := e } ∧ e.inputs = s.env.inputs ∧ e.eventQueue = s.env.eventQueue) :
    Adds P s t := by
  obtain ⟨e, rfl, -⟩ := h
  exact .of_trace_eq rfl

end

/-! ## Procedures that do not annotate -/

/-- However the procedure ends, it has added no annotation to the trace of `s`; `get` is the state of its result. -/
def Flow.Unnoted {α : Type} (get : α → State) (s : State) : Flow α → Prop
  | .ok a => Adds NotNote s (get a)
  | .raised _ t | .refused _ t => Adds NotNote s t

theorem Flow.unnoted_ok {α : Type} {get : α → State} {s : State} {a : α} :
    (Flow.ok a).Unnoted get s ↔ Adds NotNote s (get a) := .rfl

section
variable {α β : Type} {get : α → State} {get' : β → State} {s t : State} {x : Flow α}

/-- A procedure that goes on from `t` where nothing was annotated since `s`. -/
theorem Flow.Unnoted.after (hx : x.Unnoted get t) (h : Adds NotNote s t) : x.Unnoted get s := by
  cases x <;> exact h.trans hx

theorem Flow.Unnoted.bind {f : α → Flow β} (hx : x.Unnoted get s) (hf : ∀ a, (f a).Unnoted get' (get a)) :
    (x.bind f).Unnoted get' s := by
  cases x with
  | ok a => exact (hf a).after hx
  | raised e t => exact hx
  | refused r t => exact hx

end

/-! ## Callbacks -/

/-- The body of a nested command traces its one HAL action, or nothing (R242 to R255). -/
theorem nestedBody_unnoted (i : Instr) (s : State) : (nestedBody i s).Unnoted id s := by
  cases i
  case epConfig | epDeconfig | epStall | epUnstall | enable | connect => exact .emit (s := s) nofun
  case epWrite => exact (Adds.draw (drawWritten_state s)).trans (.emit (s := (drawWritten s).2) nofun)
  case epRead => exact (Adds.draw (drawRead_state s)).trans (.emit (s := (drawRead s).2) nofun)
  case getInfo => exact (Adds.draw (drawInfo_state s)).trans (.emit (s := (drawInfo s).2) nofun)
  case regEvent e h => exact .of_trace_eq (s.setEvtCb_trace e h)
  all_goals exact .of_trace_eq rfl

theorem runCall_unnoted (c : Input) (s : State) : (runCall c s).Unnoted id s := by
  rcases runCall_cases c s with ⟨i, t, -, -, hbody, e⟩ | ⟨r, e⟩
  · rw [e, ← hbody]
    exact nestedBody_unnoted i s
  · rw [e]
    exact .refl s

theorem runCalls_unnoted : ∀ (cs : List Input) (s : State), (runCalls cs s).Unnoted id s
  | [], s => .refl s
  | c :: cs, s => (runCall_unnoted c s).bind (runCalls_unnoted cs)

theorem ask_unnoted (c : Call) (s : State) : (ask c s).Unnoted Prod.snd s := by
  have hcall : Adds NotNote s (drawAnswer (s.emit (.call c))).2 :=
    (Adds.emit (s := s) (a := .call c) nofun).trans (.draw (drawAnswer_state _))
  exact Flow.Unnoted.bind ((runCalls_unnoted _ _).after hcall) fun t => Flow.unnoted_ok.2 (.of_trace_eq rfl)

theorem notify_unnoted (c : Call) (s : State) : (notify c s).Unnoted id s :=
  (ask_unnoted c s).bind fun r => Adds.refl r.2

theorem notifyEvent_unnoted (e : DeviceEvent) (s : State) : (notifyEvent e s).Unnoted id s := by
  unfold notifyEvent
  split
  · exact .refl s
  · exact notify_unnoted _ s

theorem notifyEndpoint_unnoted (kind : Transfer) (ep : EpAddr) (s : State) : (notifyEndpoint kind ep s).Unnoted id s := by
  unfold notifyEndpoint
  split
  · exact .refl s
  · exact notify_unnoted _ s

theorem addressedState_adds (s : State) : Adds NotNote s (addressedState s) := by
  unfold addressedState
  split
  · exact .refl s
  · exact .emit (s := s) nofun

theorem completeTransfer_unnoted (s : State) : (completeTransfer s).Unnoted id s := by
  cases hc : s.completion with
  | none =>
    rw [completeTransfer_silent hc]
    exact addressedState_adds s
  | some tok =>
    rw [completeTransfer_token hc]
    exact (notify_unnoted _ _).after (addressedState_adds s)

/-! ## Request rules -/

section
variable (req : ControlRequest) (bs : List Byte) (s : State)

theorem askSlot_unnoted (slot : Option HandlerId) (mk : HandlerId → Call) : (askSlot slot mk s).Unnoted Prod.snd s := by
  cases slot with
  | none => exact .refl s
  | some h => exact (ask_unnoted (mk h) s).bind fun r => Adds.refl r.2

theorem ruleGetStatus_unnoted : (ruleGetStatus req bs s).Unnoted Prod.snd s := by
  unfold ruleGetStatus
  split <;> exact .refl s

theorem ruleClearFeature_unnoted : (ruleClearFeature req bs s).Unnoted Prod.snd s := by
  unfold ruleClearFeature
  split
  · exact .refl s
  · exact .emit (s := s) nofun

theorem ruleSetFeature_unnoted : (ruleSetFeature req bs s).Unnoted Prod.snd s := by
  unfold ruleSetFeature
  split
  · exact .refl s
  · exact .emit (s := s) nofun

theorem ruleSetAddress_unnoted : (ruleSetAddress req bs s).Unnoted Prod.snd s := by
  unfold ruleSetAddress
  split
  · exact .refl s
  · split <;> exact .of_trace_eq rfl

theorem ruleSetConfiguration_unnoted : (ruleSetConfiguration req bs s).Unnoted Prod.snd s := by
  unfold ruleSetConfiguration
  split
  · exact .refl s
  · split
    · exact .refl s
    · split
      · exact .refl s
      · refine (ask_unnoted _ s).bind fun r => ?_
        split <;> exact .of_trace_eq rfl

theorem ruleSetInterface_unnoted : (ruleSetInterface req bs s).Unnoted Prod.snd s := by
  unfold ruleSetInterface
  split <;> exact .refl s

/-- Every rule, by its row (R170). -/
theorem ruleOf_unnoted (i : Instr) : (ruleOf i req bs s).Unnoted Prod.snd s := by
  cases i
  case getStatus => exact ruleGetStatus_unnoted req bs s
  case clearFeature => exact ruleClearFeature_unnoted req bs s
  case setFeature => exact ruleSetFeature_unnoted req bs s
  case setAddress => exact ruleSetAddress_unnoted req bs s
  case setConfiguration => exact ruleSetConfiguration_unnoted req bs s
  case setInterface => exact ruleSetInterface_unnoted req bs s
  case getDescriptor | setDescriptor | classRequest | vendorRequest => exact askSlot_unnoted s _ _
  all_goals exact .refl s

end

/-! ## Outcomes and Dispatch -/

theorem bufRead_unnoted (addr n : Nat) (s : State) : (bufRead addr n s).Unnoted (fun _ => s) s := by
  rcases bufRead_cases addr n s with ⟨-, e⟩ | ⟨-, e⟩ <;> rw [e] <;> exact .refl s

theorem bufWrite_unnoted (addr : Nat) (bs : List Byte) (s : State) : (bufWrite addr bs s).Unnoted id s := by
  rcases bufWrite_cases addr bs s with ⟨-, e⟩ | ⟨-, e⟩ <;> rw [e] <;> exact .of_trace_eq rfl

theorem sendNext_unnoted (s : State) : (sendNext s).Unnoted id s := by
  rcases sendNext_cases s with ⟨-, e⟩ | ⟨-, e⟩ <;> rw [e]
  · exact .emit (s := s) nofun
  · exact .refl s

theorem ackIn_unnoted (req : ControlRequest) (data : Option (List Byte)) (c : Option Token) (s : State) :
    (ackIn req data c s).Unnoted id s := by
  unfold ackIn
  split
  · exact .refl s
  · dsimp only
    split
    · exact .refl s
    · exact (bufWrite_unnoted 0 _ { s with pending := .none, completion := c }).bind fun t => sendNext_unnoted _

theorem applyOutcome_unnoted (req : ControlRequest) (o : ReqOutcome) (s : State) : (applyOutcome req o s).Unnoted id s := by
  cases o with
  | fail e => exact .refl s
  | nak => exact .of_trace_eq rfl
  | ack data c =>
    rw [applyOutcome_ack]
    split
    · exact ackIn_unnoted req data c s
    · exact .emit (s := s) nofun

theorem dispatchWith_unnoted (req : ControlRequest) (i : Instr) (s : State) :
    (dispatchWith req (ruleOf i) s).Unnoted id s := by
  refine Flow.Unnoted.bind (get := fun _ => s) ?_ fun bs =>
    (ruleOf_unnoted req bs s i).bind fun r => applyOutcome_unnoted req r.1 r.2
  split
  · exact bufRead_unnoted 0 _ s
  · exact .refl s

/-! ## The events -/

theorem bodyEvtSetup_unnoted (p : List Byte) (s : State) : (bodyEvtSetup p s).Unnoted id s := by
  cases hp : parseSetup p with
  | none =>
    rw [bodyEvtSetup_unparsed hp]
    exact .emit (s := s) nofun
  | some r =>
    have hread : Adds NotNote s (setupState p r s) := .emit (s := s) nofun
    rw [bodyEvtSetup_parsed hp]
    split
    · unfold beginOut
      split <;> exact hread
    · exact (dispatchWith_unnoted _ _ _).after hread

theorem rxInData_unnoted (p : List Byte) (s : State) : (rxInData p s).Unnoted id s := by
  unfold rxInData
  dsimp only
  split
  · exact .refl s
  · refine (bufWrite_unnoted _ p s).bind fun t => ?_
    split
    · exact dispatchWith_unnoted _ _ _
    · split <;> exact .of_trace_eq rfl

theorem bodyEvtEp0Rx_unnoted (p : List Byte) (s : State) : (bodyEvtEp0Rx p s).Unnoted id s := by
  refine Flow.Unnoted.after (t := s.emit (.readEndpoint ep0Out p)) ?_ (.emit nofun)
  unfold bodyEvtEp0Rx
  dsimp only
  split
  · exact .refl _
  · split
    · exact rxInData_unnoted p _
    · unfold rxInStatus
      split
      · exact .refl _
      · exact completeTransfer_unnoted _
    all_goals exact .refl _

theorem bodyEvtEp0Tx_unnoted (s : State) : (bodyEvtEp0Tx s).Unnoted id s := by
  unfold bodyEvtEp0Tx
  split
  · exact .refl s
  · split
    case h_1 | h_2 => exact sendNext_unnoted s
    case h_4 => exact completeTransfer_unnoted { s with controlState := .idle }
    all_goals exact .of_trace_eq rfl

/-- Process, by its consumer (R212); what is no event is refused where it stands. -/
theorem process_unnoted (i : Instr) (s : State) : (process i s).Unnoted id s := by
  cases i
  case evtReset => exact (notifyEvent_unnoted .reset (busReset s)).after (.emit (s := s) nofun)
  case evtSuspend => exact notifyEvent_unnoted .suspend s
  case evtResume => exact notifyEvent_unnoted .resume s
  case evtSetup p => exact bodyEvtSetup_unnoted p s
  case evtEp0Rx p => exact bodyEvtEp0Rx_unnoted p s
  case evtEp0Tx => exact bodyEvtEp0Tx_unnoted s
  case evtEpnRx | evtEpnTx => exact notifyEndpoint_unnoted _ _ s
  all_goals exact .refl s

/-! ## Instructions by format -/

/-- Everything an event can end in. -/
theorem exec_event_cases {i : Instr} {s t : State} (hf : format i = .event) (h : exec i s = .next t) :
    s.refused = false ∧
      ((i.wf s.limits = false ∧ t = s.refuse .reservedInput) ∨
        (i.wf s.limits = true ∧ finish (process i s) = .next t)) := by
  rw [exec_event hf, runEvent] at h
  split at h
  · cases h
  · next hr =>
    refine ⟨Bool.eq_false_iff.2 hr, ?_⟩
    split at h
    · next hw =>
      cases h
      exact .inl ⟨hw, rfl⟩
    · next hw => exact .inr ⟨by simpa using hw, h⟩

/-- Everything a request can end in. -/
theorem exec_request_cases {i : Instr} {s t : State} (hf : format i = .request) (h : exec i s = .next t) :
    s.refused = false ∧ finish (dispatchWith (withKey s.setup (encodeWord i)) (ruleOf i) s) = .next t := by
  rw [exec_request hf, runRequest] at h
  split at h
  · cases h
  · next hr => exact ⟨Bool.eq_false_iff.2 hr, h⟩

/-- An event or a request is refused where it stands, or it is a procedure that does not annotate, to its end. -/
theorem exec_unnoted {i : Instr} {s t : State} (hf : format i ≠ .command) (h : exec i s = .next t) :
    t = s.refuse .reservedInput ∨ ∃ x : Flow State, x.Unnoted id s ∧ finish x = .next t := by
  cases hi : format i with
  | event =>
    obtain ⟨-, ⟨-, ht⟩ | ⟨-, hx⟩⟩ := exec_event_cases hi h
    · exact .inl ht
    · exact .inr ⟨_, process_unnoted i s, hx⟩
  | command => exact absurd hi hf
  | request => exact .inr ⟨_, dispatchWith_unnoted _ i s, (exec_request_cases hi h).2⟩

/-! ## The statement -/

theorem Adds.note_notMem {s t : State} (h : Adds NotNote s t) {u : List Action} (hu : t.trace = s.trace ++ u) (c : Byte) :
    Action.note c ∉ u :=
  fun hc => h.of_mem hu _ hc c rfl

/-- Settles O32: only the recovery of a raise annotates, and it ends the event. -/
theorem oneErrorPerEvent : Obligations.OneErrorPerEvent := by
  unfold Obligations.OneErrorPerEvent
  intro i s t u c hf h hu hc
  rcases exec_unnoted hf h with rfl | ⟨x, hx, hfin⟩
  · exact absurd hc (Adds.note_notMem (t := s.refuse .reservedInput) (.of_trace_eq rfl) hu c)
  rcases finish_eq_next hfin with rfl | ⟨e, w, rfl, rfl⟩ | ⟨r, w, rfl, rfl⟩
  · exact absurd hc (Adds.note_notMem hx hu c)
  · obtain ⟨v, hv, hvP⟩ := hx
    have hvn : ∀ d, Action.note d ∉ v := fun d hd => hvP _ hd d rfl
    rw [recover_eq] at hu ⊢
    obtain rfl : v ++ [.stallEndpoint ep0Out, .stallEndpoint ep0In, .note (errNumber e)] = u :=
      List.append_cancel_left (by rw [← hu, stalledState_trace, hv, List.append_assoc])
    obtain rfl : c = errNumber e := by simpa [hvn c] using hc
    exact ⟨v, rfl, hvn, rfl, rfl, rfl, rfl, rfl⟩
  · exact absurd hc (Adds.note_notMem (t := w.refuse r) hx hu c)

end Sys2Proof.Machine
end

