-- ==== Sys2Proof/Proofs/DispatchEnds.lean ====
section
/-! SUPPORT. Where a request without an IN data stage can leave the block (40_control_engine.md R125, R126, R128), and with it the
requests of length 0 (R145) and the progress of an OUT data stage (R146). -/

namespace Sys2Proof.Machine

/-! ## Requests without an IN data stage -/

/-- The status stage, Idle after the recovery path, or the data stage as it was. -/
def StatusOrKept (s t : State) : Prop :=
  t.controlState = .statusIn ∨ t.controlState = .idle ∨ t.dataStage = s.dataStage

/-- Outcome ACK goes to the status stage, FAIL to Idle, and NAK changes only `pending`. -/
theorem finish_applyOutcome_statusOrKept {req : ControlRequest} {o : ReqOutcome} {s t : State} (hin : hasInData req = false)
    (h : finish (applyOutcome req o s) = .next t) : StatusOrKept s t := by
  cases o with
  | fail e =>
    rw [finish_fail] at h
    cases h
    exact .inr (.inl rfl)
  | nak =>
    rw [finish_nak] at h
    cases h
    exact .inr (.inr rfl)
  | ack data c =>
    rw [applyOutcome_ack, hin] at h
    cases h
    exact .inl rfl

/-- The rule of a request is blind to the data stage (R170), so only its Outcome can leave it. -/
theorem finish_dispatchWith_statusOrKept {req : ControlRequest} {i : Instr} {s t : State} (hin : hasInData req = false)
    (h : finish (dispatchWith req (ruleOf i) s) = .next t) : StatusOrKept s t := by
  have hrule : ∀ bs, finish ((ruleOf i req bs s).bind fun r => applyOutcome req r.1 r.2) = .next t → StatusOrKept s t := by
    intro bs h
    rcases (ruleOf_blind req bs i).kept s with ⟨r, e, hr⟩ | ⟨_, u, e, hu⟩ | ⟨_, u, e, hu⟩ <;> rw [e] at h
    · have hstage : r.2.dataStage = s.dataStage := congrArg (fun a => a.2.dataStage) hr
      rw [StatusOrKept, ← hstage]
      exact finish_applyOutcome_statusOrKept hin h
    · rw [Flow.bind_raised, finish_raised, recover_eq] at h
      cases h
      exact .inr (.inl rfl)
    · cases h
      exact .inr (.inr hu)
  unfold dispatchWith at h
  split at h
  · rcases bufRead_cases 0 req.length.toNat s with ⟨-, e⟩ | ⟨-, e⟩ <;> rw [e] at h
    · exact hrule _ h
    · cases h
      exact .inr (.inr rfl)
  · exact hrule _ h

/-- A request by itself, without an IN data stage. -/
theorem exec_request_statusOrKept {i : Instr} {s t : State} (hf : format i = .request)
    (hin : hasInData (withKey s.setup (encodeWord i)) = false) (h : exec i s = .next t) : StatusOrKept s t :=
  finish_dispatchWith_statusOrKept hin (exec_request_cases hf h).2

/-! ## Requests of length 0 -/

theorem hasInData_of_length_zero {r : ControlRequest} (h : r.length = 0) : hasInData r = false := by
  simp [hasInData, hasData, h]

theorem hasOutData_of_length_zero {r : ControlRequest} (h : r.length = 0) : hasOutData r = false := by
  simp [hasOutData, hasData, h]

/-- A request of length 0 that starts in Idle has no data stage to enter (R145). -/
theorem exec_request_length_zero {i : Instr} {s t : State} (hf : format i = .request) (hc : s.controlState = .idle)
    (hl : s.setup.length = 0) (h : exec i s = .next t) : t.controlState = .statusIn ∨ t.controlState = .idle := by
  have hin : hasInData (withKey s.setup (encodeWord i)) = false := hasInData_of_length_zero hl
  rcases exec_request_statusOrKept hf hin h with hst | hst | hst
  · exact .inl hst
  · exact .inr hst
  · exact .inr ((congrArg DataStage.controlState hst).trans hc)

/-- Settles O56: a SETUP of length 0 is its request executed in Idle. -/
theorem noDataStageWithoutLength : Obligations.NoDataStageWithoutLength := by
  unfold Obligations.NoDataStageWithoutLength
  refine ⟨fun i s t hf hc hl h => exec_request_length_zero hf hc hl h, fun p r s t hp hl h => ?_⟩
  obtain ⟨hr, -⟩ := exec_event_cases rfl h
  rw [setupDispatches p r s hr hp (hasOutData_of_length_zero hl)] at h
  exact exec_request_length_zero (format_decodeKey _) rfl hl h

/-! ## Progress in RxData -/

/-- An entry that is no invocation of a callback (R262). -/
def NotCall (a : Action) : Prop := ∀ c, a ≠ .call c

/-- Either no callback was invoked, or nothing was pending and the packet completes the request (R146). -/
def CallsOnlyWhenComplete (p : List Byte) (s t : State) : Prop :=
  Adds NotCall s t ∨ (s.pending = .none ∧ s.transferredCount.toNat + p.length = s.setup.length.toNat)

/-- If the block is still in RxData and not refused, its count has grown (R146). -/
def CountGrows (s t : State) : Prop :=
  t.refused = false → t.controlState = .rxData → s.transferredCount.toNat < t.transferredCount.toNat

/-- The state that EVT_EP0_RX raises from has the read traced, and recovery stops both counting and calling (R141). -/
theorem stalledState_progress {p : List Byte} {s u : State} (hu : u.trace = s.trace ++ [.readEndpoint ep0Out p]) (code : Byte) :
    CountGrows s (stalledState code u) ∧ CallsOnlyWhenComplete p s (stalledState code u) := by
  refine ⟨fun _ => nofun, .inl ⟨[.readEndpoint ep0Out p, .stallEndpoint ep0Out, .stallEndpoint ep0In, .note code], ?_, ?_⟩⟩
  · rw [stalledState_trace, hu, List.append_assoc]
    rfl
  · simp [NotCall]

theorem receivedState_count {p : List Byte} {s : State} (h : s.transferredCount.toNat + p.length ≤ s.totalLen.toNat) :
    (receivedState p s).transferredCount.toNat = s.transferredCount.toNat + p.length :=
  u32_toNat (h.trans_lt s.totalLen.isLt)

/-- A request with OUT data that is dispatched in RxData stays there only if it is answered with a Nak, the count kept (R126). -/
theorem exec_outRequest_countGrows {s u t : State} (ho : hasOutData u.setup = true)
    (hcount : s.transferredCount.toNat < u.transferredCount.toNat)
    (h : exec (decodeKey (requestKey u.setup)) u = .next t) : CountGrows s t := by
  obtain ⟨-, -, hword, -⟩ := keySelectsOneRow.2 (requestKey u.setup)
  have hin : hasInData (withKey u.setup (encodeWord (decodeKey (requestKey u.setup)))) = false := by
    rw [hword, withKey_requestKey]
    exact hasInData_of_hasOutData ho
  intro _ hrx
  rcases exec_request_statusOrKept (format_decodeKey _) hin h with hst | hst | hst
  · cases hst.symm.trans hrx
  · cases hst.symm.trans hrx
  · exact hcount.trans_eq (congrArg (fun x => x.transferredCount.toNat) hst.symm)

theorem evtEp0Rx_wf {p : List Byte} {s : State} (h : (Instr.evtEp0Rx p).wf s.limits = true) :
    0 < s.cfg.numEp ∧ p.length ≤ s.ep0PacketSize.toNat := by
  simp only [Instr.wf, Bool.and_eq_true, decide_eq_true_eq] at h
  exact h

theorem ep0PacketSize_pos {n : Half} (h : ep0SizeLegal n = true) : 0 < n.toNat := by
  have hn : n ∈ [8#16, 16#16, 32#16, 64#16] := List.contains_iff_mem.1 h
  simp only [List.mem_cons, List.not_mem_nil, or_false] at hn
  rcases hn with rfl | rfl | rfl | rfl <;> decide

/-- A legal packet in RxData with nothing pending, by how it compares with what is missing (R132). -/
theorem exec_evtEp0Rx_rxData_progress {p : List Byte} {s t : State} (hs : LiveInv s) (hn : 0 < s.cfg.numEp)
    (hp : p.length ≤ s.ep0PacketSize.toNat) (hsize : 0 < s.ep0PacketSize.toNat) (hpend : s.pending = .none)
    (hc : s.controlState = .rxData) (h : exec (.evtEp0Rx p) s = .next t) :
    CountGrows s t ∧ CallsOnlyWhenComplete p s t := by
  obtain ⟨ho, hcap, hlen, hmissing⟩ := hs.rx hc
  have hmore := hmissing hpend
  obtain ⟨hover, hdone, hshort, hfull⟩ :=
    rxInRxData p s (liveInv_iff.1 hs).1 hn hp hpend hc (hs.count (.inl hc)).2 (hlen ▸ hcap)
  rcases Nat.lt_trichotomy (s.transferredCount.toNat + p.length) s.totalLen.toNat with hlt | heq | hgt
  · rcases hp.lt_or_eq with hps | hpf
    · cases (hshort hlt hps).symm.trans h
      exact stalledState_progress rfl _
    · cases (hfull hlt hpf).symm.trans h
      refine ⟨fun _ _ => ?_, .inl (.emit (s := s) nofun)⟩
      rw [receivedState_count hlt.le]
      omega
  · refine ⟨exec_outRequest_countGrows (u := receivedState p s) ho ?_ ((hdone heq).symm.trans h), .inr ⟨hpend, heq.trans hlen⟩⟩
    rw [receivedState_count heq.le]
    omega
  · cases (hover hgt).symm.trans h
    exact stalledState_progress rfl _

/-- Settles O57: an illegal packet is refused, one that comes while a Nak is pending stalls, and any other is measured. -/
theorem rxCountsUp : Obligations.RxCountsUp := by
  unfold Obligations.RxCountsUp
  intro p s t ⟨hr, hi⟩ hb hc h
  have hs : LiveInv s := liveInv_iff.2 ⟨hr, hb⟩
  have hprogress : CountGrows s t ∧ CallsOnlyWhenComplete p s t := by
    obtain ⟨-, ⟨-, rfl⟩ | ⟨hw, -⟩⟩ := exec_event_cases rfl h
    · exact ⟨nofun, .inl (.of_trace_eq rfl)⟩
    · obtain ⟨hn, hp⟩ := evtEp0Rx_wf hw
      by_cases hpend : s.pending = .none
      · exact exec_evtEp0Rx_rxData_progress hs hn hp (ep0PacketSize_pos (hs.size hi)) hpend hc h
      · cases (rxUnexpected p s hr hn hp (.inl hpend)).symm.trans h
        exact stalledState_progress rfl _
  obtain ⟨hgrows, hcalls⟩ := hprogress
  refine ⟨hgrows, fun u hu ⟨c, hcall⟩ => ?_⟩
  exact hcalls.resolve_left fun hadds => hadds.of_mem hu _ hcall c rfl

end Sys2Proof.Machine
end

