-- ==== Sys2Proof/Proofs/RequestEnds.lean ====
section
/-! SUPPORT. The request in flight (30_encoding.md R102, 41_request_dispatcher.md R170): its meaning is its rule on the SETUP
register and the OUT data in the buffer, ended by the Outcome (40_control_engine.md R124 to R128). -/

namespace Sys2Proof.Machine

/-! ## The fields of the SETUP register that a rule reads -/

/-- The recipient of the request in flight is the operand of its row (R83, R102). -/
theorem reqRecipient_of_requestKey {r : ControlRequest} {c : Byte} {d : Dir} {t : BitVec 2} {rcpt : BitVec 5}
    (h : requestKey r = keyWord c d t rcpt) : reqRecipient r = rcpt := by
  rw [← withKey_requestKey r, h, reqRecipient_withKey]

/-- `index` as an endpoint address, read by its direction bit and its number alone (R85, R94). -/
def indexEp (r : ControlRequest) : EpAddr := { dir := dirOfBit (r.index.getLsbD 7), num := r.index.extractLsb' 0 4 }

theorem extractLsb'_lowByte (h : Half) : (lowByte h).extractLsb' 0 4 = h.extractLsb' 0 4 := by
  ext i hi
  simp [lowByte]

theorem decodeEp_lowByte_index (r : ControlRequest) :
    decodeEp (lowByte r.index) = if (lowByte r.index).extractLsb' 4 3 = 0 then some (indexEp r) else none := by
  have hbit : (lowByte r.index).getLsbD 7 = r.index.getLsbD 7 := by simp [lowByte]
  rw [decodeEp, extractLsb'_lowByte, hbit, indexEp]

section
variable {s : State} {r : ControlRequest}

/-- The endpoint a request names is that of `index[7:0]` where those bits are a valid endpoint address (R85, R94). -/
theorem reqEndpoint_eq : reqEndpoint s r = if validEpByte s.limits (lowByte r.index) then some (indexEp r) else none := by
  rw [reqEndpoint, decodeEp_lowByte_index]
  by_cases hz : (lowByte r.index).extractLsb' 4 3 = 0
  · simp only [hz, if_true, validEpByte, true_and, epValid_iff, extractLsb'_lowByte, indexEp]
  · simp only [hz, if_false, validEpByte, false_and]

theorem reqEndpoint_valid (hv : validEpByte s.limits (r.index.extractLsb' 0 8)) : reqEndpoint s r = some (indexEp r) :=
  reqEndpoint_eq.trans (if_pos hv)

theorem reqEndpoint_invalid (hv : ¬validEpByte s.limits (r.index.extractLsb' 0 8)) : reqEndpoint s r = none :=
  reqEndpoint_eq.trans (if_neg hv)

/-- Where a feature request acts on the endpoint in `index` (R177, R178). -/
def ActsOnEndpoint (r : ControlRequest) (s : State) : Prop :=
  reqRecipient r = 2 ∧ r.value = 0 ∧ validEpByte s.limits (r.index.extractLsb' 0 8) ∧ (indexEp r).num ≠ 0

theorem featureEndpoint_acts (h : ActsOnEndpoint r s) : featureEndpoint r s = some (indexEp r) := by
  obtain ⟨hrcpt, hval, hv, hnum⟩ := h
  rw [featureEndpoint, reqEndpoint_valid hv, if_neg (by exact not_or.2 ⟨not_not.2 hrcpt, not_not.2 hval⟩)]
  exact if_neg hnum

theorem featureEndpoint_refused (h : ¬ActsOnEndpoint r s) : featureEndpoint r s = none := by
  rw [featureEndpoint]
  split
  · rfl
  · next hsel =>
    obtain ⟨hrcpt, hval⟩ := not_or.1 hsel
    by_cases hv : validEpByte s.limits (r.index.extractLsb' 0 8)
    · rw [reqEndpoint_valid hv]
      exact if_pos (by_contra fun hnum => h ⟨not_not.1 hrcpt, not_not.1 hval, hv, hnum⟩)
    · rw [reqEndpoint_invalid hv]

/-! ## The status bytes by recipient -/

theorem statusBytes_device (h : reqRecipient r = 0) :
    statusBytes r s = some [lowByte s.cfg.deviceStatus, highByte s.cfg.deviceStatus] := if_pos h

theorem statusBytes_interface (h : reqRecipient r = 1) : statusBytes r s = some [0x00, 0x00] := by
  rw [statusBytes, h]
  rfl

theorem statusBytes_endpoint (h : reqRecipient r = 2) (hv : validEpByte s.limits (r.index.extractLsb' 0 8)) :
    statusBytes r s = some [if (indexEp r).num ≠ 0 ∧ s.halt (indexEp r) = true then 0x01 else 0x00, 0x00] := by
  rw [statusBytes, h, reqEndpoint_valid hv]
  rfl

/-- Every other recipient, and an endpoint that is not valid, has no status (R176). -/
theorem statusBytes_none (h0 : reqRecipient r ≠ 0) (h1 : reqRecipient r ≠ 1)
    (h2 : ¬(reqRecipient r = 2 ∧ validEpByte s.limits (r.index.extractLsb' 0 8))) : statusBytes r s = none := by
  rw [statusBytes, if_neg (by exact h0), if_neg (by exact h1)]
  split
  · next hep => rw [reqEndpoint_invalid fun hv => h2 ⟨hep, hv⟩]
  · rfl

end

/-! ## The request in flight -/

section
variable {i : Instr} {s : State} (hf : format i = .request) (hr : s.refused = false) (hi : inFlight i s)
include hf hr hi

/-- The row's key is in the SETUP register and the OUT data in the buffer, so the rule sees both (R102, R124). -/
theorem exec_inFlight :
    exec i s =
      finish ((ruleOf i s.setup (outDataOf s.setup s) s).bind fun r => applyOutcome s.setup r.1 r.2) := by
  obtain ⟨hkey, hfits⟩ := hi
  rw [exec_request hf, runRequest, hr, ← hkey, withKey_requestKey, dispatchWith_fits _ hfits]
  rfl

/-- A request whose rule fails stalls, with what the rule left (R125, R303). -/
theorem exec_inFlight_fail {e : ErrCode} {t : State}
    (hrule : ruleOf i s.setup (outDataOf s.setup s) s = .ok (.fail e, t)) : exec i s = .next (stalledState (errNumber e) t) := by
  rw [exec_inFlight hf hr hi, hrule, Flow.bind_ok, finish_fail]

/-- A request whose rule answers Ack goes to its data or status stage (R127, R128). -/
theorem exec_inFlight_ack {data : Option (List Byte)} {c : Option Token} {t : State} (hm : memWf t.dataBuffer = true)
    (hrule : ruleOf i s.setup (outDataOf s.setup s) s = .ok (.ack data c, t)) :
    exec i s = .next (ackState s.setup data c t) := by
  rw [exec_inFlight hf hr hi, hrule, Flow.bind_ok, finish_ack _ _ _ hm]

/-- A request whose rule answers Nak waits (R126). -/
theorem exec_inFlight_nak {t : State} (hrule : ruleOf i s.setup (outDataOf s.setup s) s = .ok (.nak, t)) :
    exec i s = .next { t with pending := .fresh } := by
  rw [exec_inFlight hf hr hi, hrule, Flow.bind_ok, finish_nak]

/-- A request whose rule asks a callback ends as the callback answers (R171). -/
theorem exec_inFlight_normalise {a : HandlerAnswer} {t : State} (hm : memWf t.dataBuffer = true)
    (hrule : ruleOf i s.setup (outDataOf s.setup s) s = .ok (normalise a, t)) :
    exec i s = .next (answeredState s.setup a t) := by
  rw [exec_inFlight hf hr hi, hrule, Flow.bind_ok, finish_answered _ _ hm]

end

/-! ## GET_STATUS, GET_CONFIGURATION, GET_INTERFACE -/

/-- Settles O46: `statusBytes` by recipient; the halt bit is that of the endpoint in `index`. -/
theorem getStatus : Obligations.GetStatus := by
  unfold Obligations.GetStatus
  intro d rcpt s hr hm hi
  obtain rfl : reqRecipient s.setup = rcpt := reqRecipient_of_requestKey hi.1
  have hack {bs : List Byte} (hb : statusBytes s.setup s = some bs) :
      exec (.getStatus d (reqRecipient s.setup)) s = .next (ackState s.setup (some bs) none s) :=
    exec_inFlight_ack rfl hr hi hm (by rw [ruleOf, ruleGetStatus, hb]; rfl)
  split
  · next hdev => exact hack (statusBytes_device hdev)
  · next hdev =>
    split
    · next hif => exact hack (statusBytes_interface hif)
    · next hif =>
      split
      · next hep => exact hack (statusBytes_endpoint hep.1 hep.2)
      · next hep =>
        have hnone : statusBytes s.setup s = none := statusBytes_none hdev hif hep
        exact exec_inFlight_fail (e := .hrStdRefused) rfl hr hi (by rw [ruleOf, ruleGetStatus, hnone]; rfl)

/-- Settles O47: both rules answer one byte, whatever the request. -/
theorem getConfigurationInterface : Obligations.GetConfigurationInterface := by
  unfold Obligations.GetConfigurationInterface
  intro d rcpt s hr hm
  exact ⟨fun hi => exec_inFlight_ack rfl hr hi hm rfl, fun hi => exec_inFlight_ack rfl hr hi hm rfl⟩

/-! ## CLEAR_FEATURE, SET_FEATURE -/

/-- The halt bits after one was written, by endpoint address (R35). -/
theorem State.get_setHalt_halted (s : State) (ep : EpAddr) (b : Bool) (e : EpAddr) :
    (s.setHalt ep b).halted.get (haltIndex e) = if e = ep then b else s.halted.get (haltIndex e) := by
  refine (s.halt_setHalt ep e b).trans ?_
  by_cases h : e = ep
  · rw [if_pos h, h, if_pos rfl]
  · rw [if_neg h, if_neg fun hh => h (haltIndex_injective hh).symm]
    rfl

/-- Settles O48: `featureEndpoint` is the endpoint in `index` exactly under the stated condition, and only then is a halt bit
written. -/
theorem endpointFeatures : Obligations.EndpointFeatures := by
  unfold Obligations.EndpointFeatures
  rintro d rcpt s hr hm _ rfl
  refine ⟨fun ⟨hrcpt, hval, hv, hnum⟩ => ?_, fun hno => ?_⟩
  · have hep (hq : reqRecipient s.setup = rcpt) : featureEndpoint s.setup s = some (indexEp s.setup) :=
      featureEndpoint_acts ⟨hq.trans hrcpt, hval, hv, hnum⟩
    refine ⟨fun hi => ⟨(s.setHalt (indexEp s.setup) false).halted, s.get_setHalt_halted _ false, ?_⟩,
      fun hi => ⟨(s.setHalt (indexEp s.setup) true).halted, s.get_setHalt_halted _ true, ?_⟩⟩
    · refine exec_inFlight_ack rfl hr hi (by exact hm) ?_
      rw [ruleOf, ruleClearFeature, hep (reqRecipient_of_requestKey hi.1)]
      rfl
    · refine exec_inFlight_ack rfl hr hi (by exact hm) ?_
      rw [ruleOf, ruleSetFeature, hep (reqRecipient_of_requestKey hi.1)]
      rfl
  · have hep (hq : reqRecipient s.setup = rcpt) : featureEndpoint s.setup s = none :=
      featureEndpoint_refused fun ⟨hrcpt, h⟩ => hno ⟨hq.symm.trans hrcpt, h⟩
    refine ⟨fun hi => exec_inFlight_fail (e := .hrStdRefused) rfl hr hi ?_,
      fun hi => exec_inFlight_fail (e := .hrStdRefused) rfl hr hi ?_⟩
    · rw [ruleOf, ruleClearFeature, hep (reqRecipient_of_requestKey hi.1)]
      rfl
    · rw [ruleOf, ruleSetFeature, hep (reqRecipient_of_requestKey hi.1)]
      rfl

/-! ## SET_ADDRESS -/

/-- An address of seven bits is 0 exactly if the value is (R179). -/
theorem extractLsb'_eq_zero_of_le {v : Half} (h : v.toNat ≤ 127) : v.extractLsb' 0 7 = 0 ↔ v = 0 := by
  have heq : (v.extractLsb' 0 7).toNat = v.toNat := by
    rw [BitVec.extractLsb'_toNat, Nat.shiftRight_zero]
    omega
  rw [← BitVec.toNat_inj, ← BitVec.toNat_inj, heq]
  rfl

/-- Without an IN data stage Outcome ACK is the status stage (R128). -/
theorem ackState_statusStage {req : ControlRequest} {data : Option (List Byte)} {c : Option Token} {s : State}
    (hin : hasInData req = false) : ackState req data c s = statusState c s := if_neg (Bool.eq_false_iff.1 hin)

/-- The deferred address, where one waits (R140). -/
theorem addressedState_some {s : State} {a : BitVec 7} (h : s.pendingAddress = some a) :
    addressedState s =
      { s with
        trace := s.trace ++ [.setAddress a]
        deviceState := if a = 0 then .default else .addressed
        pendingAddress := none } := by
  rw [addressedState, h]

/-- Settles O49: the rule only keeps the address; the TX of the status stage completes the transfer, which applies it. -/
theorem setAddress : Obligations.SetAddress := by
  unfold Obligations.SetAddress
  intro d rcpt s hr hm hi
  refine ⟨fun hbad => ?_, fun hval hcfg => ?_⟩
  · refine exec_inFlight_fail (e := .hrStdRefused) (t := s) rfl hr hi ?_
    rw [ruleOf, ruleSetAddress]
    split
    · rfl
    · next hval => exact if_pos (hbad.resolve_left hval)
  have hack : exec (.setAddress d rcpt) s =
      .next (ackState s.setup none none { s with pendingAddress := some (s.setup.value.extractLsb' 0 7) }) := by
    refine exec_inFlight_ack rfl hr hi (by exact hm) ?_
    rw [ruleOf, ruleSetAddress, if_neg hval.not_gt, if_neg hcfg]
    rfl
  refine ⟨hack, fun hin hn => ⟨_, hack, ?_⟩⟩
  obtain ⟨-, hstatus, -⟩ := txElsewhere
    (statusState none { s with pendingAddress := some (s.setup.value.extractLsb' 0 7) }) hr hn
  rw [ackState_statusStage hin, hstatus rfl rfl rfl, addressedState_some rfl]
  simp only [extractLsb'_eq_zero_of_le hval]

/-! ## SET_INTERFACE, STD_OTHER, the reserved type -/

/-- Settles O50: the three rules look at nothing but the value of SET_INTERFACE. -/
theorem fixedVerdicts : Obligations.FixedVerdicts := by
  unfold Obligations.FixedVerdicts
  intro c d rcpt s hr hm
  refine ⟨fun hi => ?_, fun _ hi => ?_, fun hi => ?_⟩
  · split
    · next hval => exact exec_inFlight_ack rfl hr hi hm (if_pos hval)
    · next hval => exact exec_inFlight_fail (e := .hrStdRefused) rfl hr hi (if_neg hval)
  · exact exec_inFlight_fail (e := .hrUnsupported) rfl hr hi rfl
  · exact exec_inFlight_fail (e := .hrUnsupported) rfl hr hi rfl

end Sys2Proof.Machine
end

