-- ==== Sys2Proof/Proofs/CallbackRequests.lean ====
section
/-! SUPPORT. The requests in flight that ask a callback (41_request_dispatcher.md R173, R180, R181, R183): the empty slot, and the
scripted answer once its commands have run (43_public_api.md R264). -/

namespace Sys2Proof.Machine

/-! ## AskSlot -/

/-- The commands of an answer that all run keep the engine, the buffer with it (R265). -/
theorem runCalls_kept {cs : List Input} {s u : State} (h : runCalls cs s = .ok u) : CallKept s u := by
  have hsafe := runCalls_safe cs s
  rw [h] at hsafe
  exact hsafe

/-- The state in which the commands of an answer run has the engine of the state that asked, but for the context. -/
theorem memWf_of_runCalls {cs : List Input} {c : Call} {rest : List HandlerAnswer} {s u : State}
    (hm : memWf s.dataBuffer = true) (hu : runCalls cs (calledState c rest s) = .ok u) : memWf u.dataBuffer = true := by
  rw [(runCalls_kept hu).engine.dataBuffer]
  exact hm

theorem askSlot_empty {slot : Option HandlerId} (h : slot = none) (mk : HandlerId → Call) (s : State) :
    askSlot slot mk s = .ok (.fail .hrNoHandler, s) := by
  rw [h]
  rfl

/-- AskSlot with a registered handler and a scripted answer (R172, R264). -/
theorem askSlot_scripted {slot : Option HandlerId} {mk : HandlerId → Call} {h : HandlerId} {a : HandlerAnswer}
    {rest : List HandlerAnswer} {s u : State} (hslot : slot = some h) (ha : s.env.answers = a :: rest)
    (hu : runCalls a.calls (calledState (mk h) rest s) = .ok u) :
    askSlot slot mk s = .ok (normalise a, u.setCtx s.ctx) := by
  rw [hslot, askSlot, ask_scripted ha hu, Flow.bind_ok]

/-- A request in flight whose rule is AskSlot: an empty slot stalls it, else the callback's answer is its end (R172). -/
theorem exec_inFlight_askSlot {i : Instr} {s : State} {slot : Option HandlerId} {mk : HandlerId → Call}
    (hf : format i = .request) (hr : s.refused = false) (hm : memWf s.dataBuffer = true) (hi : inFlight i s)
    (hrule : ruleOf i s.setup (outDataOf s.setup s) s = askSlot slot mk s) :
    (slot = none → exec i s = .next (stalledState 0x13 s)) ∧
      ∀ (h : HandlerId) (a : HandlerAnswer) (rest : List HandlerAnswer) (u : State), slot = some h →
        s.env.answers = a :: rest → runCalls a.calls (calledState (mk h) rest s) = .ok u →
        exec i s = .next (answeredState s.setup a { u with ctx := s.ctx }) := by
  refine ⟨fun hslot => ?_, fun h a rest u hslot ha hu => ?_⟩
  · exact exec_inFlight_fail (e := .hrNoHandler) hf hr hi (hrule.trans (askSlot_empty hslot mk s))
  · have hmu : memWf u.dataBuffer = true := memWf_of_runCalls hm hu
    exact exec_inFlight_normalise hf hr hi (by exact hmu) (hrule.trans (askSlot_scripted hslot ha hu))

/-! ## Class and vendor requests, descriptors -/

/-- Settles O51: both rules are AskSlot of the control callback. -/
theorem classVendor : Obligations.ClassVendor := by
  unfold Obligations.ClassVendor
  rintro i s ⟨c, d, rcpt, rfl | rfl⟩ hr hm hi
  · exact exec_inFlight_askSlot rfl hr hm hi rfl
  · exact exec_inFlight_askSlot rfl hr hm hi rfl

/-- Settles O52: both rules are AskSlot of the descriptor callback, GET_DESCRIPTOR without OUT data. -/
theorem descriptors : Obligations.Descriptors := by
  unfold Obligations.Descriptors
  rintro i set s ⟨d, rcpt, rfl⟩ hr hm hi
  cases set with
  | false => exact exec_inFlight_askSlot (mk := fun h => .descriptor h s.setup []) rfl hr hm hi rfl
  | true => exact exec_inFlight_askSlot (mk := fun h => .descriptor h s.setup (outDataOf s.setup s)) rfl hr hm hi rfl

/-! ## SET_CONFIGURATION -/

section
variable {req : ControlRequest} {s : State} (bs : List Byte)

/-- A value above a byte, and a configuration of a device without an address, are refused (R183). -/
theorem ruleSetConfiguration_refused
    (h : 255 < req.value.toNat ∨ (s.deviceState = .default ∧ lowByte req.value ≠ 0)) :
    ruleSetConfiguration req bs s = .ok (.fail .hrStdRefused, s) := by
  rw [ruleSetConfiguration]
  split
  · rfl
  · next hval => exact if_pos (h.resolve_left hval)

variable (hval : req.value.toNat ≤ 255) (hdev : s.deviceState ≠ .default ∨ lowByte req.value = 0)
include hval hdev

theorem ruleSetConfiguration_empty (hcb : s.configCb = none) :
    ruleSetConfiguration req bs s = .ok (.fail .hrNoHandler, s) := by
  rw [ruleSetConfiguration, if_neg hval.not_gt, if_neg (by tauto), hcb]
  rfl

/-- An accepted value is offered to the configuration callback, whose Ack configures the device (R183). -/
theorem ruleSetConfiguration_scripted {h : HandlerId} {a : HandlerAnswer} {rest : List HandlerAnswer} {u : State}
    (hcb : s.configCb = some h) (ha : s.env.answers = a :: rest)
    (hu : runCalls a.calls (calledState (.config h (lowByte req.value)) rest s) = .ok u) :
    (a.respond = .fail → ruleSetConfiguration req bs s = .ok (.fail .hrHandlerFail, u.setCtx s.ctx)) ∧
      (a.respond = .nak → ruleSetConfiguration req bs s = .ok (.nak, u.setCtx s.ctx)) ∧
        (a.respond = .ack →
          ruleSetConfiguration req bs s = .ok (.ack none none, configure (lowByte req.value) (u.setCtx s.ctx))) := by
  rw [ruleSetConfiguration, if_neg hval.not_gt, if_neg (by tauto), hcb]
  simp only [ask_scripted ha hu, Flow.bind_ok]
  exact ⟨fun hresp => by rw [hresp]; rfl, fun hresp => by rw [hresp]; rfl, fun hresp => by rw [hresp]; rfl⟩

end

/-- Settles O53: the rule's branches in order; the callback has kept the device state that an accepted value is judged by. -/
theorem setConfiguration : Obligations.SetConfiguration := by
  unfold Obligations.SetConfiguration
  rintro d rcpt s hr hm hi _ rfl
  refine ⟨fun hbad => ?_, fun hval hdev => ⟨fun hcb => ?_, fun h a rest u hcb ha hu => ?_⟩⟩
  · exact exec_inFlight_fail (e := .hrStdRefused) rfl hr hi (ruleSetConfiguration_refused (outDataOf s.setup s) hbad)
  · exact exec_inFlight_fail (e := .hrNoHandler) rfl hr hi (ruleSetConfiguration_empty (outDataOf s.setup s) hval hdev hcb)
  · obtain ⟨hfail, hnak, hack⟩ := ruleSetConfiguration_scripted (outDataOf s.setup s) hval hdev hcb ha hu
    have hmu : memWf u.dataBuffer = true := memWf_of_runCalls hm hu
    have hstate : u.deviceState = s.deviceState := (runCalls_kept hu).engine.deviceState
    cases hresp : a.respond
    case fail => exact exec_inFlight_fail (e := .hrHandlerFail) rfl hr hi (hfail hresp)
    case nak => exact exec_inFlight_nak rfl hr hi (hnak hresp)
    case ack =>
      rw [exec_inFlight_ack rfl hr hi (by exact hmu) (hack hresp), configure, State.setCtx_deviceState, hstate]
      rfl

end Sys2Proof.Machine
end

