-- ==== Sys2Proof/Proofs/DeviceState.lean ====
section
/-! SUPPORT. What an event or a request makes of the device state (41_request_dispatcher.md R179, R183, R188, 40_control_engine.md
R140, 42_event_dispatcher.md R214). -/

namespace Sys2Proof.Machine

/-! ## The device state a procedure ends in -/

/-- `P` holds of the device state, however the procedure ends; `get` is the state of its result. -/
def Flow.EndsIn {α : Type} (get : α → State) (P : MachineState → Prop) : Flow α → Prop
  | .ok a => P (get a).deviceState
  | .raised _ s | .refused _ s => P s.deviceState

section
variable {α β : Type} {get : α → State} {get' : β → State} {P Q : MachineState → Prop}

theorem Flow.EndsIn.mono {x : Flow α} (hx : x.EndsIn get P) (h : ∀ d, P d → Q d) : x.EndsIn get Q := by
  cases x <;> exact h _ hx

theorem Flow.EndsIn.bind {x : Flow α} {f : α → Flow β} (hx : x.EndsIn get P) (h : ∀ d, P d → Q d)
    (hf : ∀ a, P (get a).deviceState → (f a).EndsIn get' Q) : (x.bind f).EndsIn get' Q := by
  cases x with
  | ok a => exact hf a hx
  | raised e s => exact h _ hx
  | refused r s => exact h _ hx

/-- Neither recovery nor a refusal touches the device state (R120, R312). -/
theorem Flow.EndsIn.finish {x : Flow State} {t : State} (hx : x.EndsIn id P) (h : finish x = .next t) : P t.deviceState := by
  rcases finish_eq_next h with rfl | ⟨e, u, rfl, rfl⟩ | ⟨r, u, rfl, rfl⟩
  · exact hx
  · rw [recover_eq, stalledState_deviceState]
    exact hx
  · exact hx

end

/-- The procedure keeps the device state of `s`, however it ends. -/
abbrev Flow.KeepsDevice {α : Type} (get : α → State) (s : State) (x : Flow α) : Prop := x.EndsIn get (· = s.deviceState)

/-! ## Callbacks -/

theorem runCall_keepsDevice (c : Input) (s : State) : (runCall c s).KeepsDevice id s := by
  rcases runCall_cases c s with ⟨i, t, -, -, hbody, e⟩ | ⟨r, e⟩ <;> rw [e]
  · exact (nestedBody_kept hbody).engine.deviceState
  · exact rfl

theorem runCalls_keepsDevice : ∀ (cs : List Input) (s : State), (runCalls cs s).KeepsDevice id s
  | [], _ => rfl
  | c :: cs, s => (runCall_keepsDevice c s).bind (fun _ => id) fun t ht =>
    (runCalls_keepsDevice cs t).mono fun _ hd => hd.trans ht

theorem ask_keepsDevice (c : Call) (s : State) : (ask c s).KeepsDevice Prod.snd s := by
  have hdraw : (drawAnswer (s.emit (.call c))).2.deviceState = s.deviceState :=
    (CallKept.draw (drawAnswer_state (s.emit (.call c)))).engine.deviceState
  exact (runCalls_keepsDevice _ _).bind (fun _ hd => hd.trans hdraw) fun _ ht => ht.trans hdraw

theorem notify_keepsDevice (c : Call) (s : State) : (notify c s).KeepsDevice id s :=
  (ask_keepsDevice c s).bind (fun _ => id) fun _ => id

theorem notifyEvent_keepsDevice (e : DeviceEvent) (s : State) : (notifyEvent e s).KeepsDevice id s := by
  unfold notifyEvent
  split
  · exact rfl
  · exact notify_keepsDevice _ s

theorem notifyEndpoint_keepsDevice (kind : Transfer) (ep : EpAddr) (s : State) :
    (notifyEndpoint kind ep s).KeepsDevice id s := by
  unfold notifyEndpoint
  split
  · exact rfl
  · exact notify_keepsDevice _ s

/-! ## Outcomes -/

theorem bufWrite_keepsDevice (addr : Nat) (bs : List Byte) (s : State) : (bufWrite addr bs s).KeepsDevice id s := by
  rcases bufWrite_cases addr bs s with ⟨-, e⟩ | ⟨-, e⟩ <;> rw [e] <;> exact rfl

theorem sendNext_keepsDevice (s : State) : (sendNext s).KeepsDevice id s := by
  rcases sendNext_cases s with ⟨-, e⟩ | ⟨-, e⟩ <;> rw [e] <;> exact rfl

theorem ackIn_keepsDevice (req : ControlRequest) (data : Option (List Byte)) (c : Option Token) (s : State) :
    (ackIn req data c s).KeepsDevice id s := by
  unfold ackIn
  split
  · exact rfl
  · dsimp only
    split
    · exact rfl
    · exact (bufWrite_keepsDevice 0 _ { s with pending := .none, completion := c }).bind (fun _ => id) fun _ ht =>
        (sendNext_keepsDevice _).mono fun _ hd => hd.trans ht

theorem applyOutcome_keepsDevice (req : ControlRequest) (o : ReqOutcome) (s : State) :
    (applyOutcome req o s).KeepsDevice id s := by
  cases o with
  | fail e => exact rfl
  | nak => exact rfl
  | ack data c =>
    rw [applyOutcome_ack]
    split
    · exact ackIn_keepsDevice req data c s
    · exact rfl

/-! ## Request rules -/

/-- The device is in Default exactly if it was. -/
def SameDefault (d d' : MachineState) : Prop := d' = .default ↔ d = .default

theorem SameDefault.of_eq {d d' : MachineState} (h : d' = d) : SameDefault d d' := h ▸ Iff.rfl

/-- A device in Default is only ever configured with 0, which leaves it there; any other device never returns to it (R183). -/
theorem configure_sameDefault {cfg : Byte} {s : State} (h : ¬(s.deviceState = .default ∧ cfg ≠ 0)) :
    SameDefault s.deviceState (configure cfg s).deviceState := by
  rw [SameDefault, configure_deviceState]
  by_cases hcfg : cfg = 0
  · by_cases hd : s.deviceState = .default <;> simp [hcfg, hd]
  · have hd : s.deviceState ≠ .default := fun hd => h ⟨hd, hcfg⟩
    rw [if_neg hcfg]
    simp [hd]

section
variable (req : ControlRequest) (bs : List Byte) (s : State)

theorem askSlot_keepsDevice (slot : Option HandlerId) (mk : HandlerId → Call) :
    (askSlot slot mk s).KeepsDevice Prod.snd s := by
  cases slot with
  | none => exact rfl
  | some h => exact (ask_keepsDevice (mk h) s).bind (fun _ => id) fun _ => id

theorem ruleGetStatus_keepsDevice : (ruleGetStatus req bs s).KeepsDevice Prod.snd s := by
  unfold ruleGetStatus
  split <;> exact rfl

theorem ruleClearFeature_keepsDevice : (ruleClearFeature req bs s).KeepsDevice Prod.snd s := by
  unfold ruleClearFeature
  split <;> exact rfl

theorem ruleSetFeature_keepsDevice : (ruleSetFeature req bs s).KeepsDevice Prod.snd s := by
  unfold ruleSetFeature
  split <;> exact rfl

theorem ruleSetAddress_keepsDevice : (ruleSetAddress req bs s).KeepsDevice Prod.snd s := by
  unfold ruleSetAddress
  split
  · exact rfl
  · split <;> exact rfl

theorem ruleSetInterface_keepsDevice : (ruleSetInterface req bs s).KeepsDevice Prod.snd s := by
  unfold ruleSetInterface
  split <;> exact rfl

/-- SET_CONFIGURATION judges its value by the device state, which the callback keeps (R183, R265). -/
theorem ruleSetConfiguration_sameDefault :
    (ruleSetConfiguration req bs s).EndsIn Prod.snd (SameDefault s.deviceState) := by
  unfold ruleSetConfiguration
  split
  · exact .of_eq rfl
  · split
    · exact .of_eq rfl
    · next hdev =>
      split
      · exact .of_eq rfl
      · refine (ask_keepsDevice _ s).bind (fun _ => .of_eq) fun r hr => ?_
        split
        · exact .of_eq hr
        · exact .of_eq hr
        · rw [← hr] at hdev ⊢
          exact configure_sameDefault hdev

/-- Every rule, by its row (R170). -/
theorem ruleOf_sameDefault (i : Instr) : (ruleOf i req bs s).EndsIn Prod.snd (SameDefault s.deviceState) := by
  cases i
  case setConfiguration => exact ruleSetConfiguration_sameDefault req bs s
  case getStatus => exact (ruleGetStatus_keepsDevice req bs s).mono fun _ => .of_eq
  case clearFeature => exact (ruleClearFeature_keepsDevice req bs s).mono fun _ => .of_eq
  case setFeature => exact (ruleSetFeature_keepsDevice req bs s).mono fun _ => .of_eq
  case setAddress => exact (ruleSetAddress_keepsDevice req bs s).mono fun _ => .of_eq
  case setInterface => exact (ruleSetInterface_keepsDevice req bs s).mono fun _ => .of_eq
  case getDescriptor | setDescriptor | classRequest | vendorRequest =>
    exact (askSlot_keepsDevice s _ _).mono fun _ => .of_eq
  all_goals exact .of_eq rfl

end

/-! ## Dispatch and the end of a status stage -/

theorem dispatchWith_sameDefault (req : ControlRequest) (i : Instr) (s : State) :
    (dispatchWith req (ruleOf i) s).EndsIn id (SameDefault s.deviceState) := by
  refine Flow.EndsIn.bind (get := fun _ => s) (P := (· = s.deviceState)) ?_ (fun _ => .of_eq) fun bs _ =>
    (ruleOf_sameDefault req bs s i).bind (fun _ => id) fun r hr =>
      (applyOutcome_keepsDevice req r.1 r.2).mono fun _ hd => hd ▸ hr
  split
  · rcases bufRead_cases 0 req.length.toNat s with ⟨-, e⟩ | ⟨-, e⟩ <;> rw [e] <;> exact rfl
  · exact rfl

/-- CompleteTransfer applies the deferred address and nothing else to the device state (R140). -/
theorem completeTransfer_endsIn (s : State) : (completeTransfer s).EndsIn id (· = (addressedState s).deviceState) := by
  cases hc : s.completion with
  | none =>
    rw [completeTransfer_silent hc]
    exact rfl
  | some tok =>
    rw [completeTransfer_token hc]
    exact notify_keepsDevice _ _

/-! ## The events -/

/-- The device state has changed only as R188 allows where no bus reset came. -/
def Transition (s : State) (d : MachineState) : Prop :=
  SameDefault s.deviceState d ∨ ∃ a, s.pendingAddress = some a ∧ d = if a = 0 then .default else .addressed

theorem Transition.of_eq {s : State} {d : MachineState} (h : d = s.deviceState) : Transition s d := .inl (.of_eq h)

theorem addressedState_transition (s : State) : Transition s (addressedState s).deviceState := by
  unfold addressedState
  split
  · exact .of_eq rfl
  · next a ha => exact .inr ⟨a, ha, rfl⟩

theorem completeTransfer_transition (s : State) : (completeTransfer s).EndsIn id (Transition s) :=
  (completeTransfer_endsIn s).mono fun _ hd => hd ▸ addressedState_transition s

theorem bodyEvtSetup_transition (p : List Byte) (s : State) : (bodyEvtSetup p s).EndsIn id (Transition s) := by
  cases hp : parseSetup p with
  | none =>
    rw [bodyEvtSetup_unparsed hp]
    exact .of_eq rfl
  | some r =>
    rw [bodyEvtSetup_parsed hp]
    split
    · unfold beginOut
      split <;> exact .of_eq rfl
    · exact (dispatchWith_sameDefault _ _ _).mono fun _ => .inl

theorem rxInData_transition (p : List Byte) (s : State) : (rxInData p s).EndsIn id (Transition s) := by
  unfold rxInData
  dsimp only
  split
  · exact .of_eq rfl
  · refine (bufWrite_keepsDevice _ p s).bind (fun _ => .of_eq) fun t ht => ?_
    split
    · exact (dispatchWith_sameDefault _ _ _).mono fun _ hd => .inl (ht ▸ hd)
    · split <;> exact .of_eq ht

theorem bodyEvtEp0Rx_transition (p : List Byte) (s : State) : (bodyEvtEp0Rx p s).EndsIn id (Transition s) := by
  unfold bodyEvtEp0Rx
  dsimp only
  split
  · exact .of_eq rfl
  · split
    · exact rxInData_transition p (s.emit (.readEndpoint ep0Out p))
    · unfold rxInStatus
      split
      · exact .of_eq rfl
      · exact completeTransfer_transition { s.emit (.readEndpoint ep0Out p) with controlState := .idle }
    all_goals exact .of_eq rfl

theorem bodyEvtEp0Tx_transition (s : State) : (bodyEvtEp0Tx s).EndsIn id (Transition s) := by
  unfold bodyEvtEp0Tx
  split
  · exact .of_eq rfl
  · split
    case h_1 | h_2 => exact (sendNext_keepsDevice s).mono fun _ => .of_eq
    case h_4 => exact completeTransfer_transition { s with controlState := .idle }
    all_goals exact .of_eq rfl

/-- Process, by its consumer (R212); what is no event is refused where it stands. -/
theorem process_transition {i : Instr} (hi : i ≠ .evtReset) (s : State) : (process i s).EndsIn id (Transition s) := by
  cases i
  case evtReset => exact absurd rfl hi
  case evtSuspend => exact (notifyEvent_keepsDevice .suspend s).mono fun _ => .of_eq
  case evtResume => exact (notifyEvent_keepsDevice .resume s).mono fun _ => .of_eq
  case evtSetup p => exact bodyEvtSetup_transition p s
  case evtEp0Rx p => exact bodyEvtEp0Rx_transition p s
  case evtEp0Tx => exact bodyEvtEp0Tx_transition s
  case evtEpnRx | evtEpnTx => exact (notifyEndpoint_keepsDevice _ _ s).mono fun _ => .of_eq
  all_goals exact .of_eq rfl

/-! ## The statement -/

/-- Whatever is no command and no bus reset. -/
theorem exec_transition {i : Instr} {s t : State} (hf : format i ≠ .command) (hi : i ≠ .evtReset) (h : exec i s = .next t) :
    Transition s t.deviceState := by
  cases hfi : format i with
  | event =>
    obtain ⟨-, ⟨-, rfl⟩ | ⟨-, hx⟩⟩ := exec_event_cases hfi h
    · exact .of_eq rfl
    · exact (process_transition hi s).finish hx
  | command => exact absurd hfi hf
  | request => exact .inl ((dispatchWith_sameDefault _ i s).finish (exec_request_cases hfi h).2)

/-- A bus reset puts the device in Default, unless it is refused where it stands (R214). -/
theorem exec_evtReset_deviceState {s t : State} (h : exec .evtReset s = .next t) :
    t.deviceState = s.deviceState ∨ t.deviceState = .default := by
  obtain ⟨-, ⟨-, rfl⟩ | ⟨-, hx⟩⟩ := exec_event_cases rfl h
  · exact .inl rfl
  · exact .inr ((notifyEvent_keepsDevice .reset (busReset s)).finish hx)

/-- Settles O58: a bus reset goes to Default, a deferred address to Default or Addressed, and nothing else enters or leaves
Default. -/
theorem deviceStateTransitions : Obligations.DeviceStateTransitions := by
  unfold Obligations.DeviceStateTransitions
  intro i s t hf h
  by_cases hi : i = .evtReset
  · subst hi
    refine ⟨fun hd => ?_, fun _ _ => .inl rfl⟩
    rcases exec_evtReset_deviceState h with ht | ht <;> simp [ht, hd]
  · rcases exec_transition hf hi h with hsame | ⟨a, ha, ht⟩
    · exact ⟨fun hd => by simp [hsame.2 hd], fun hd ht => absurd (hsame.1 ht) hd⟩
    · by_cases h0 : a = 0
      · exact ⟨fun _ => by simp [ht, h0], fun _ _ => .inr (h0 ▸ ha)⟩
      · rw [if_neg h0] at ht
        exact ⟨fun _ => by simp [ht], fun _ hd => nomatch ht.symm.trans hd⟩

end Sys2Proof.Machine
end

