-- ==== Sys2Proof/Proofs/TracedCalls.lean ====
section
/-! SUPPORT. What every procedure keeps, however it ends: the parameters (00_scope.md R7), the refused mark (only the end of a step
sets it, 60_exceptions.md R312), and a trace that only grows (43_public_api.md R262), by no call of the endpoint callback of
number 0 (42_event_dispatcher.md R217). -/

namespace Sys2Proof.Machine

/-! ## Entries that do not call endpoint 0 -/

/-- An entry that is no endpoint callback for number 0 (R217). -/
def NotEp0Call (a : Action) : Prop := ∀ h k ep, a = .call (.endpoint h k ep) → ep.num ≠ 0

/-- `t` is reached from `s` with the parameters and the refused mark kept and no call of the endpoint callback of number 0. -/
structure Proceeds (s t : State) : Prop where
  cfg : t.cfg = s.cfg
  refusedFor : t.refusedFor = s.refusedFor
  trace : Adds NotEp0Call s t

section
variable {s t u : State}

theorem Proceeds.silent (hc : t.cfg = s.cfg) (hr : t.refusedFor = s.refusedFor) (ht : t.trace = s.trace) : Proceeds s t :=
  ⟨hc, hr, .of_trace_eq ht⟩

theorem Proceeds.refl (s : State) : Proceeds s s := .silent rfl rfl rfl

theorem Proceeds.trans (h : Proceeds s t) (g : Proceeds t u) : Proceeds s u :=
  ⟨g.cfg.trans h.cfg, g.refusedFor.trans h.refusedFor, h.trace.trans g.trace⟩

/-- One entry is traced. -/
theorem Proceeds.entry {a : Action} (hc : t.cfg = s.cfg) (hr : t.refusedFor = s.refusedFor) (ht : t.trace = s.trace ++ [a])
    (ha : NotEp0Call a) : Proceeds s t :=
  ⟨hc, hr, [a], ht, by simpa using ha⟩

theorem Proceeds.draw (h : ∃ e : Env, t = { s with env := e } ∧ e.inputs = s.env.inputs ∧ e.eventQueue = s.env.eventQueue) :
    Proceeds s t := by
  obtain ⟨e, rfl, -⟩ := h
  exact .silent rfl rfl rfl

/-- The recovery path stalls and annotates (R303). -/
theorem Proceeds.recover (e : ErrCode) (s : State) : Proceeds s (recover e s) := by
  rw [recover_eq]
  refine ⟨rfl, rfl, _, stalledState_trace .., fun a ha => ?_⟩
  rintro h k ep rfl
  simp at ha

theorem Proceeds.refused (h : Proceeds s t) : t.refused = s.refused := congrArg Option.isSome h.refusedFor

end

/-! ## Procedures -/

/-- However the procedure ends, it has proceeded from `s`; `get` is the state of its result. -/
def Flow.Proceeds {α : Type} (get : α → State) (s : State) : Flow α → Prop
  | .ok a => Machine.Proceeds s (get a)
  | .raised _ t | .refused _ t => Machine.Proceeds s t

section
variable {α β : Type} {get : α → State} {get' : β → State} {s t : State} {x : Flow α}

/-- A procedure that goes on from `t`. -/
theorem Flow.Proceeds.after (hx : x.Proceeds get t) (h : Machine.Proceeds s t) : x.Proceeds get s := by
  cases x <;> exact h.trans hx

theorem Flow.Proceeds.bind {f : α → Flow β} (hx : x.Proceeds get s) (hf : ∀ a, (f a).Proceeds get' (get a)) :
    (x.bind f).Proceeds get' s := by
  cases x with
  | ok a => exact (hf a).after hx
  | raised e t => exact hx
  | refused r t => exact hx

theorem Flow.Proceeds.caught {x : Flow State} (hx : x.Proceeds id s) : (caught x).Proceeds id s := by
  cases x with
  | ok t => exact hx
  | raised e t => exact Machine.Proceeds.trans hx (.recover e t)
  | refused r t => exact hx

/-- A refusal ends the step with the mark set, and that is all it does (R312). -/
theorem Flow.Proceeds.finish {x : Flow State} (hx : x.Proceeds id s) (h : finish x = .next t) :
    t.cfg = s.cfg ∧ Adds NotEp0Call s t := by
  rcases finish_eq_next h with rfl | ⟨e, u, rfl, rfl⟩ | ⟨r, u, rfl, rfl⟩
  · exact ⟨hx.cfg, hx.trace⟩
  · have hrec := Machine.Proceeds.trans hx (.recover e u)
    exact ⟨hrec.cfg, hrec.trace⟩
  · exact ⟨hx.cfg, hx.trace⟩

end

/-! ## Callbacks -/

/-- The body of a nested command traces its one HAL action, or nothing (R242 to R255). -/
theorem nestedBody_proceeds (i : Instr) (s : State) : (nestedBody i s).Proceeds id s := by
  cases i
  case epConfig | epDeconfig | epStall | epUnstall | enable | connect => exact .entry rfl rfl rfl nofun
  case epWrite => exact (Proceeds.draw (drawWritten_state s)).trans (.entry rfl rfl rfl nofun)
  case epRead => exact (Proceeds.draw (drawRead_state s)).trans (.entry rfl rfl rfl nofun)
  case getInfo => exact (Proceeds.draw (drawInfo_state s)).trans (.entry rfl rfl rfl nofun)
  case regEvent e h => exact .silent (s.setEvtCb_cfg e h) (s.setEvtCb_refusedFor e h) (s.setEvtCb_trace e h)
  all_goals exact .silent rfl rfl rfl

theorem runCall_proceeds (c : Input) (s : State) : (runCall c s).Proceeds id s := by
  rcases runCall_cases c s with ⟨i, t, -, -, hbody, e⟩ | ⟨r, e⟩
  · rw [e, ← hbody]
    exact nestedBody_proceeds i s
  · rw [e]
    exact .refl s

theorem runCalls_proceeds : ∀ (cs : List Input) (s : State), (runCalls cs s).Proceeds id s
  | [], s => .refl s
  | c :: cs, s => (runCall_proceeds c s).bind (runCalls_proceeds cs)

section
variable {c : Call} (hc : NotEp0Call (.call c))
include hc

theorem ask_proceeds (s : State) : (ask c s).Proceeds Prod.snd s := by
  have hdraw : Proceeds s (drawAnswer (s.emit (.call c))).2 :=
    (Proceeds.entry (s := s) (t := s.emit (.call c)) rfl rfl rfl hc).trans (.draw (drawAnswer_state _))
  have hctx : Proceeds s ((drawAnswer (s.emit (.call c))).2.setCtx .inCallback) := hdraw.trans (.silent rfl rfl rfl)
  exact Flow.Proceeds.bind ((runCalls_proceeds _ _).after hctx) fun t => Proceeds.silent rfl rfl rfl

theorem notify_proceeds (s : State) : (notify c s).Proceeds id s := (ask_proceeds hc s).bind fun r => Proceeds.refl r.2

end

theorem notifyEvent_proceeds (e : DeviceEvent) (s : State) : (notifyEvent e s).Proceeds id s := by
  unfold notifyEvent
  split
  · exact .refl s
  · exact notify_proceeds (by nofun) s

/-- The one endpoint callback of the block: that of the number it is given (R218, R219). -/
theorem notifyEndpoint_proceeds (kind : Transfer) {ep : EpAddr} (hep : ep.num ≠ 0) (s : State) :
    (notifyEndpoint kind ep s).Proceeds id s := by
  unfold notifyEndpoint
  split
  · exact .refl s
  · refine notify_proceeds ?_ s
    rintro _ _ _ ⟨⟩
    exact hep

theorem addressedState_proceeds (s : State) : Proceeds s (addressedState s) := by
  unfold addressedState
  split
  · exact .refl s
  · exact .entry rfl rfl rfl nofun

theorem completeTransfer_proceeds (s : State) : (completeTransfer s).Proceeds id s := by
  cases hc : s.completion with
  | none =>
    rw [completeTransfer_silent hc]
    exact addressedState_proceeds s
  | some tok =>
    rw [completeTransfer_token hc]
    exact (notify_proceeds (by nofun) _).after ((addressedState_proceeds s).trans (.silent rfl rfl rfl))

/-! ## Request rules -/

section
variable (req : ControlRequest) (bs : List Byte) (s : State)

theorem askSlot_proceeds (slot : Option HandlerId) {mk : HandlerId → Call} (hmk : ∀ h, NotEp0Call (.call (mk h))) :
    (askSlot slot mk s).Proceeds Prod.snd s := by
  cases slot with
  | none => exact .refl s
  | some h => exact (ask_proceeds (hmk h) s).bind fun r => Proceeds.refl r.2

theorem ruleSetConfiguration_proceeds : (ruleSetConfiguration req bs s).Proceeds Prod.snd s := by
  unfold ruleSetConfiguration
  split
  · exact .refl s
  · split
    · exact .refl s
    · split
      · exact .refl s
      · refine (ask_proceeds (by nofun) s).bind fun r => ?_
        split <;> exact .silent rfl rfl rfl

/-- Every rule, by its row (R170): it asks a callback of its own, acts once on an endpoint, or answers silently. -/
theorem ruleOf_proceeds (i : Instr) : (ruleOf i req bs s).Proceeds Prod.snd s := by
  cases i
  case getDescriptor | setDescriptor | classRequest | vendorRequest => exact askSlot_proceeds s _ fun _ => nofun
  case setConfiguration => exact ruleSetConfiguration_proceeds req bs s
  case clearFeature | setFeature =>
    dsimp only [ruleOf, ruleClearFeature, ruleSetFeature]
    split
    · exact .refl s
    · exact .entry rfl rfl rfl nofun
  case setAddress =>
    dsimp only [ruleOf, ruleSetAddress]
    split
    · exact .refl s
    · split <;> exact .silent rfl rfl rfl
  case getStatus | setInterface =>
    dsimp only [ruleOf, ruleGetStatus, ruleSetInterface]
    split <;> exact .refl s
  all_goals exact .refl s

end

/-! ## Outcomes and Dispatch -/

theorem bufRead_proceeds (addr n : Nat) (s : State) : (bufRead addr n s).Proceeds (fun _ => s) s := by
  rcases bufRead_cases addr n s with ⟨-, e⟩ | ⟨-, e⟩ <;> rw [e] <;> exact .refl s

theorem bufWrite_proceeds (addr : Nat) (bs : List Byte) (s : State) : (bufWrite addr bs s).Proceeds id s := by
  rcases bufWrite_cases addr bs s with ⟨-, e⟩ | ⟨-, e⟩ <;> rw [e] <;> exact .silent rfl rfl rfl

theorem sendNext_proceeds (s : State) : (sendNext s).Proceeds id s := by
  rcases sendNext_cases s with ⟨-, e⟩ | ⟨-, e⟩ <;> rw [e]
  · exact .entry rfl rfl rfl nofun
  · exact .refl s

theorem ackIn_proceeds (req : ControlRequest) (data : Option (List Byte)) (c : Option Token) (s : State) :
    (ackIn req data c s).Proceeds id s := by
  unfold ackIn
  split
  · exact .refl s
  · dsimp only
    split
    · exact .refl s
    · refine Flow.Proceeds.after (t := { s with pending := .none, completion := c }) ?_ (.silent rfl rfl rfl)
      exact (bufWrite_proceeds 0 _ _).bind fun t => (sendNext_proceeds _).after (.silent rfl rfl rfl)

theorem applyOutcome_proceeds (req : ControlRequest) (o : ReqOutcome) (s : State) : (applyOutcome req o s).Proceeds id s := by
  cases o with
  | fail e => exact .refl s
  | nak => exact .silent rfl rfl rfl
  | ack data c =>
    rw [applyOutcome_ack]
    split
    · exact ackIn_proceeds req data c s
    · exact .entry rfl rfl rfl nofun

theorem dispatchWith_proceeds (req : ControlRequest) (i : Instr) (s : State) :
    (dispatchWith req (ruleOf i) s).Proceeds id s := by
  refine Flow.Proceeds.bind (get := fun _ => s) ?_ fun bs =>
    (ruleOf_proceeds req bs s i).bind fun r => applyOutcome_proceeds req r.1 r.2
  split
  · exact bufRead_proceeds 0 _ s
  · exact .refl s

/-! ## The events -/

theorem bodyEvtSetup_proceeds (p : List Byte) (s : State) : (bodyEvtSetup p s).Proceeds id s := by
  cases hp : parseSetup p with
  | none =>
    rw [bodyEvtSetup_unparsed hp]
    exact .entry rfl rfl rfl nofun
  | some r =>
    have hread : Proceeds s (setupState p r s) := .entry rfl rfl rfl nofun
    rw [bodyEvtSetup_parsed hp]
    split
    · unfold beginOut
      split
      · exact hread
      · exact hread.trans (.silent rfl rfl rfl)
    · exact (dispatchWith_proceeds _ _ _).after hread

theorem rxInData_proceeds (p : List Byte) (s : State) : (rxInData p s).Proceeds id s := by
  unfold rxInData
  dsimp only
  split
  · exact .refl s
  · refine (bufWrite_proceeds _ p s).bind fun t => ?_
    split
    · exact (dispatchWith_proceeds _ _ _).after (.silent rfl rfl rfl)
    · split <;> exact .silent rfl rfl rfl

theorem bodyEvtEp0Rx_proceeds (p : List Byte) (s : State) : (bodyEvtEp0Rx p s).Proceeds id s := by
  refine Flow.Proceeds.after (t := s.emit (.readEndpoint ep0Out p)) ?_ (.entry rfl rfl rfl nofun)
  unfold bodyEvtEp0Rx
  dsimp only
  split
  · exact .refl _
  · split
    · exact rxInData_proceeds p _
    · unfold rxInStatus
      split
      · exact .refl _
      · exact (completeTransfer_proceeds _).after (.silent rfl rfl rfl)
    all_goals exact .refl _

theorem bodyEvtEp0Tx_proceeds (s : State) : (bodyEvtEp0Tx s).Proceeds id s := by
  unfold bodyEvtEp0Tx
  split
  · exact .refl s
  · split
    case h_1 | h_2 => exact sendNext_proceeds s
    case h_4 => exact (completeTransfer_proceeds _).after (.silent rfl rfl rfl)
    all_goals exact .silent rfl rfl rfl

/-- Process of a legal event, by its consumer (R212): a legal event of another endpoint has a number other than 0 (R95). -/
theorem process_proceeds {i : Instr} {s : State} (hw : i.wf s.limits = true) : (process i s).Proceeds id s := by
  cases i
  case evtReset => exact (notifyEvent_proceeds .reset (busReset s)).after (.entry rfl rfl rfl nofun)
  case evtSuspend => exact notifyEvent_proceeds .suspend s
  case evtResume => exact notifyEvent_proceeds .resume s
  case evtSetup p => exact bodyEvtSetup_proceeds p s
  case evtEp0Rx p => exact bodyEvtEp0Rx_proceeds p s
  case evtEp0Tx => exact bodyEvtEp0Tx_proceeds s
  case evtEpnRx => exact notifyEndpoint_proceeds .rx (wf_evtEpnRx_iff.1 hw).1 s
  case evtEpnTx => exact notifyEndpoint_proceeds .tx (wf_evtEpnTx_iff.1 hw).1 s
  all_goals exact .refl s

/-! ## The poll cycle -/

theorem takeEvent_proceeds (e : EventInput) (s : State) : (takeEvent e s).Proceeds id s := by
  unfold takeEvent
  split
  · exact .refl s
  · next hd =>
    obtain ⟨-, -, hw, -⟩ := decodeEvent_isEventWith hd
    exact (process_proceeds hw).caught

theorem takeEvents_proceeds : ∀ (es : List EventInput) (s : State), (takeEvents es s).Proceeds id s
  | [], s => .refl s
  | e :: es, s => (takeEvent_proceeds e s).bind (takeEvents_proceeds es)

theorem armPending_proceeds (s : State) : Proceeds s (armPending s) := by
  unfold armPending
  split <;> exact .silent rfl rfl rfl

theorem retry_proceeds (s : State) : (retry s).Proceeds id s := by
  by_cases hp : s.pending = .armed
  · rw [retry_armed hp]
    exact (dispatchWith_proceeds _ _ s).caught.bind armPending_proceeds
  · rw [retry_notArmed hp]
    exact armPending_proceeds s

theorem bodyPoll_proceeds (batch : List EventInput) (s : State) : (bodyPoll batch s).Proceeds id s := by
  refine Flow.Proceeds.after (t := { s with env := { s.env with eventQueue := [] } }) ?_ (.silent rfl rfl rfl)
  exact (takeEvents_proceeds _ _).bind fun t => (retry_proceeds t).bind fun u => Proceeds.silent rfl rfl rfl

/-! ## Instructions -/

theorem commandBody_proceeds (i : Instr) (s : State) : (commandBody i s).Proceeds id s := by
  rcases commandBody_cases i with ⟨cap, ep0, rfl⟩ | ⟨batch, rfl⟩ | hb
  · dsimp only [commandBody, bodyInit]
    split <;> exact .silent rfl rfl rfl
  · exact bodyPoll_proceeds batch s
  · rw [hb]
    exact nestedBody_proceeds i s

/-- Every instruction, refused where it stands or run to its end: the parameters are kept (R7), the trace only grows (R262). -/
theorem exec_adds {i : Instr} {s t : State} (h : exec i s = .next t) : t.cfg = s.cfg ∧ Adds NotEp0Call s t := by
  cases hf : format i with
  | event =>
    obtain ⟨-, ⟨-, rfl⟩ | ⟨hw, hx⟩⟩ := exec_event_cases hf h
    · exact ⟨rfl, .of_trace_eq rfl⟩
    · exact (process_proceeds hw).finish hx
  | command =>
    rw [exec_command hf] at h
    rcases runCommand_cases i (commandBody i) s with ⟨-, e⟩ | ⟨-, r, -, e⟩ | ⟨-, -, e⟩ <;> rw [e] at h
    · cases h
    · cases h
      exact ⟨rfl, .of_trace_eq rfl⟩
    · exact (commandBody_proceeds i s).finish h
  | request => exact (dispatchWith_proceeds _ i s).finish (exec_request_cases hf h).2

/-- Settles O45: the only endpoint callback is that of a legal event of another endpoint, and its number is not 0. -/
theorem ep0HandlerNeverCalled : Obligations.Ep0HandlerNeverCalled := by
  unfold Obligations.Ep0HandlerNeverCalled
  intro i s t u hexec hu h k ep hmem
  exact (exec_adds hexec).2.of_mem hu _ hmem h k ep rfl

end Sys2Proof.Machine
end

