-- ==== Sys2Proof/Proofs/Notifications.lean ====
section
/-! SUPPORT. The events of the Event/Endpoint Dispatcher that do nothing but notify the application (42_event_dispatcher.md R215,
R216, R218, R219, R223): the empty slot, and the scripted answer once its commands have run (43_public_api.md R264, R266). -/

namespace Sys2Proof.Machine

/-! ## The event after its notification -/

section
variable {s u : State} {h : HandlerId} {a : HandlerAnswer} {rest : List HandlerAnswer}

theorem finish_notifyEvent_empty {e : DeviceEvent} (hslot : s.evtCb e = none) : finish (notifyEvent e s) = .next s := by
  rw [notifyEvent, hslot, finish_ok]

/-- NotifyEvent with a registered handler and a scripted answer (R223, R266). -/
theorem finish_notifyEvent_scripted {e : DeviceEvent} (hslot : s.evtCb e = some h) (ha : s.env.answers = a :: rest)
    (hu : runCalls a.calls (calledState (.event h e) rest s) = .ok u) :
    finish (notifyEvent e s) = .next { u with ctx := s.ctx } := by
  rw [notifyEvent, hslot]
  exact congrArg finish (notify_scripted ha hu)

theorem finish_notifyEndpoint_empty {kind : Transfer} {ep : EpAddr} (hslot : s.epCb ep.num = none) :
    finish (notifyEndpoint kind ep s) = .next s := by
  rw [notifyEndpoint, hslot, finish_ok]

/-- The endpoint callback with a registered handler and a scripted answer (R218, R219, R266). -/
theorem finish_notifyEndpoint_scripted {kind : Transfer} {ep : EpAddr} (hslot : s.epCb ep.num = some h)
    (ha : s.env.answers = a :: rest) (hu : runCalls a.calls (calledState (.endpoint h kind ep) rest s) = .ok u) :
    finish (notifyEndpoint kind ep s) = .next { u with ctx := s.ctx } := by
  rw [notifyEndpoint, hslot]
  exact congrArg finish (notify_scripted ha hu)

end

/-! ## Legal events by themselves -/

section
variable {s : State} (hr : s.refused = false)
include hr

theorem exec_evtSuspend : exec .evtSuspend s = finish (notifyEvent .suspend s) := runEvent_legal bodyEvtSuspend hr rfl

theorem exec_evtResume : exec .evtResume s = finish (notifyEvent .resume s) := runEvent_legal bodyEvtResume hr rfl

variable {n : BitVec 4} (hne : n ≠ 0) (hlt : n.toNat < s.cfg.numEp)
include hne hlt

theorem exec_evtEpnRx : exec (.evtEpnRx n) s = finish (notifyEndpoint .rx { dir := .out, num := n } s) :=
  runEvent_legal (bodyEvtEpnRx n) hr (wf_evtEpnRx_iff.2 ⟨hne, hlt⟩)

theorem exec_evtEpnTx : exec (.evtEpnTx n) s = finish (notifyEndpoint .tx { dir := .inn, num := n } s) :=
  runEvent_legal (bodyEvtEpnTx n) hr (wf_evtEpnTx_iff.2 ⟨hne, hlt⟩)

end

/-! ## The statements -/

/-- Settles O43: both events are NotifyEvent of their own slot. -/
theorem suspendResume : Obligations.SuspendResume := by
  unfold Obligations.SuspendResume
  intro s hr
  rw [exec_evtSuspend hr, exec_evtResume hr]
  exact ⟨finish_notifyEvent_empty (e := .suspend), finish_notifyEvent_empty (e := .resume), fun h a rest u ha =>
    ⟨fun hslot => finish_notifyEvent_scripted (e := .suspend) hslot ha,
      fun hslot => finish_notifyEvent_scripted (e := .resume) hslot ha⟩⟩

/-- Settles O44: both events are legal, and both look up the one slot of their number. -/
theorem endpointEvents : Obligations.EndpointEvents := by
  unfold Obligations.EndpointEvents
  intro s n hr hne hlt
  rw [exec_evtEpnRx hr hne hlt, exec_evtEpnTx hr hne hlt]
  exact ⟨fun hslot => ⟨finish_notifyEndpoint_empty hslot, finish_notifyEndpoint_empty hslot⟩, fun h a rest u hslot ha =>
    ⟨finish_notifyEndpoint_scripted (ep := { dir := .out, num := n }) hslot ha,
      finish_notifyEndpoint_scripted (ep := { dir := .inn, num := n }) hslot ha⟩⟩

end Sys2Proof.Machine
end

