-- ==== Sys2Proof/Proofs/PollCycle.lean ====
section
/-! SUPPORT. The poll cycle in the spec's words (42_event_dispatcher.md R210, R220, R221): each event and the retry are instructions
executed by themselves, and the first refusal ends the cycle (60_exceptions.md R312). -/

namespace Sys2Proof.Machine

/-! ## One part of the cycle after the other -/

/-- The rest of the cycle after an instruction: nothing runs after a refusal (R312). -/
def goOn (x : Host.Outcome State Fault Refusal) (rest : State → Host.Outcome State Fault Refusal) :
    Host.Outcome State Fault Refusal :=
  match x with
  | .next t => if t.refused = true then .next t else rest t
  | .fault f => .fault f
  | .refused r => .refused r

theorem eventsEnd_cons_illegal {e : EventInput} {s : State} {x : Reject} (hd : decodeEvent s.limits e.word e.payload = .error x)
    (es : List EventInput) : eventsEnd (e :: es) s = .next (refusedState .reservedInput s) := by
  simp only [eventsEnd, hd]

theorem eventsEnd_cons_legal {e : EventInput} {s : State} {i : Instr} (hd : decodeEvent s.limits e.word e.payload = .ok i)
    (es : List EventInput) : eventsEnd (e :: es) s = goOn (exec i s) (eventsEnd es) := by
  simp only [eventsEnd, hd]
  rfl

/-- The pending state at the end of a retry (R220). -/
theorem armPending_eq (s : State) : armPending s = { s with pending := if s.pending = .fresh then .armed else s.pending } := by
  unfold armPending
  split <;> rfl

theorem retryEnd_eq (s : State) :
    retryEnd s =
      goOn (if s.pending = .armed then exec (decodeKey (requestKey s.setup)) s else .next s) fun t => .next (armPending t) := by
  simp only [armPending_eq]
  rfl

theorem pollEnd_eq (batch : List EventInput) (s : State) :
    pollEnd batch s =
      goOn (eventsEnd (s.env.eventQueue ++ batch) { s with env := { s.env with eventQueue := [] } }) fun t =>
        goOn (retryEnd t) fun u => .next { u with returned := .events (s.env.eventQueue.length + batch.length) } := rfl

/-! ## Procedures that end a part of the cycle -/

/-- The procedure goes on without the refused mark or refuses: a raise in it has been recovered. -/
def Flow.Steady : Flow State → Prop
  | .ok t => t.refused = false
  | .raised _ _ => False
  | .refused _ _ => True

theorem Flow.Steady.bind {x : Flow State} {f : State → Flow State} (hx : x.Steady)
    (hf : ∀ t, t.refused = false → (f t).Steady) : (x.bind f).Steady := by
  cases x with
  | ok t => exact hf t hx
  | raised e t => exact hx
  | refused r t => exact hx

/-- What recovers its raises is steady: only the end of a step sets the mark (R303, R312). -/
theorem Flow.Proceeds.steady_caught {x : Flow State} {s : State} (hx : x.Proceeds id s) (hr : s.refused = false) :
    (Machine.caught x).Steady := by
  cases x with
  | ok t => exact hx.refused.trans hr
  | raised e t => exact (Machine.Proceeds.trans hx (.recover e t)).refused.trans hr
  | refused r t => trivial

/-- The end of a step recovers a raise as the end of an event does (R303). -/
theorem finish_caught (x : Flow State) : finish (caught x) = finish x := by
  cases x <;> rfl

/-- The cycle goes on exactly as its procedures do. -/
theorem goOn_finish {x : Flow State} {f : State → Flow State} {rest : State → Host.Outcome State Fault Refusal} (hx : x.Steady)
    (hf : ∀ t, t.refused = false → rest t = finish (f t)) : goOn (finish x) rest = finish (x.bind f) := by
  cases x with
  | ok t =>
    have ht : t.refused = false := hx
    simp only [finish_ok, goOn, ht, Bool.false_eq_true, if_false, Flow.bind_ok, hf t ht]
  | raised e t => exact hx.elim
  | refused r t => rfl

/-! ## The events -/

/-- A legal event of a batch ends as the event executed by itself (R210, log 21). -/
theorem exec_decoded {e : EventInput} {s : State} {i : Instr} (hr : s.refused = false)
    (hd : decodeEvent s.limits e.word e.payload = .ok i) : exec i s = finish (takeEvent e s) := by
  obtain ⟨-, hf, hw, -⟩ := decodeEvent_isEventWith hd
  rw [exec_event hf, runEvent_legal _ hr hw, takeEvent, hd, finish_caught]

theorem takeEvent_steady (e : EventInput) {s : State} (hr : s.refused = false) : (takeEvent e s).Steady := by
  unfold takeEvent
  split
  · trivial
  · next hd =>
    obtain ⟨-, -, hw, -⟩ := decodeEvent_isEventWith hd
    exact (process_proceeds hw).steady_caught hr

theorem takeEvents_steady : ∀ (es : List EventInput) {s : State}, s.refused = false → (takeEvents es s).Steady
  | [], _, hr => hr
  | e :: es, _, hr => (takeEvent_steady e hr).bind fun _ => takeEvents_steady es

/-- The batch is its events by themselves, in list order (R210, R306). -/
theorem eventsEnd_eq_takeEvents : ∀ (es : List EventInput) {s : State}, s.refused = false →
    eventsEnd es s = finish (takeEvents es s)
  | [], _, _ => rfl
  | e :: es, s, hr => by
    cases hd : decodeEvent s.limits e.word e.payload with
    | error x =>
      rw [eventsEnd_cons_illegal hd, takeEvents_cons, takeEvent, hd]
      rfl
    | ok i =>
      rw [eventsEnd_cons_legal hd, exec_decoded hr hd]
      exact goOn_finish (takeEvent_steady e hr) fun _ => eventsEnd_eq_takeEvents es

/-! ## The retry -/

theorem dispatch_steady {s : State} (hr : s.refused = false) : (caught (dispatch s)).Steady :=
  (dispatchWith_proceeds _ _ s).steady_caught hr

theorem armPending_refused (s : State) : (armPending s).refused = s.refused := (armPending_proceeds s).refused

theorem retry_steady {s : State} (hr : s.refused = false) : (retry s).Steady := by
  by_cases hp : s.pending = .armed
  · rw [retry_armed hp]
    exact (dispatch_steady hr).bind fun t ht => (armPending_refused t).trans ht
  · rw [retry_notArmed hp]
    exact (armPending_refused s).trans hr

/-- The retry is the armed request by itself (R220, log 12), then the fresh Nak armed. -/
theorem retryEnd_eq_retry {s : State} (hr : s.refused = false) : retryEnd s = finish (retry s) := by
  rw [retryEnd_eq]
  by_cases hp : s.pending = .armed
  · rw [if_pos hp, retry_armed hp, ← finish_dispatch hr, ← finish_caught]
    exact goOn_finish (dispatch_steady hr) fun _ _ => rfl
  · rw [if_neg hp, retry_notArmed hp]
    exact goOn_finish (x := .ok s) (f := fun t => .ok (armPending t)) hr fun _ _ => rfl

/-! ## The statements -/

/-- Settles O21: an admitted POLL runs its procedures, and each part of the cycle goes on as its procedure does. -/
theorem pollIsEventsThenRetry : Obligations.PollIsEventsThenRetry := by
  unfold Obligations.PollIsEventsThenRetry
  intro batch s hs hx
  have hr : State.refused { s with env := { s.env with eventQueue := [] } } = false := hs.1
  rw [exec_poll_admitted batch hs hx, pollEnd_eq, eventsEnd_eq_takeEvents _ hr, ← List.length_append]
  refine (goOn_finish (takeEvents_steady _ hr) fun t ht => ?_).symm
  rw [retryEnd_eq_retry ht]
  exact goOn_finish (retry_steady ht) fun _ _ => rfl

/-- Settles O22: without an event or an armed request the retry only arms a fresh Nak. -/
theorem emptyPoll : Obligations.EmptyPoll := by
  unfold Obligations.EmptyPoll
  intro s hs hx hq hp
  rw [exec_poll_admitted [] hs hx, bodyPoll_nil hq, retry_notArmed hp, Flow.bind_ok, finish_ok, armPending_eq]

end Sys2Proof.Machine
end

