-- ==== Sys2Proof/Proofs/PublicCommands.lean ====
section
/-! SUPPORT. The application's interface (43_public_api.md): the action trace that every instruction leaves (R262), the admission
check in the spec's words (R256), and what each command other than POLL ends in once it is admitted (R240 to R255). -/

namespace Sys2Proof.Machine

/-! ## The trace and the parameters -/

/-- Settles O17: every procedure proceeds from the state it starts in. -/
theorem traceGrows : Obligations.TraceGrows := by
  unfold Obligations.TraceGrows
  intro i s t h
  obtain ⟨hcfg, u, htrace, -⟩ := exec_adds h
  exact ⟨⟨u, htrace⟩, hcfg⟩

/-! ## Admission in the spec's words -/

/-- The checks before decoding tell INIT and POLL by their words, as the spec does by their names (R256). -/
theorem earlyRefusal_encodeWord {i : Instr} (hf : format i = .command) (s : State) :
    earlyRefusal (encodeWord i) s =
      if s.initialised = false ∧ isInit i = false then some .notInitialised
      else if s.ctx = .inCallback ∧ (isInit i = true ∨ isPoll i = true) then some .reentrant
      else none := by
  cases i <;> cases hf <;> simp [earlyRefusal, encodeWord, isInit, isPoll]

/-- An endpoint command on another endpoint than number 0, in the direction it needs, passes the last checks (R256). -/
theorem endpointRefusal_eq_none {i : Instr} {ep : EpAddr} (hep : commandEndpoint i = some ep) (hnum : ep.num ≠ 0)
    (hdir : ∀ d ∈ neededDir i, ep.dir = d) : endpointRefusal i = none := by
  have hno : ¬(neededDir i = some .out ∧ ep.dir = .inn ∨ neededDir i = some .inn ∧ ep.dir = .out) := by
    rintro (⟨hd, h⟩ | ⟨hd, h⟩) <;> cases h.symm.trans (hdir _ hd)
  rw [endpointRefusal, hep]
  exact (if_neg hnum).trans (if_neg hno)

/-- An endpoint command on number 0 (R256). -/
theorem endpointRefusal_ep0 {i : Instr} {ep : EpAddr} (hep : commandEndpoint i = some ep) (hnum : ep.num = 0) :
    endpointRefusal i = some .ep0Reserved := by
  rw [endpointRefusal, hep]
  exact if_pos hnum

/-- The endpoint checks come after every other check (R256). -/
theorem admissionSpec_eq (i : Instr) (s : State) :
    admissionSpec i s =
      if s.initialised = false ∧ isInit i = false then some .notInitialised
      else if s.ctx = .inCallback ∧ (isInit i = true ∨ isPoll i = true) then some .reentrant
      else if i.wf s.limits = false then some .reservedInput
      else endpointRefusal i := by
  unfold admissionSpec
  congr 3
  cases i
  case epConfig | epDeconfig | epWrite | epRead | epStall | epUnstall =>
    simp [endpointRefusal, commandEndpoint, neededDir]
  all_goals rfl

/-- The model's admission is the spec's (R256). -/
theorem admission_eq_admissionSpec {i : Instr} (hf : format i = .command) (s : State) : admission i s = admissionSpec i s := by
  rw [admission, earlyRefusal_encodeWord hf, admissionSpec_eq]
  by_cases hinit : s.initialised = false ∧ isInit i = false
  · simp only [if_pos hinit]
  · by_cases hctx : s.ctx = .inCallback ∧ (isInit i = true ∨ isPoll i = true)
    · simp only [if_neg hinit, if_pos hctx]
    · simp only [if_neg hinit, if_neg hctx]
      cases i.wf s.limits <;> rfl

theorem exec_refused {i : Instr} {s : State} {r : RefuseReason} (hf : format i = .command) (hr : s.refused = false)
    (ha : admissionSpec i s = some r) : exec i s = .next (refusedState r s) := by
  rw [← admission_eq_admissionSpec hf] at ha
  simp [exec_command hf, runCommand, hr, ha, State.refuse, refusedState]

theorem exec_admitted {i : Instr} {s : State} (hf : format i = .command) (hr : s.refused = false)
    (ha : admissionSpec i s = none) : exec i s = finish (commandBody i s) := by
  rw [exec_command hf, runCommand_admitted _ hr (by rw [admission_eq_admissionSpec hf, ha])]

/-- Settles O33: the model's admission is the spec's. -/
theorem admissionOrder : Obligations.AdmissionOrder := fun _ _ _ hf hr ha => exec_refused hf hr ha

/-! ## INIT -/

theorem ep0SizeLegal_iff {n : Half} : ep0SizeLegal n = true ↔ n = 8 ∨ n = 16 ∨ n = 32 ∨ n = 64 := by
  simp [ep0SizeLegal]

theorem admissionSpec_init_normal (cap : Word) (ep0 : Half) {s : State} (hx : s.ctx = .normal) :
    admissionSpec (.init cap ep0) s = none := by
  simp [admissionSpec, isInit, hx, Instr.wf]

theorem admissionSpec_init_inCallback (cap : Word) (ep0 : Half) {s : State} (hx : s.ctx = .inCallback) :
    admissionSpec (.init cap ep0) s = some .reentrant := by
  simp [admissionSpec, isInit, hx]

/-- Settles O34: INIT is admitted outside a callback, and its body tests the EP0 packet size alone. -/
theorem initResult : Obligations.InitResult := by
  unfold Obligations.InitResult
  intro cap ep0 s hr
  have hbody (hx : s.ctx = .normal) : exec (.init cap ep0) s = finish (bodyInit cap ep0 s) :=
    exec_admitted rfl hr (admissionSpec_init_normal cap ep0 hx)
  refine ⟨fun hx hsize => ⟨[], Config.freeSetup s.env.draws, s.env.draws + 1, ?_⟩, fun hx h8 h16 h32 h64 => ?_, fun hx => ?_⟩
  · rw [hbody hx, bodyInit, if_pos (ep0SizeLegal_iff.2 hsize)]
    rfl
  · rw [hbody hx, bodyInit, if_neg (mt ep0SizeLegal_iff.1 (by tauto))]
    rfl
  · exact exec_refused rfl hr (admissionSpec_init_inCallback cap ep0 hx)

/-! ## Commands in a ready state -/

theorem commandBody_eq_nestedBody {i : Instr} (hi : isInit i = false) (hp : isPoll i = false) :
    commandBody i = nestedBody i := by
  rcases commandBody_cases i with ⟨_, _, rfl⟩ | ⟨_, rfl⟩ | hb
  · cases hi
  · cases hp
  · exact hb

section
variable {i : Instr} {s : State} (hf : format i = .command) (hi : isInit i = false) (hp : isPoll i = false) (hs : s.ready)
include hi hp hs

/-- A ready block leaves only the operands of a command to check, in a callback as outside (R256). -/
theorem admissionSpec_ready :
    admissionSpec i s = if i.wf s.limits = false then some .reservedInput else endpointRefusal i := by
  simp [admissionSpec_eq, hi, hp, hs.2]

include hf

/-- A command with legal operands runs its body. -/
theorem exec_ready (hw : i.wf s.limits = true) (he : endpointRefusal i = none) : exec i s = finish (nestedBody i s) := by
  rw [exec_admitted hf hs.1 (by simp [admissionSpec_ready hi hp hs, hw, he]), commandBody_eq_nestedBody hi hp]

theorem exec_ready_reserved (hw : i.wf s.limits = false) : exec i s = .next (refusedState .reservedInput s) :=
  exec_refused hf hs.1 (by simp [admissionSpec_ready hi hp hs, hw])

theorem exec_ready_refused {r : RefuseReason} (hw : i.wf s.limits = true) (he : endpointRefusal i = some r) :
    exec i s = .next (refusedState r s) :=
  exec_refused hf hs.1 (by simp [admissionSpec_ready hi hp hs, hw, he])

end

/-- Settles O35: each registration is admitted in every ready state, REG_ENDPOINT for a number the controller has. -/
theorem registering : Obligations.Registering := by
  unfold Obligations.Registering
  intro s h hs
  refine ⟨exec_ready rfl rfl rfl hs rfl rfl, exec_ready rfl rfl rfl hs rfl rfl, exec_ready rfl rfl rfl hs rfl rfl,
    exec_ready rfl rfl rfl hs rfl rfl, exec_ready rfl rfl rfl hs rfl rfl, exec_ready rfl rfl rfl hs rfl rfl,
    fun n => ⟨fun hn => ?_, fun hn => ?_⟩⟩
  · exact exec_ready rfl rfl rfl hs (decide_eq_true hn) rfl
  · exact exec_ready_reserved rfl rfl rfl hs (decide_eq_false hn.not_gt)

/-- Settles O38: both are admitted in every ready state. -/
theorem enableConnect : Obligations.EnableConnect :=
  fun _ _ hs => ⟨exec_ready rfl rfl rfl hs rfl rfl, exec_ready rfl rfl rfl hs rfl rfl⟩

/-! ## Endpoint commands -/

/-- An endpoint command is legal where its address is (R101). -/
theorem of_commandEndpoint {i : Instr} {ep : EpAddr} (hep : commandEndpoint i = some ep) :
    format i = .command ∧ isInit i = false ∧ isPoll i = false ∧ ∀ lim, i.wf lim = ep.valid lim := by
  cases i <;> cases hep <;> exact ⟨rfl, rfl, rfl, fun _ => rfl⟩

section
variable {i : Instr} {s : State} {ep : EpAddr} (hs : s.ready) (hlt : ep.num.toNat < s.cfg.numEp)
  (hep : commandEndpoint i = some ep)
include hs hlt hep

theorem exec_endpointCommand (hnum : ep.num ≠ 0) (hdir : ∀ d ∈ neededDir i, ep.dir = d) :
    exec i s = finish (nestedBody i s) := by
  obtain ⟨hf, hi, hp, hw⟩ := of_commandEndpoint hep
  exact exec_ready hf hi hp hs ((hw _).trans (epValid_iff.2 hlt)) (endpointRefusal_eq_none hep hnum hdir)

theorem exec_endpointCommand_ep0 (hnum : ep.num = 0) : exec i s = .next (refusedState .ep0Reserved s) := by
  obtain ⟨hf, hi, hp, hw⟩ := of_commandEndpoint hep
  exact exec_ready_refused hf hi hp hs ((hw _).trans (epValid_iff.2 hlt)) (endpointRefusal_ep0 hep hnum)

end

/-- Settles O36: number 0 is refused once the address has been found valid; of the halt bits, one is written. -/
theorem endpointCommands : Obligations.EndpointCommands := by
  unfold Obligations.EndpointCommands
  intro s ep ty mps hs hlt
  refine ⟨fun hnum => ⟨?_, ?_, ⟨(s.setHalt ep true).halted, ?_, s.get_setHalt_halted ep true⟩,
    ⟨(s.setHalt ep false).halted, ?_, s.get_setHalt_halted ep false⟩⟩, fun hnum => ⟨?_, ?_, ?_, ?_⟩⟩
  · exact exec_endpointCommand hs hlt rfl hnum nofun
  · exact exec_endpointCommand hs hlt rfl hnum nofun
  · exact exec_endpointCommand hs hlt rfl hnum nofun
  · exact exec_endpointCommand hs hlt rfl hnum nofun
  all_goals exact exec_endpointCommand_ep0 hs hlt rfl hnum

/-! ## HAL results -/

/-- A draw takes the next scripted result where there is one, and touches nothing but the results and the counter (log 5). -/
theorem drawWritten_spec (s : State) : ∃ (ws : List Word) (n : Nat),
    (drawWritten s).2 = { s with env := { s.env with writeResults := ws, draws := n } } ∧
      (s.env.writeResults ≠ [] → s.env.writeResults = (drawWritten s).1 :: ws ∧ n = s.env.draws) := by
  unfold drawWritten
  split
  · next ws h => exact ⟨ws, s.env.draws, rfl, fun _ => ⟨h, rfl⟩⟩
  · next h => exact ⟨[], s.env.draws + 1, by rw [← h], fun hne => absurd h hne⟩

theorem drawRead_spec (s : State) : ∃ (rs : List (List Byte)) (n : Nat),
    (drawRead s).2 = { s with env := { s.env with readResults := rs, draws := n } } ∧
      (s.env.readResults ≠ [] → s.env.readResults = (drawRead s).1 :: rs ∧ n = s.env.draws) := by
  unfold drawRead
  split
  · next rs h => exact ⟨rs, s.env.draws, rfl, fun _ => ⟨h, rfl⟩⟩
  · next h => exact ⟨[], s.env.draws + 1, by rw [← h], fun hne => absurd h hne⟩

theorem drawInfo_spec (s : State) : ∃ (cs : List Nat) (n : Nat),
    (drawInfo s).2 = { s with env := { s.env with infoResults := cs, draws := n } } ∧
      (s.env.infoResults ≠ [] → s.env.infoResults = (drawInfo s).1 :: cs ∧ n = s.env.draws) := by
  unfold drawInfo
  split
  · next cs h => exact ⟨cs, s.env.draws, rfl, fun _ => ⟨h, rfl⟩⟩
  · next h => exact ⟨[], s.env.draws + 1, by rw [← h], fun hne => absurd h hne⟩

/-- Settles O37: the command is admitted, and its result is what its draw takes. -/
theorem halResults : Obligations.HalResults := by
  unfold Obligations.HalResults
  intro s ep bs hs
  refine ⟨fun hlt hnum hdir => ?_, fun hlt hnum hdir => ?_, ?_⟩
  · obtain ⟨ws, n, hstate, hscript⟩ := drawWritten_spec s
    refine ⟨(drawWritten s).1, ws, n, ?_, hscript⟩
    rw [exec_endpointCommand (i := .epWrite ep bs) hs hlt rfl hnum fun _ hd => hdir.trans (Option.some.inj hd), nestedBody,
      bodyEpWrite, finish_ok, hstate]
    rfl
  · obtain ⟨rs, n, hstate, hscript⟩ := drawRead_spec s
    refine ⟨(drawRead s).1, rs, n, ?_, hscript⟩
    rw [exec_endpointCommand (i := .epRead ep) hs hlt rfl hnum fun _ hd => hdir.trans (Option.some.inj hd), nestedBody,
      bodyEpRead, finish_ok, hstate]
    rfl
  · obtain ⟨cs, n, hstate, hscript⟩ := drawInfo_spec s
    refine ⟨(drawInfo s).1, cs, n, ?_, hscript⟩
    rw [exec_ready rfl rfl rfl hs rfl rfl, nestedBody, bodyGetInfo, finish_ok, hstate]
    rfl

end Sys2Proof.Machine
end

