-- ==== Sys2Proof/Proofs/NestedCommands.lean ====
section
/-! SUPPORT. The commands of a callback (43_public_api.md R264, R265): each meets the admission check of the same command outside,
and one that is admitted runs the same body. -/

namespace Sys2Proof.Machine

section
variable {c : Input} {i : Instr} {s : State}

/-! ## A word that decodes -/

section
variable (hd : decodeCommand s.limits c.word c.beside = .ok i)
include hd

/-- The early checks read the input's word, which is the command's own; a refusal of theirs is that of admission (R256). -/
theorem admissionSpec_of_earlyRefusal {r : RefuseReason} (he : earlyRefusal c.word s = some r) : admissionSpec i s = some r := by
  rw [← admission_eq_admissionSpec (format_of_decodeCommand hd), admission, encodeWord_of_decodeCommand hd, he]

theorem runCall_refused {r : RefuseReason} (ha : admissionSpec i s = some r) : runCall c s = .refused r s := by
  cases he : earlyRefusal c.word s with
  | some q =>
    obtain rfl : q = r := Option.some.inj ((admissionSpec_of_earlyRefusal hd he).symm.trans ha)
    simp only [runCall, he]
  | none =>
    rw [← admission_eq_admissionSpec (format_of_decodeCommand hd)] at ha
    simp only [runCall, he, hd, ha]

theorem runCall_admitted (ha : admissionSpec i s = none) : runCall c s = nestedBody i s := by
  cases he : earlyRefusal c.word s with
  | some q => cases (admissionSpec_of_earlyRefusal hd he).symm.trans ha
  | none =>
    rw [← admission_eq_admissionSpec (format_of_decodeCommand hd)] at ha
    simp only [runCall, he, hd, ha]

end

/-- Every command but INIT and POLL has a body that goes on in a callback (R265). -/
theorem nestedBody_ok (hf : format i = .command) (hi : isInit i = false) (hp : isPoll i = false) (s : State) :
    ∃ t, nestedBody i s = .ok t := by
  cases i <;> cases hf
  case init => cases hi
  case poll => cases hp
  all_goals exact ⟨_, rfl⟩

/-- What is admitted in a callback is neither INIT nor POLL (R265). -/
theorem not_init_poll_of_admitted (hx : s.ctx = .inCallback) (ha : admissionSpec i s = none) :
    isInit i = false ∧ isPoll i = false := by
  rw [admissionSpec_eq] at ha
  split_ifs at ha with _ hctx
  simpa [hx] using hctx

/-- An admitted command of a callback ends where the command by itself does (R264, R265). -/
theorem runCall_eq_exec (hr : s.refused = false) (hx : s.ctx = .inCallback)
    (hd : decodeCommand s.limits c.word c.beside = .ok i) (ha : admissionSpec i s = none) :
    ∃ t, exec i s = .next t ∧ t.refused = false ∧ runCall c s = .ok t := by
  have hf := format_of_decodeCommand hd
  obtain ⟨hi, hp⟩ := not_init_poll_of_admitted hx ha
  obtain ⟨t, ht⟩ := nestedBody_ok hf hi hp s
  refine ⟨t, ?_, ?_, (runCall_admitted hd ha).trans ht⟩
  · rw [exec_admitted hf hr ha, commandBody_eq_nestedBody hi hp, ht, finish_ok]
  · rw [State.refused_eq_false, (nestedBody_kept ht).refusedFor, State.refused_eq_false.1 hr]

/-! ## A word that is refused before decoding or by it -/

theorem runCall_initPoll (hx : s.ctx = .inCallback) (hi : s.initialised = true) (hw : c.word = 0x1000 ∨ c.word = 0x1100) :
    runCall c s = .refused .reentrant s := by
  have he : earlyRefusal c.word s = some .reentrant := by
    rcases hw with hw | hw <;> simp [earlyRefusal, hw, hx, hi, wordClass, wordCode]
  simp only [runCall, he]

/-- A command word other than INIT's and POLL's that does not decode (R99, R101). -/
theorem runCall_undecodable (hi : s.initialised = true) (hcode : 1 < (wordCode c.word).toNat)
    (hd : ∀ i, decodeCommand s.limits c.word c.beside ≠ .ok i) : runCall c s = .refused .reservedInput s := by
  have h0 : wordCode c.word ≠ 0 := fun h => by simp [h] at hcode
  have h1 : wordCode c.word ≠ 1 := fun h => by simp [h] at hcode
  have he : earlyRefusal c.word s = none := by
    rw [earlyRefusal, if_neg (by simp [hi])]
    exact if_neg fun ⟨_, _, h⟩ => h.elim h0 h1
  cases hw : decodeCommand s.limits c.word c.beside with
  | error x => simp only [runCall, he, hw]
  | ok i => exact absurd hw (hd i)

end

/-! ## The statement -/

/-- Settles O41: the word that decodes meets the command's own admission and body, and every command keeps the engine. -/
theorem callbackCommands : Obligations.CallbackCommands := by
  unfold Obligations.CallbackCommands
  intro s hr hx
  exact ⟨fun c => runCall_initPoll hx, fun c i hd => ⟨fun r => runCall_refused hd, runCall_eq_exec hr hx hd⟩,
    fun c hi _ => runCall_undecodable hi, fun cs t h => (runCalls_kept h).engine⟩

end Sys2Proof.Machine
end

