-- ==== Sys2Proof/Proofs/CallbackEnds.lean ====
section
/-! SUPPORT. What an instruction that asks a callback ends in when the answer issues no command, and when one of its commands is
refused (43_public_api.md R264, R266, 60_exceptions.md R312). -/

namespace Sys2Proof.Machine

/-! ## Answers without a command -/

theorem runCalls_silent {a : HandlerAnswer} (hcalls : a.calls = []) (s : State) : runCalls a.calls s = .ok s := by
  rw [hcalls, runCalls_nil]

/-- A value of one byte is 0 when its low byte is (R183). -/
theorem lowByte_eq_zero_iff {v : Half} (h : v.toNat ≤ 255) : lowByte v = 0 ↔ v = 0 := by
  constructor
  · intro hz
    have hlow : v.toNat % 256 = 0 := by simpa [lowByte] using congrArg BitVec.toNat hz
    exact BitVec.eq_of_toNat_eq (by rw [BitVec.ofNat_eq_ofNat, BitVec.toNat_zero]; omega)
  · rintro rfl
    rfl

/-- EVT_RESET runs the reset first, then the callback of its slot (R213, R342). -/
theorem exec_evtReset {s : State} (hr : s.refused = false) :
    exec .evtReset s = finish (notifyEvent .reset (busResetState s)) := runEvent_legal bodyEvtReset hr rfl

/-- SET_CONFIGURATION answered Ack outside Default, by an answer without a command (R183). -/
theorem exec_setConfiguration_silent {s : State} {h : HandlerId} {a : HandlerAnswer} {rest : List HandlerAnswer} {d : Dir}
    {rcpt : BitVec 5} (hr : s.refused = false) (hm : memWf s.dataBuffer = true) (ha : s.env.answers = a :: rest)
    (hcalls : a.calls = []) (hi : inFlight (.setConfiguration d rcpt) s) (hcb : s.configCb = some h)
    (hval : s.setup.value.toNat ≤ 255) (hdev : s.deviceState ≠ .default) (hresp : a.respond = .ack) :
    exec (.setConfiguration d rcpt) s =
      .next
        (ackState s.setup none none
          { (askedState (.config h (lowByte s.setup.value)) rest s) with
            activeConfig := lowByte s.setup.value
            deviceState := if s.setup.value = 0 then .addressed else .configured }) := by
  obtain ⟨-, hasked⟩ := (setConfiguration d rcpt s hr hm hi _ rfl).2 hval (.inl hdev)
  have hend := hasked h a rest _ hcb ha (runCalls_silent hcalls _)
  rw [hresp] at hend
  simp only [if_neg hdev] at hend
  simp only [← lowByte_eq_zero_iff hval]
  exact hend

/-! ## Answers with a refused command -/

section
variable {s u : State} {h : HandlerId} {a : HandlerAnswer} {rest : List HandlerAnswer} {r : RefuseReason}

section
variable {i : Instr} (hf : format i = .request) (hr : s.refused = false) (hi : inFlight i s)
include hf hr hi

/-- A request in flight whose rule ends in a refusal. -/
theorem exec_inFlight_refused (hrule : ruleOf i s.setup (outDataOf s.setup s) s = .refused r u) :
    exec i s = .next (refusedState r u) := by
  rw [exec_inFlight hf hr hi, hrule]
  rfl

/-- A request in flight whose rule is AskSlot (R172). -/
theorem exec_inFlight_askSlot_refused {slot : Option HandlerId} {mk : HandlerId → Call} (hslot : slot = some h)
    (ha : s.env.answers = a :: rest) (hu : callRefused (mk h) a rest s r u)
    (hrule : ruleOf i s.setup (outDataOf s.setup s) s = askSlot slot mk s) : exec i s = .next (refusedState r u) := by
  refine exec_inFlight_refused hf hr hi ?_
  rw [hrule, hslot, askSlot, ask_refused ha hu, Flow.bind_refused]

end

theorem ruleSetConfiguration_callRefused {req : ControlRequest} (bs : List Byte) (hval : req.value.toNat ≤ 255)
    (hdev : s.deviceState ≠ .default ∨ lowByte req.value = 0) (hcb : s.configCb = some h) (ha : s.env.answers = a :: rest)
    (hu : callRefused (.config h (lowByte req.value)) a rest s r u) : ruleSetConfiguration req bs s = .refused r u := by
  rw [ruleSetConfiguration, if_neg hval.not_gt, if_neg (by tauto), hcb]
  simp only [ask_refused ha hu, Flow.bind_refused]

theorem finish_notifyEvent_refused {e : DeviceEvent} (hslot : s.evtCb e = some h) (ha : s.env.answers = a :: rest)
    (hu : callRefused (.event h e) a rest s r u) : finish (notifyEvent e s) = .next (refusedState r u) := by
  rw [notifyEvent, hslot]
  exact congrArg finish (notify_refused ha hu)

theorem finish_notifyEndpoint_refused {kind : Transfer} {ep : EpAddr} (hslot : s.epCb ep.num = some h)
    (ha : s.env.answers = a :: rest) (hu : callRefused (.endpoint h kind ep) a rest s r u) :
    finish (notifyEndpoint kind ep s) = .next (refusedState r u) := by
  rw [notifyEndpoint, hslot]
  exact congrArg finish (notify_refused ha hu)

theorem completeTransfer_refused {tok : Token} (hc : s.completion = some tok) (ha : s.env.answers = a :: rest)
    (hu : callRefused (.complete tok s.setup) a rest { addressedState s with completion := none } r u) :
    completeTransfer s = .refused r u := by
  have ha' : (addressedState s).env.answers = a :: rest := by rw [addressedState_env, ha]
  rw [completeTransfer_token hc, notify_refused (s := { addressedState s with completion := none }) ha' hu]

end

/-! ## The statement -/

/-- Settles O54: without a command the state in which an answer's commands end is the one they start in, and a refused one ends
every procedure above it; the commands of an answer never raise. -/
theorem silentCallbacks : Obligations.SilentCallbacks := by
  unfold Obligations.SilentCallbacks
  refine ⟨fun s h a rest hr hm ha hcalls => ?silent, fun s u h a rest r hr ha => ?refused,
    fun cs s u e => runCalls_ne_raised cs s e u⟩
  case silent =>
    have hrun := runCalls_silent hcalls
    rw [exec_evtReset hr, exec_evtSuspend hr, exec_evtResume hr]
    refine ⟨fun i c d rcpt hrow hi hcb => ?_, fun d rcpt hi hcb => ?_, fun d rcpt hi hcb => ?_, fun d rcpt hi hcb => ?_,
      fun n hne hlt hslot => ?_, fun hslot => ?_, fun hslot => ?_, fun hslot => ?_⟩
    · exact (classVendor i s ⟨c, d, rcpt, hrow⟩ hr hm hi).2 h a rest _ hcb ha (hrun _)
    · exact (descriptors _ false s ⟨d, rcpt, rfl⟩ hr hm hi).2 h a rest _ hcb ha (hrun _)
    · exact (descriptors _ true s ⟨d, rcpt, rfl⟩ hr hm hi).2 h a rest _ hcb ha (hrun _)
    · exact exec_setConfiguration_silent hr hm ha hcalls hi hcb
    · have hasked (u : State) := (endpointEvents s n hr hne hlt).2 h a rest u hslot ha
      exact ⟨(hasked _).1 (hrun _), (hasked _).2 (hrun _)⟩
    · exact finish_notifyEvent_scripted (s := busResetState s) (e := .reset) hslot ha (hrun _)
    · exact finish_notifyEvent_scripted (e := .suspend) hslot ha (hrun _)
    · exact finish_notifyEvent_scripted (e := .resume) hslot ha (hrun _)
  case refused =>
    rw [exec_evtReset hr, exec_evtSuspend hr, exec_evtResume hr]
    refine ⟨fun i c d rcpt hrow hi hcb hu => ?_, fun d rcpt hi hcb hu => ?_, fun d rcpt hi hcb hu => ?_,
      fun d rcpt hi hcb hval hdev hu => ?_, fun n hne hlt hslot => ?_, fun hslot => ?_, fun hslot => ?_, fun hslot => ?_,
      fun tok hn hpend hcomp => ⟨fun hc hu => ?_, fun hc hu => ?_⟩⟩
    · rcases hrow with rfl | rfl <;>
        exact exec_inFlight_askSlot_refused (mk := fun h => .control h s.setup (outDataOf s.setup s)) rfl hr hi hcb ha hu rfl
    · exact exec_inFlight_askSlot_refused (mk := fun h => .descriptor h s.setup []) rfl hr hi hcb ha hu rfl
    · exact exec_inFlight_askSlot_refused (mk := fun h => .descriptor h s.setup (outDataOf s.setup s)) rfl hr hi hcb ha hu rfl
    · exact exec_inFlight_refused rfl hr hi
        (ruleSetConfiguration_callRefused (outDataOf s.setup s) hval (hdev.imp_right (lowByte_eq_zero_iff hval).2) hcb ha
          hu)
    · rw [exec_evtEpnRx hr hne hlt, exec_evtEpnTx hr hne hlt]
      exact ⟨finish_notifyEndpoint_refused (ep := { dir := .out, num := n }) hslot ha,
        finish_notifyEndpoint_refused (ep := { dir := .inn, num := n }) hslot ha⟩
    · exact finish_notifyEvent_refused (s := busResetState s) (e := .reset) hslot ha
    · exact finish_notifyEvent_refused (e := .suspend) hslot ha
    · exact finish_notifyEvent_refused (e := .resume) hslot ha
    · rw [exec_evtEp0Tx_legal hr hn, bodyEvtEp0Tx_statusIn hpend hc,
        completeTransfer_refused (s := { s with controlState := .idle }) hcomp ha hu]
      rfl
    · rw [exec_evtEp0Rx_legal hr hn (Nat.zero_le _), bodyEvtEp0Rx_statusOut hpend hc, rxInStatus, if_neg (not_not.2 rfl),
        completeTransfer_refused (s := { s.emit (.readEndpoint ep0Out []) with controlState := .idle }) hcomp ha hu]
      rfl

end Sys2Proof.Machine
end

