-- ==== Sys2Proof/Proofs/ResetAndHazards.lean ====
section
/-! SUPPORT. What a bus reset leaves (70_reset_and_hazards.md R342), and who acts on endpoint number 0 (R347): the admission check
keeps every application command off it (43_public_api.md R256), in a callback as outside. -/

namespace Sys2Proof.Machine

/-! ## Commands off endpoint number 0 -/

/-- An entry that is no HAL action on endpoint number 0 (R347). -/
def OffEp0 (a : Action) : Prop := touchesEp0 a = false

section
variable {i : Instr} {s t : State}

/-- Whichever check comes first, a command on number 0 is refused: EP0_RESERVED is left when all before it pass (R256). -/
theorem endpoint_ne_zero_of_admitted {ep : EpAddr} (ha : admission i s = none) (hep : commandEndpoint i = some ep) :
    ep.num ≠ 0 := by
  intro hnum
  rw [admission, endpointRefusal_ep0 hep hnum] at ha
  split at ha
  · cases ha
  · split at ha <;> cases ha

/-- The one HAL action of a command's body is on the command's endpoint, or on none (R247 to R255). -/
theorem nestedBody_offEp0 (hnum : ∀ ep, commandEndpoint i = some ep → ep.num ≠ 0) (h : nestedBody i s = .ok t) :
    Adds OffEp0 s t := by
  cases i <;> cases h
  case epConfig ep _ _ | epDeconfig ep | epStall ep | epUnstall ep =>
    exact .emit (s := s) (decide_eq_false (hnum ep rfl))
  case epWrite ep _ =>
    exact (Adds.draw (drawWritten_state s)).trans (.emit (s := (drawWritten s).2) (decide_eq_false (hnum ep rfl)))
  case epRead ep =>
    exact (Adds.draw (drawRead_state s)).trans (.emit (s := (drawRead s).2) (decide_eq_false (hnum ep rfl)))
  case enable | connect => exact .emit (s := s) rfl
  case getInfo => exact (Adds.draw (drawInfo_state s)).trans (.emit (s := (drawInfo s).2) rfl)
  case regEvent e h => exact .of_trace_eq (s.setEvtCb_trace e h)
  case regControl | regConfig | regDescriptor | regEndpoint => exact .of_trace_eq rfl

/-- INIT emits no action (R240), and every other command but POLL has the body of a callback's command. -/
theorem finish_commandBody_offEp0 (hp : isPoll i = false) (hnum : ∀ ep, commandEndpoint i = some ep → ep.num ≠ 0)
    (h : finish (commandBody i s) = .next t) : Adds OffEp0 s t := by
  rcases commandBody_cases i with ⟨cap, ep0, rfl⟩ | ⟨batch, rfl⟩ | hb
  · rw [commandBody, bodyInit] at h
    split at h <;> cases h <;> exact .of_trace_eq rfl
  · cases hp
  · rw [hb] at h
    rcases nestedBody_cases i s with ⟨u, hu⟩ | ⟨r, hr⟩
    · rw [hu] at h
      cases h
      exact nestedBody_offEp0 hnum hu
    · rw [hr] at h
      cases h
      exact .of_trace_eq rfl

/-- A command at top level, refused or admitted (R256). -/
theorem exec_offEp0 (hf : format i = .command) (hp : isPoll i = false) (h : exec i s = .next t) : Adds OffEp0 s t := by
  rw [exec_command hf] at h
  rcases runCommand_cases i (commandBody i) s with ⟨-, e⟩ | ⟨-, r, -, e⟩ | ⟨-, ha, e⟩ <;> rw [e] at h
  · cases h
  · cases h
    exact .of_trace_eq rfl
  · exact finish_commandBody_offEp0 hp (fun _ => endpoint_ne_zero_of_admitted ha) h

end

theorem runCall_offEp0 {c : Input} {s t : State} (h : runCall c s = .ok t) : Adds OffEp0 s t := by
  rcases runCall_cases c s with ⟨i, u, -, ha, hbody, e⟩ | ⟨r, e⟩ <;> cases e.symm.trans h
  exact nestedBody_offEp0 (fun _ => endpoint_ne_zero_of_admitted ha) hbody

/-- The commands of a callback's answer (R264). -/
theorem runCalls_offEp0 {cs : List Input} {s t : State} (h : runCalls cs s = .ok t) : Adds OffEp0 s t := by
  induction cs generalizing s with
  | nil =>
    cases h
    exact .refl t
  | cons c cs ih =>
    obtain ⟨u, hc, hcs⟩ := Flow.bind_eq_ok h
    exact (runCall_offEp0 hc).trans (ih hcs)

/-! ## The statements -/

/-- Settles O40: admission refuses endpoint number 0, and a command acts on its own endpoint alone. -/
theorem ep0Ownership : Obligations.Ep0Ownership := by
  unfold Obligations.Ep0Ownership
  exact ⟨fun _ _ _ _ hf hp h => (exec_offEp0 hf hp h).of_mem, fun _ _ _ _ h => (runCalls_offEp0 h).of_mem⟩

/-- Settles O42: the event is NotifyEvent of the RESET slot in the reset state. (`busReset` is the model's own operation.) -/
theorem busResetThenCallback : Obligations.BusReset := by
  unfold Obligations.BusReset
  intro s hr
  rw [exec_evtReset hr]
  exact ⟨finish_notifyEvent_empty (s := busResetState s) (e := .reset), fun h a rest u hslot ha =>
    finish_notifyEvent_scripted (s := busResetState s) (e := .reset) hslot ha⟩

end Sys2Proof.Machine
end
